-- ==== Sys2Proof/Word.lean ====
section
/-! DEFINITION. The word types: a register is 64 bits (R10, R15); a byte exists only on a bridged bus (R40). -/

namespace Sys2Proof

/-- The contents of one register of the port (R15). -/
abbrev Word := BitVec 64

/-- One byte of a byte-addressed bus to which the port may be bridged (R40). -/
abbrev Byte := BitVec 8

end Sys2Proof
end

