-- ==== Sys2Proof/Machine/Bits.lean ====
section
/-! DEFINITION. The bit-level primitives of R10 and R11 on numbers: fields, population count, parity, and the wrap of a counter. -/

namespace Sys2Proof.Machine

open Sys2Proof

/-- `v[lo+len-1 : lo]`, read as an unsigned number of width `len` (R10). -/
def field (v lo len : Nat) : Nat := v / 2 ^ lo % 2 ^ len

/-- The number of 1 bits among the low `width` bits of `v` (R11). -/
def popcount : (width v : Nat) → Nat
  | 0, _ => 0
  | n + 1, v => v % 2 + popcount n (v / 2)

/-- `popcount mod 2`, one bit (R11). -/
def parity (width v : Nat) : Nat := popcount width v % 2

/-- The number whose bit j is `f j` for j below `n`, and whose other bits are 0: the loops `label[j] <- …` of R70, R72, R78. -/
def labelBits (f : Nat → Bool) : Nat → Nat
  | 0 => 0
  | n + 1 => labelBits f n + (if f n then 2 ^ n else 0)

/-- How many of `f 0 … f (n-1)` hold: the loops `dcnt <- dcnt + …` of R70 and R72. -/
def countBits (f : Nat → Bool) : Nat → Nat
  | 0 => 0
  | n + 1 => countBits f n + (if f n then 1 else 0)

/-- `wrap_CW(n)`: the CW-bit two's-complement value congruent to `n` modulo 2^CW (R11, R81). -/
def wrapCW (cw : Nat) (n : Int) : Int := Int.bmod n (2 ^ cw)

end Sys2Proof.Machine
end

