-- ==== Sys2Proof/Config.lean ====
section
/-! DEFINITION. The build parameters of R7, the type that refuses an illegal set of them (R7, R110, S1), the builds the
spec names, and the OPEN platform parameter LFC_BASE (R36). -/

namespace Sys2Proof

/-- Which blocks count as disagreeing (R69). -/
inductive DRule where
  | unanimity
  | strictMajority
  | refLiteral
  deriving DecidableEq, Repr

/-- Where the reject threshold applies (R71). -/
inductive TScope where
  | batch
  | word
  deriving DecidableEq, Repr

/-- Byte order of a bus bridge (R40). -/
inductive Endian where
  | little
  | big
  deriving DecidableEq, Repr

/-- The build parameters of R7 as a build request may give them, legal or not. -/
structure Params where
  /-- QL: measurement word width in bits. -/
  ql : Nat
  /-- RF: bits per covering-code block. -/
  rf : Nat
  /-- TF: blocks per table batch. -/
  tf : Nat
  /-- CW: width of one histogram counter. -/
  cw : Nat
  drule : DRule := .unanimity
  tscope : TScope := .batch
  endian : Endian := .little
  deriving DecidableEq, Repr

namespace Params

/-- MAXTB: the largest table index width (R7). -/
def maxtb : Nat := 20

/-- IS: number of blocks, which is also the label width (R7). -/
def is (p : Params) : Nat := p.ql / p.rf

/-- NB: batches per word (R7). -/
def nb (p : Params) : Nat := p.is / p.tf

/-- TB: raw bits per batch, which is also the table index width (R7). -/
def tb (p : Params) : Nat := p.rf * p.tf

/-- The number of histogram counters, 2^IS (R32). -/
def hsize (p : Params) : Nat := 2 ^ p.is

/-- The number of decode-table entries, 2^TB (R33). -/
def tsize (p : Params) : Nat := 2 ^ p.tb

/-- 1 ≤ QL ≤ 64 (R7). -/
def qlOk (p : Params) : Bool := 1 ≤ p.ql && p.ql ≤ 64

/-- 1 ≤ RF and RF divides QL (R7). -/
def rfOk (p : Params) : Bool := 1 ≤ p.rf && p.ql % p.rf == 0

/-- 1 ≤ IS ≤ 30 (R7). -/
def isOk (p : Params) : Bool := 1 ≤ p.is && p.is ≤ 30

/-- 1 ≤ TF and TF divides IS (R7; C3). -/
def tfOk (p : Params) : Bool := 1 ≤ p.tf && p.is % p.tf == 0

/-- TB = RF·TF ≤ MAXTB (R7). -/
def tbOk (p : Params) : Bool := p.tb ≤ maxtb

/-- 2 ≤ CW ≤ 64 (R7). -/
def cwOk (p : Params) : Bool := 2 ≤ p.cw && p.cw ≤ 64

/-- The constraint column of R7, whole. -/
def legal (p : Params) : Bool := p.qlOk && p.rfOk && p.isOk && p.tfOk && p.tbOk && p.cwOk

end Params

/-- A build of the block: a parameter set that meets every constraint of R7.
A set that breaks one has no hardware, so it has no value of this type (R7, R110, S1). -/
structure Config extends Params where
  legal : toParams.legal = true
  deriving DecidableEq, Repr

namespace Config

/-- The reference build of R7. -/
def reference : Config := ⟨⟨60, 3, 4, 32, .unanimity, .batch, .little⟩, rfl⟩

/-- The test build CFG-S of R7. -/
def cfgS : Config := ⟨⟨12, 3, 2, 16, .unanimity, .batch, .little⟩, rfl⟩

/-- The test build CFG-T of R7. -/
def cfgT : Config := ⟨⟨6, 3, 1, 16, .unanimity, .batch, .little⟩, rfl⟩

end Config

/-- Which 64-byte slot of the host's address space holds the register window.
OPEN in the spec (R36, U11): an opaque constant, so that no statement can rest on a value of it. DESIGN CHOICE log 10. -/
opaque lfcSlot : Nat

/-- LFC_BASE: the base of the 64-byte register window, any 64-byte-aligned address (R36 and the open-parameter table). -/
def lfcBase : Nat := 64 * lfcSlot

end Sys2Proof
end

