-- ==== Sys2Proof/Syntax.lean ====
section
/-! DEFINITION. The syntax of the block: the fourteen commands of R58, their operand forms (R56), the registers of R15,
the host's transactions on the port, and the events that the total order of R45 is made of. -/

namespace Sys2Proof

/-- The commands, one constructor per row of R58. A command has no fields: every operand comes from the registers A, B and
CTRL (R51, R56). -/
inductive Instr where
  | nop
  | par
  | popc
  | tblbuild
  | tblrd
  | dec
  | proj
  | projp
  | hclr
  | hacc
  | hwr
  | hrd
  | samp
  | fwht
  deriving DecidableEq, Repr

/-- The operand forms of R56. -/
inductive Form where
  | none
  | ab
  | m
  | mr
  | idx
  | idxr
  | idxv
  | tidx
  | thr
  deriving DecidableEq, Repr

/-- The column idxLimit of R58: which index check a command has. -/
inductive IdxLimit where
  | none
  /-- A[63:IS] must be 0. -/
  | label
  /-- A[63:TB] must be 0. -/
  | batch
  deriving DecidableEq, Repr

/-- The eight registers of R15. -/
inductive Reg where
  | id
  | ctrl
  | status
  | cmd
  | a
  | b
  | res
  | discard
  deriving DecidableEq, Repr

/-- A transaction the host puts to the block. On the register port it has an offset into the 64-byte window and a width in
bits (R36, R41); over a bridge it has a bus address and bytes (R36, R40). Ill-formed ones can be written down, so that the
model can refuse them by name. -/
inductive Access where
  | read (offset width : Nat)
  | write (offset width : Nat) (data : Word)
  | busRead (addr len : Nat)
  | busWrite (addr : Nat) (bytes : List Byte)
  deriving DecidableEq, Repr

/-- One place in the total order of R45, or one clock edge with `rst` asserted (R118). -/
inductive Event where
  /-- The engine's turn: it completes the command in flight, if there is one (R54). -/
  | engine
  /-- One host transaction (R45). A command's acceptance is part of the CMD write (R52, R53). -/
  | host (x : Access)
  /-- One clock edge with `rst` asserted, and the host transaction made then, if any (R118). -/
  | rst (during : Option Access)
  deriving DecidableEq, Repr

end Sys2Proof
end

