-- ==== Sys2Proof/WellFormed.lean ====
section
/-! DEFINITION. Which syntax is well formed: a port transaction is a whole aligned register of the window (R36, R41), a
bridged one the eight bytes of one register (R36, R40, R41). A command has no operand, so every command is well formed (R56).
The check of a parameter set stands in Config.lean, since the type of builds carries it (R7). -/

namespace Sys2Proof

/-- Commands take no immediates (R56): no command term is ill formed. -/
def Instr.wf : Instr → Bool
  | .nop | .par | .popc | .tblbuild | .tblrd | .dec | .proj | .projp => true
  | .hclr | .hacc | .hwr | .hrd | .samp | .fwht => true

/-- The offset is a multiple of 8 (R41). -/
def aligned (offset : Nat) : Bool := offset % 8 == 0

/-- The access moves all 64 bits (R41). -/
def wholeWord (width : Nat) : Bool := width == 64

/-- The offset lies in the 64-byte window (R35, R36). -/
def inWindow (offset : Nat) : Bool := offset < 64

/-- The bus address lies in the window that LFC_BASE places (R36). -/
def onBus (addr : Nat) : Bool := lfcBase ≤ addr && addr < lfcBase + 64

/-- A transaction the register port carries (R36, R40, R41). -/
def Access.wf : Access → Bool
  | .read offset width => aligned offset && wholeWord width && inWindow offset
  | .write offset width _ => aligned offset && wholeWord width && inWindow offset
  | .busRead addr len => onBus addr && aligned (addr - lfcBase) && len == 8
  | .busWrite addr bytes => onBus addr && aligned (addr - lfcBase) && bytes.length == 8

end Sys2Proof
end

