-- ==== Sys2Proof/Decode.lean ====
section
/-! DEFINITION. The command word (R51, R58 to R60): decoding, total on any 64-bit word and rejecting by name, the columns of the
opcode table, and after them the encoder. -/

namespace Sys2Proof

/-- Why a command word is illegal (R51, R59). -/
inductive Illegal where
  /-- A bit of RSV is not 0. -/
  | reservedBits
  /-- RSV is 0 and OP is not in R58. -/
  | unknownOp
  deriving DecidableEq, Repr

/-- OP, bits 7:0 of the command word (R51). -/
def opField (w : Word) : BitVec 8 := w.extractLsb' 0 8

/-- RSV, bits 63:8 of the command word (R51). -/
def rsvField (w : Word) : BitVec 56 := w.extractLsb' 8 56

/-- The OP column of R58: the set KNOWN_OPS and what each selects. -/
def opTable : List (BitVec 8 × Instr) :=
  [(0x00#8, .nop), (0x01#8, .par), (0x02#8, .popc),
   (0x10#8, .tblbuild), (0x11#8, .tblrd), (0x12#8, .dec), (0x13#8, .proj), (0x14#8, .projp),
   (0x20#8, .hclr), (0x21#8, .hacc), (0x22#8, .hwr), (0x23#8, .hrd), (0x24#8, .samp),
   (0x30#8, .fwht)]

/-- The command an OP value selects (R58). -/
def decodeOp (op : BitVec 8) : Option Instr := opTable.lookup op

/-- A decoder reads OP from bits 7:0 and checks that bits 63:8 are zero (R60). -/
def decode (w : Word) : Except Illegal Instr :=
  if rsvField w = 0 then
    match decodeOp (opField w) with
    | some i => .ok i
    | none => .error .unknownOp
  else .error .reservedBits

/-- The column "form" of R58. -/
def Instr.form : Instr → Form
  | .nop => .none
  | .par => .ab
  | .popc => .ab
  | .tblbuild => .thr
  | .tblrd => .tidx
  | .dec => .m
  | .proj => .m
  | .projp => .m
  | .hclr => .none
  | .hacc => .idxr
  | .hwr => .idxv
  | .hrd => .idx
  | .samp => .mr
  | .fwht => .none

/-- The column "needsTable" of R58. -/
def Instr.needsTable : Instr → Bool
  | .tblrd | .dec | .proj | .samp => true
  | .nop | .par | .popc | .tblbuild | .projp => false
  | .hclr | .hacc | .hwr | .hrd | .fwht => false

/-- The column "idxLimit" of R58. -/
def Instr.idxLimit : Instr → IdxLimit
  | .tblrd => .batch
  | .hacc | .hwr | .hrd => .label
  | .nop | .par | .popc | .tblbuild | .dec | .proj | .projp => .none
  | .hclr | .samp | .fwht => .none

/-- The OP value of a command, for the encoder (R58). -/
def Instr.opcode : Instr → BitVec 8
  | .nop => 0x00#8
  | .par => 0x01#8
  | .popc => 0x02#8
  | .tblbuild => 0x10#8
  | .tblrd => 0x11#8
  | .dec => 0x12#8
  | .proj => 0x13#8
  | .projp => 0x14#8
  | .hclr => 0x20#8
  | .hacc => 0x21#8
  | .hwr => 0x22#8
  | .hrd => 0x23#8
  | .samp => 0x24#8
  | .fwht => 0x30#8

/-- The command word of a command: its OP in bits 7:0, RSV zero (R51, R58). -/
def encode (i : Instr) : Word := i.opcode.setWidth 64

/-- The command the decoder reads from a word numbered as the opcode table numbers it: a command word is one 64-bit register
value, so bits at or above 64 make no command word (R60). -/
def decodeTableWord (nbits w : Nat) : Option Instr :=
  if nbits ≤ 64 ∧ w < 2 ^ nbits then (decode (BitVec.ofNat 64 w)).toOption else none

end Sys2Proof
end

