-- ==== Sys2Proof/Machine/State.lean ====
section
/-! DEFINITION. State as plain data: the registers of R15, HIST (R32), TABLE (R33), the in-flight record (R20), the build (R7), and
the model's own two fields, the order of the agents' moves and the reply to the host. Then why a step can stop, and reset (R118). -/

namespace Sys2Proof.Machine

open Sys2Proof

/-- The error codes of R103. Codes 5 to 15 are never produced, so they have no constructor (U6). -/
inductive ErrCode where
  | illegalCmd
  | busy
  | noTable
  | badIndex
  deriving DecidableEq, Repr

/-- One decode-table entry (R33, R70). -/
structure TableEntry where
  label : Nat
  dcnt : Nat
  rej : Bool
  deriving DecidableEq, Repr

/-- The histogram memory HIST (R32), in one canonical form (`Memory.wf` in Machine/Ops.lean; log 4).
`cells` lists counters by rising index; `zeroed` says that every counter has been written since reset, and then a counter
that is not listed holds 0; until then a counter that is not listed is unwritten (R38). -/
structure Memory where
  zeroed : Bool
  cells : List (Nat × Int)
  deriving DecidableEq, Repr

/-- The in-flight command record (R20): OP as accepted, and A, B and THRESH as latched at issue. Its `busy` is that it exists. -/
structure Flight where
  op : BitVec 8
  a : Word
  b : Word
  thr : BitVec 16
  deriving DecidableEq, Repr

/-- What the last host transaction gave back to the host. The model's own (log 3). -/
inductive Reply where
  | nothing
  | word (w : Word)
  | bytes (bs : List Byte)
  deriving DecidableEq, Repr

/-- The state of the block (R14). -/
structure State where
  /-- The build parameters: configuration, which no step changes (R7, R14; log 1). -/
  cfg : Config
  /-- CTRL.THRESH (R25). -/
  thresh : BitVec 16
  /-- STATUS.ERR and STATUS.ECODE: ERR = 1 exactly when a code is held (R22, R101, R102; log 6). -/
  err : Option ErrCode
  /-- STATUS.OVF (R28). -/
  ovf : Bool
  /-- STATUS.REJ (R27). -/
  rej : Bool
  /-- STATUS.TBLV (R29). -/
  tblv : Bool
  /-- A (R16). -/
  a : Word
  /-- B (R17). -/
  b : Word
  /-- RES (R18). -/
  res : Word
  /-- DISCARD (R31). -/
  discard : Word
  /-- HIST (R32). -/
  hist : Memory
  /-- TABLE (R33): entry e at position e. -/
  table : List TableEntry
  /-- The in-flight record (R20). STATUS.BUSY mirrors that there is one (R30; log 7). -/
  flight : Option Flight
  /-- The events still to come, in the total order of R45. The model's own (log 2). -/
  inputs : List Event
  /-- What the last host transaction gave back. The model's own (log 3). -/
  reply : Reply
  deriving DecidableEq, Repr

/-- The model faults (R12): states and reads to which the spec forbids a model to give a value. -/
inductive Fault where
  /-- Raised by `step` in a state with STATUS.OVF = 1 (R28, R108(a), U3). Safe: the hardware goes on, the model stops. -/
  | counterOverflow
  /-- Raised by HACC, HRD, SAMP and FWHT on a counter not written since reset (R38, R108(b)). Safe: the hardware gives some value. -/
  | unwrittenCounter (i : Nat)
  /-- Raised by a counter access at 2^IS or above, a counter that does not exist (R32). No run from reset reaches it. Safe (log 9). -/
  | counterOutOfRange (i : Nat)
  /-- Raised by TBLRD, DEC, PROJ and SAMP where TABLE holds no such entry. No run from reset reaches it: every reader needs
  TBLV = 1 (R39). Safe (log 5). -/
  | tableEntryAbsent (e : Nat)
  deriving DecidableEq, Repr

/-- What the model has no meaning for (R12). -/
inductive Refusal where
  /-- Raised by `exec` for a command that has no meaning yet; none is left. Safe. -/
  | notModelled (mnemonic : String)
  /-- Raised by a command's completion where no command is in flight: the engine has no step then (R13). `step` never asks for
  one. Safe (log 8). -/
  | engineIdle
  /-- Raised by the engine where the record's op is no command. No run from reset reaches it: only known OPs are accepted (R52).
  Safe (log 8). -/
  | notACommand (op : BitVec 8)
  /-- Raised by a port transaction that is not an aligned 64-bit access of the window (R41, R108(c), U4). Safe (log 10). -/
  | badAccess (offset width : Nat)
  /-- Raised by a bridged transaction that is not the eight bytes of one register of the window (R36, R40, R41). Safe (log 10). -/
  | badBusAccess (addr len : Nat)
  deriving DecidableEq, Repr

/-- HIST after reset: every counter unwritten (R119). -/
def Memory.unwritten : Memory := ⟨false, []⟩

/-- The state after reset of a build `c` (R118). TABLE's contents are unspecified there; the model holds none (log 5). -/
def State.resetOf (c : Config) : State where
  cfg := c
  thresh := 0
  err := none
  ovf := false
  rej := false
  tblv := false
  a := 0
  b := 0
  res := 0
  discard := 0
  hist := Memory.unwritten
  table := []
  flight := none
  inputs := []
  reply := .nothing

/-- The machine right after reset, in the reference build of R7 (log 1). -/
def State.reset : State := State.resetOf Config.reference

end Sys2Proof.Machine
end

