-- ==== Sys2Proof/Machine/Ops.lean ====
section
/-! DEFINITION. The shared operations: the loop of R11, HIST and TABLE accesses, counter arithmetic, latching and clearing an error
(this block's whole exception mechanism: R100), reset, the model fault of R108(a), and the completion of a command (R54). -/

namespace Sys2Proof.Machine

open Sys2Proof

/-- `for i in start .. start+count-1`, in that order (R11), stopping at the first model fault (R54). -/
def forUp {σ : Type} (body : Nat → σ → Except Fault σ) : (count start : Nat) → σ → Except Fault σ
  | 0, _, r => .ok r
  | n + 1, i, r =>
    match body i r with
    | .error f => .error f
    | .ok r' => forUp body n (i + 1) r'

/-! ### HIST -/

/-- What a counter that is not listed reads as: nothing while it may be unwritten (R38), 0 once every counter has been written
(R82; log 4). -/
def Memory.unlisted (m : Memory) : Option Int := if m.zeroed then some 0 else none

/-- The value listed for a counter, if any. -/
def lookupCell (i : Nat) : List (Nat × Int) → Option Int
  | [] => none
  | (j, v) :: t => if j = i then some v else lookupCell i t

/-- A counter's value; nothing when it is unwritten (R38). -/
def Memory.read (m : Memory) (i : Nat) : Option Int := (lookupCell i m.cells).or m.unlisted

/-- List a counter with a value, keeping the indices rising. -/
def setCell (i : Nat) (v : Int) : List (Nat × Int) → List (Nat × Int)
  | [] => [(i, v)]
  | (j, w) :: t =>
    if i < j then (i, v) :: (j, w) :: t
    else if i = j then (i, v) :: t
    else (j, w) :: setCell i v t

/-- Take a counter off the list. -/
def dropCell (i : Nat) (cells : List (Nat × Int)) : List (Nat × Int) := cells.filter (fun p => p.1 ≠ i)

/-- Store a value in one of `size` counters, keeping the canonical form (log 4): once every counter is listed, the memory is
marked `zeroed` and the zeros leave the list. -/
def Memory.write (size : Nat) (m : Memory) (i : Nat) (v : Int) : Memory :=
  if m.zeroed then
    ⟨true, if v = 0 then dropCell i m.cells else setCell i v m.cells⟩
  else
    let cells := setCell i v m.cells
    if cells.length = size then ⟨true, cells.filter (fun p => p.2 ≠ 0)⟩ else ⟨false, cells⟩

/-- HIST after every counter has been written with 0 (R82). -/
def Memory.cleared : Memory := ⟨true, []⟩

/-- The least value of a CW-bit counter (R81). -/
def counterMin (cw : Nat) : Int := -(2 ^ (cw - 1))

/-- The greatest value of a CW-bit counter (R81). -/
def counterMax (cw : Nat) : Int := 2 ^ (cw - 1) - 1

/-- The canonical form of HIST in a build: indices rise strictly and lie below 2^IS, values are CW-bit counters (R32); no
listed value equals what an unlisted counter reads as; and the mark says exactly whether some counter is unwritten. -/
abbrev Memory.wf (c : Config) (m : Memory) : Prop :=
  m.cells.Pairwise (fun p q => p.1 < q.1) ∧
  (∀ p ∈ m.cells, p.1 < c.hsize ∧ counterMin c.cw ≤ p.2 ∧ p.2 ≤ counterMax c.cw) ∧
  (m.zeroed = true → ∀ p ∈ m.cells, p.2 ≠ 0) ∧
  (m.zeroed = false → m.cells.length < c.hsize)

/-- `HistRead(i)` (R11): an unwritten counter is a model fault (R38). -/
def histRead (c : Config) (m : Memory) (i : Nat) : Except Fault Int :=
  if i < c.hsize then
    match m.read i with
    | some v => .ok v
    | none => .error (.unwrittenCounter i)
  else .error (.counterOutOfRange i)

/-- HIST and the command's pending overflow flag (R81). -/
structure HistRun where
  mem : Memory
  pend : Bool
  deriving DecidableEq, Repr

/-- `HistWrite(i, wrap_CW(n))` (R11, R81): a value that does not fit also sets the pending overflow flag. -/
def storeWrapped (c : Config) (i : Nat) (n : Int) (r : HistRun) : Except Fault HistRun :=
  if i < c.hsize then
    .ok ⟨r.mem.write c.hsize i (wrapCW c.cw n), r.pend || decide (wrapCW c.cw n ≠ n)⟩
  else .error (.counterOutOfRange i)

/-! ### TABLE -/

/-- `TabRead(e)` (R11). -/
def tabRead (table : List TableEntry) (e : Nat) : Except Fault TableEntry :=
  match table[e]? with
  | some t => .ok t
  | none => .error (.tableEntryAbsent e)

/-! ### Errors, reset and completion -/

/-- `latchError(code)` (R102): the first error since the last clear is kept (R101). The block's only exception entry (R100). -/
def latchError (code : ErrCode) (s : State) : State :=
  match s.err with
  | none => { s with err := some code }
  | some _ => s

/-- Clearing a latched error (R107): ERR and ECODE become 0, and nothing is restored. -/
def clearError (s : State) : State := { s with err := none }

/-- The reset action (R118): the build stays, and so does what the host is still going to ask (log 12). -/
def resetBlock (s : State) : State := { State.resetOf s.cfg with inputs := s.inputs, reply := s.reply }

/-- A state with STATUS.OVF = 1 is a model fault and has no successor (R28, R108(a), U3; log 13). -/
def modelFaultOf (s : State) : Option Fault := if s.ovf then some .counterOverflow else none

/-- Steps (3) and (4) of completion (R54): the pending overflow flag goes to the sticky OVF, BUSY and the record are cleared. -/
def finish (pend : Bool) (s : State) : State := { s with ovf := s.ovf || pend, flight := none }

/-- The completion of the command in flight (R54). `effect` gives, from the record, the state with the command's own results and
its pending overflow flag; a model fault found in it is the whole completion's. -/
def complete (s : State) (effect : Flight → Except Fault (State × Bool)) : Host.Outcome State Fault Refusal :=
  match s.flight with
  | none => .refused .engineIdle
  | some f =>
    match effect f with
    | .error e => .fault e
    | .ok (t, pend) => .next (finish pend t)

end Sys2Proof.Machine
end

