-- ==== Sys2Proof/Machine/Operands.lean ====
section
/-! DEFINITION. Operand assembly: the nine forms of R56, each from the latched registers, the response bit of R57, and check 5 of R52. -/

namespace Sys2Proof.Machine

open Sys2Proof

/-- Form AB, operand u = a[QL-1:0] (R56). -/
def opU (c : Config) (f : Flight) : Nat := field f.a.toNat 0 c.ql

/-- Form AB, operand v = b[QL-1:0] (R56). -/
def opV (c : Config) (f : Flight) : Nat := field f.b.toNat 0 c.ql

/-- Forms M and MR, the measurement word m = a[QL-1:0] (R56). -/
def opM (c : Config) (f : Flight) : Nat := field f.a.toNat 0 c.ql

/-- Forms M, MR and THR, the threshold T = thr (R56). -/
def opT (f : Flight) : Nat := f.thr.toNat

/-- Forms MR and IDXR, the response bit r = b[0] (R56). -/
def opR (f : Flight) : Bool := f.b.getLsbD 0

/-- Forms IDX, IDXR and IDXV, the label i = a[IS-1:0] (R56). -/
def opI (c : Config) (f : Flight) : Nat := field f.a.toNat 0 c.is

/-- Form TIDX, the table index e = a[TB-1:0] (R56). -/
def opE (c : Config) (f : Flight) : Nat := field f.a.toNat 0 c.tb

/-- What a sample adds to its counter: +1 for response 0, -1 for response 1 (R57). -/
def sampleDelta (r : Bool) : Int := if r then -1 else 1

/-- Check 5 of R52: the bits of A above the index are 0. -/
def indexOk (c : Config) (lim : IdxLimit) (a : Word) : Bool :=
  match lim with
  | .none => true
  | .label => field a.toNat c.is (64 - c.is) == 0
  | .batch => field a.toNat c.tb (64 - c.tb) == 0

end Sys2Proof.Machine
end

