-- ==== Sys2Proof/Machine/Flags.lean ====
section
/-! DEFINITION. The status flags and the packed words: STATUS (R22), ID (R24), the error codes (R103) and the decode-result layout (R73). -/

namespace Sys2Proof.Machine

open Sys2Proof

/-- The ECODE value of a latched error (R103). -/
def ErrCode.code : ErrCode → Nat
  | .illegalCmd => 1
  | .busy => 2
  | .noTable => 3
  | .badIndex => 4

/-- STATUS.BUSY: a command is in flight (R22, R30). -/
def State.busy (s : State) : Bool := s.flight.isSome

/-- STATUS.ERR: an error is latched (R22, R101). -/
def State.hasErr (s : State) : Bool := s.err.isSome

/-- STATUS.ECODE: the code of the latched error, 0 when ERR = 0 (R22, R103). -/
def State.ecode (s : State) : Nat :=
  match s.err with
  | none => 0
  | some e => e.code

/-- What STATUS reads as (R22). -/
def statusWord (s : State) : Word :=
  BitVec.ofNat 64
    (s.busy.toNat + 2 * s.hasErr.toNat + 4 * s.ovf.toNat + 8 * s.rej.toNat + 16 * s.tblv.toNat + 256 * s.ecode)

/-- The ID.DRULE field (R24). -/
def drulecode : DRule → Nat
  | .unanimity => 0
  | .strictMajority => 1
  | .refLiteral => 2

/-- The ID.TSCOPE field (R24). -/
def tscopeCode : TScope → Nat
  | .batch => 0
  | .word => 1

/-- ID.VERSION (R2, R24). -/
def version : Nat := 0x01

/-- What ID reads as (R24). -/
def idWord (c : Config) : Word :=
  BitVec.ofNat 64
    (c.ql + 2 ^ 8 * c.rf + 2 ^ 16 * c.tf + 2 ^ 24 * c.is + 2 ^ 32 * c.cw + 2 ^ 40 * drulecode c.drule
      + 2 ^ 42 * tscopeCode c.tscope + 2 ^ 56 * version)

/-- The verdict on a measurement word (R71): a label and the count of disagreeing blocks, or a reject and the count so far. -/
inductive Verdict where
  | accept (lab run : Nat)
  | reject (run : Nat)
  deriving DecidableEq, Repr

/-- The reject verdict, which STATUS.REJ and RES[63] show (R27, R73). -/
def Verdict.rej : Verdict → Bool
  | .accept _ _ => false
  | .reject _ => true

/-- The decode-result layout of R73: REJ at bit 63, DCNT at 47:32, LABEL at the bottom. -/
def packResult (rej : Bool) (dcnt lab : Nat) : Word :=
  (BitVec.ofNat 64 rej.toNat <<< 63) ||| (BitVec.ofNat 64 dcnt <<< 32) ||| BitVec.ofNat 64 lab

/-- `Accept(lab, run)` and `Reject(run)` as words (R73): on a reject the label field is 0. -/
def Verdict.word : Verdict → Word
  | .accept lab run => packResult false run lab
  | .reject run => packResult true run 0

end Sys2Proof.Machine
end

