-- ==== Sys2Proof/Machine/Port.lean ====
section
/-! DEFINITION. The register port: what each register reads as (R15), what a write of each does (R16 to R31, R106), and the issue of a
command by a CMD write (R52, R53). -/

namespace Sys2Proof.Machine

open Sys2Proof

/-- The position of a register in the window (R15). -/
def regIndex : Reg → Nat
  | .id => 0
  | .ctrl => 1
  | .status => 2
  | .cmd => 3
  | .a => 4
  | .b => 5
  | .res => 6
  | .discard => 7

/-- Offset o selects register o div 8 (R36). Well-formed accesses have offsets below 64 only. -/
def regAt (offset : Nat) : Reg :=
  match offset / 8 with
  | 0 => .id
  | 1 => .ctrl
  | 2 => .status
  | 3 => .cmd
  | 4 => .a
  | 5 => .b
  | 6 => .res
  | _ => .discard

/-- What a register reads as (R15): reserved bits read 0, CMD reads 0 (R26). -/
def readReg (r : Reg) (s : State) : Word :=
  match r with
  | .id => idWord s.cfg
  | .ctrl => s.thresh.setWidth 64
  | .status => statusWord s
  | .cmd => 0
  | .a => s.a
  | .b => s.b
  | .res => s.res
  | .discard => s.discard

/-- Accepting a command: BUSY and the in-flight record, and nothing else (R53). -/
def accept (op : BitVec 8) (s : State) : State :=
  { s with flight := some { op := op, a := s.a, b := s.b, thr := s.thresh } }

/-- A host write of w to CMD: the checks of R52 in their order, the first that applies deciding. -/
def issue (w : Word) (s : State) : State :=
  if s.hasErr then s
  else if s.busy then latchError .busy s
  else
    match decode w with
    | .error _ => latchError .illegalCmd s
    | .ok i =>
      if i.needsTable && !s.tblv then latchError .noTable s
      else if indexOk s.cfg i.idxLimit s.a then accept (opField w) s
      else latchError .badIndex s

/-- A host write of w to CTRL (R25): THRESH and an invalid table, or a BUSY error. -/
def writeCtrl (w : Word) (s : State) : State :=
  if s.busy then latchError .busy s else { s with thresh := w.setWidth 16, tblv := false }

/-- A host write of w to STATUS (R23): the write-1-to-clear bits 1 and 2. -/
def writeStatus (w : Word) (s : State) : State :=
  let s := if w.getLsbD 1 then clearError s else s
  if w.getLsbD 2 then { s with ovf := false } else s

/-- A host write of w to DISCARD (R31). -/
def writeDiscard (w : Word) (s : State) : State :=
  if s.busy then latchError .busy s else { s with discard := w }

/-- A host write of w to a register (R42): ID and RES ignore it (R15, R106). -/
def writeReg (r : Reg) (w : Word) (s : State) : State :=
  match r with
  | .id => s
  | .ctrl => writeCtrl w s
  | .status => writeStatus w s
  | .cmd => issue w s
  | .a => { s with a := w }
  | .b => { s with b := w }
  | .res => s
  | .discard => writeDiscard w s

end Sys2Proof.Machine
end

