-- ==== Sys2Proof/Machine/Bridge.lean ====
section
/-! DEFINITION. Host transactions: on the port, and over a bridge to a byte-addressed bus (R36, R40, R41), in normal running and while
`rst` is asserted (R118). -/

namespace Sys2Proof.Machine

open Sys2Proof

/-- The lowest bit of a register that byte k of its window holds (R40). -/
def byteLsb (e : Endian) (k : Nat) : Nat :=
  match e with
  | .little => 8 * k
  | .big => 56 - 8 * k

/-- The eight bytes of a register's window, at rising addresses (R40). -/
def toBytes (e : Endian) (w : Word) : List Byte := (List.range 8).map fun k => w.extractLsb' (byteLsb e k) 8

/-- The register value that eight bytes at rising addresses make (R40). -/
def ofBytes (e : Endian) (bs : List Byte) : Word :=
  (List.range 8).foldl (fun w k => w ||| ((bs.getD k 0).setWidth 64 <<< byteLsb e k)) 0

/-- The refusal of an ill-formed transaction (R41, R108(c); log 10). -/
def refusalOf (x : Access) : Refusal :=
  match x with
  | .read offset width => .badAccess offset width
  | .write offset width _ => .badAccess offset width
  | .busRead addr len => .badBusAccess addr len
  | .busWrite addr bytes => .badBusAccess addr bytes.length

/-- A well-formed transaction: a read only answers (R42), a write does what its register says. -/
def perform (x : Access) (s : State) : State :=
  match x with
  | .read offset _ => { s with reply := .word (readReg (regAt offset) s) }
  | .write offset _ w => { writeReg (regAt offset) w s with reply := .nothing }
  | .busRead addr _ => { s with reply := .bytes (toBytes s.cfg.endian (readReg (regAt (addr - lfcBase)) s)) }
  | .busWrite addr bytes =>
    { writeReg (regAt (addr - lfcBase)) (ofBytes s.cfg.endian bytes) s with reply := .nothing }

/-- One host transaction (R42), or its refusal (R41). -/
def hostAccess (x : Access) (s : State) : Host.Outcome State Fault Refusal :=
  if x.wf then .next (perform x s) else .refused (refusalOf x)

/-- What a transaction made while `rst` is asserted gives back: reads return 0 (R118). -/
def replyUnderReset (x : Access) : Reply :=
  match x with
  | .read _ _ => .word 0
  | .write _ _ _ => .nothing
  | .busRead _ _ => .bytes (List.replicate 8 0)
  | .busWrite _ _ => .nothing

/-- One clock edge with `rst` asserted: the reset action, and no effect of a transaction made then (R118). -/
def resetEdge (during : Option Access) (s : State) : Host.Outcome State Fault Refusal :=
  match during with
  | none => .next (resetBlock s)
  | some x => if x.wf then .next { resetBlock s with reply := replyUnderReset x } else .refused (refusalOf x)

end Sys2Proof.Machine
end

