-- ==== Sys2Proof/Machine/Fwht.lean ====
section
/-! DEFINITION. The in-place fast Walsh-Hadamard transform of HIST (R89 to R93). -/

namespace Sys2Proof.Machine

open Sys2Proof

/-- The body of the inner loop of R89 for pass i and index x: nothing where x[i] = 1; otherwise the butterfly of the pair
(x, x | 2^i): the sum to the index with bit i clear, the difference to the other (R90). -/
def butterfly (c : Config) (i x : Nat) (r : HistRun) : Except Fault HistRun :=
  if x.testBit i then .ok r
  else
    let y := x ||| (1 <<< i)
    match histRead c r.mem x, histRead c r.mem y with
    | .error e, _ => .error e
    | .ok _, .error e => .error e
    | .ok p, .ok q =>
      match storeWrapped c x (p + q) r with
      | .error e => .error e
      | .ok r' => storeWrapped c y (p - q) r'

/-- Pass i: every pair of indices that differ only in bit i (R90). -/
def fwhtPass (c : Config) (i : Nat) (r : HistRun) : Except Fault HistRun := forUp (butterfly c i) c.hsize 0 r

/-- The passes in ascending order, each complete before the next begins (R89, R91, R93). -/
def fwhtLoop (c : Config) (r : HistRun) : Except Fault HistRun := forUp (fwhtPass c) c.is 0 r

/-- FWHT: transform the whole of HIST in place (R89, R92). -/
def execFwht (s : State) : Host.Outcome State Fault Refusal :=
  complete s fun _ =>
    match fwhtLoop s.cfg ⟨s.hist, false⟩ with
    | .error e => .error e
    | .ok r => .ok ({ s with hist := r.mem }, r.pend)

end Sys2Proof.Machine
end

