-- ==== Sys2Proof/Machine/Decoder.lean ====
section
/-! DEFINITION. The covering-code decoder: the shared functions of R67 to R72 and TBLBUILD (R74), TBLRD (R75), DEC (R76), PROJ (R77),
PROJP (R78). -/

namespace Sys2Proof.Machine

open Sys2Proof

/-- The popcount of block b of a word, `m[b·RF+RF-1 : b·RF]`; of sub-block j of a batch value, `e[(j+1)·RF-1 : j·RF]` (R67). -/
def blockCount (c : Config) (m b : Nat) : Nat := popcount c.rf (field m (b * c.rf) c.rf)

/-- Batch k of a word, `m[(k+1)·TB-1 : k·TB]` (R67). -/
def batch (c : Config) (m k : Nat) : Nat := field m (k * c.tb) c.tb

/-- `maj(c)`: more than half of the block's bits; a tie gives 0 (R68). -/
def maj (c : Config) (n : Nat) : Bool := decide (c.rf / 2 < n)

/-- `dis(c)`: whether a block of popcount n counts as disagreeing, by DRULE (R69). -/
def dis (c : Config) (n : Nat) : Bool :=
  match c.drule with
  | .unanimity => decide (n ≠ 0 ∧ n ≠ c.rf)
  | .strictMajority => decide (2 * n = c.rf)
  | .refLiteral => decide (n = 2)

/-- `entry(e, T)`: the table entry of batch value e under threshold T (R70). -/
def entry (c : Config) (e T : Nat) : TableEntry :=
  let label := labelBits (fun j => maj c (blockCount c e j)) c.tf
  let dcnt := countBits (fun j => dis c (blockCount c e j)) c.tf
  { label := label, dcnt := dcnt, rej := decide (T < dcnt) }

/-- The entries of `count` batch values from `start` on (R74). -/
def tableFrom (c : Config) (T : Nat) : (count start : Nat) → List TableEntry
  | 0, _ => []
  | n + 1, e => entry c e T :: tableFrom c T n (e + 1)

/-- The whole TABLE under threshold T: entry(e, T) for e in 0 .. 2^TB - 1 (R74). -/
def buildTable (c : Config) (T : Nat) : List TableEntry := tableFrom c T c.tsize 0

/-- Whether the batch just read ends the walk with a reject: its own flag under BATCH, the running count under WORD (R71). -/
def triggers (c : Config) (T : Nat) (t : TableEntry) (run : Nat) : Bool :=
  match c.tscope with
  | .batch => t.rej
  | .word => decide (T < run)

/-- The loop of `tableDecode` from batch k on, with the running count and the label so far (R71). -/
def decodeWalk (c : Config) (table : List TableEntry) (m T : Nat) : (left k run lab : Nat) → Except Fault Verdict
  | 0, _, run, lab => .ok (.accept lab run)
  | n + 1, k, run, lab =>
    match tabRead table (batch c m k) with
    | .error f => .error f
    | .ok t =>
      if triggers c T t (run + t.dcnt) then .ok (.reject (run + t.dcnt))
      else decodeWalk c table m T n (k + 1) (run + t.dcnt) (lab ||| (t.label <<< (k * c.tf)))

/-- `tableDecode(m, T)`: batches in ascending order, stopping at the first that triggers a reject (R71). -/
def tableDecode (c : Config) (table : List TableEntry) (m T : Nat) : Except Fault Verdict :=
  decodeWalk c table m T c.nb 0 0 0

/-- The loop of PROJ: as `decodeWalk`, with the reject flags ignored (R77). -/
def projWalk (c : Config) (table : List TableEntry) (m : Nat) : (left k run lab : Nat) → Except Fault Verdict
  | 0, _, run, lab => .ok (.accept lab run)
  | n + 1, k, run, lab =>
    match tabRead table (batch c m k) with
    | .error f => .error f
    | .ok t => projWalk c table m n (k + 1) (run + t.dcnt) (lab ||| (t.label <<< (k * c.tf)))

/-- The majority label of a word, block by block (R72). -/
def directLabel (c : Config) (m : Nat) : Nat := labelBits (fun b => maj c (blockCount c m b)) c.is

/-- The number of disagreeing blocks of a word (R72). -/
def directCount (c : Config) (m : Nat) : Nat := countBits (fun b => dis c (blockCount c m b)) c.is

/-- `dk`: the number of disagreeing blocks of batch k (R72). -/
def batchCount (c : Config) (m k : Nat) : Nat := countBits (fun j => dis c (blockCount c m (k * c.tf + j))) c.tf

/-- Whether `direct(m, T)` rejects (R72). -/
def directRejects (c : Config) (m T : Nat) : Bool :=
  match c.tscope with
  | .batch => (List.range c.nb).any fun k => decide (T < batchCount c m k)
  | .word => decide (T < directCount c m)

/-- `direct(m, T)`: the bit-by-bit reference function that the table method is held to; not a command (R72). -/
def direct (c : Config) (m T : Nat) : Option (Nat × Nat) :=
  if directRejects c m T then none else some (directLabel c m, directCount c m)

/-- The parity label of a word (R78). -/
def parityLabel (c : Config) (m : Nat) : Nat :=
  labelBits (fun b => parity c.rf (field m (b * c.rf) c.rf) == 1) c.is

/-- TBLBUILD: rebuild TABLE under the latched threshold and set TBLV (R74). -/
def execTblbuild (s : State) : Host.Outcome State Fault Refusal :=
  complete s fun f => .ok ({ s with table := buildTable s.cfg (opT f), tblv := true }, false)

/-- TBLRD: RES shows one entry as it stands; the label is not zeroed on a reject (R75). -/
def execTblrd (s : State) : Host.Outcome State Fault Refusal :=
  complete s fun f =>
    match tabRead s.table (opE s.cfg f) with
    | .error e => .error e
    | .ok t => .ok ({ s with res := packResult t.rej t.dcnt t.label }, false)

/-- DEC: decode a measurement word into RES and REJ (R76). -/
def execDec (s : State) : Host.Outcome State Fault Refusal :=
  complete s fun f =>
    match tableDecode s.cfg s.table (opM s.cfg f) (opT f) with
    | .error e => .error e
    | .ok v => .ok ({ s with res := v.word, rej := v.rej }, false)

/-- PROJ: majority projection, with no threshold; REJ is unchanged (R77). -/
def execProj (s : State) : Host.Outcome State Fault Refusal :=
  complete s fun f =>
    match projWalk s.cfg s.table (opM s.cfg f) s.cfg.nb 0 0 0 with
    | .error e => .error e
    | .ok v => .ok ({ s with res := v.word }, false)

/-- PROJP: parity projection, with no table (R78). -/
def execProjp (s : State) : Host.Outcome State Fault Refusal :=
  complete s fun f => .ok ({ s with res := BitVec.ofNat 64 (parityLabel s.cfg (opM s.cfg f)) }, false)

end Sys2Proof.Machine
end

