-- ==== Sys2Proof/Machine/Histogram.lean ====
section
/-! DEFINITION. The signed histogram: HCLR (R82), HACC (R83), HWR (R84), HRD (R85), SAMP (R86). -/

namespace Sys2Proof.Machine

open Sys2Proof

/-- `v <- HistRead(i); HistWrite(i, wrap_CW(v + d))`: the read-modify-write of R83 and R86. -/
def accumulate (c : Config) (m : Memory) (i : Nat) (d : Int) : Except Fault HistRun :=
  match histRead c m i with
  | .error e => .error e
  | .ok v => storeWrapped c i (v + d) ⟨m, false⟩

/-- `w`: the low CW bits of B as a CW-bit two's-complement number (R84). -/
def hwrValue (c : Config) (b : Word) : Int := (b.setWidth c.cw).toInt

/-- Whether B does not fit in CW signed bits: `sext_64(w) ≠ b` (R84). -/
def hwrOverflows (c : Config) (b : Word) : Bool := decide ((b.setWidth c.cw).signExtend 64 ≠ b)

/-- HCLR: every counter becomes 0, and is written from then on (R82, R38). -/
def execHclr (s : State) : Host.Outcome State Fault Refusal :=
  complete s fun _ => .ok ({ s with hist := Memory.cleared }, false)

/-- HACC: add one signed sample to a counter (R83). -/
def execHacc (s : State) : Host.Outcome State Fault Refusal :=
  complete s fun f =>
    match accumulate s.cfg s.hist (opI s.cfg f) (sampleDelta (opR f)) with
    | .error e => .error e
    | .ok r => .ok ({ s with hist := r.mem }, r.pend)

/-- HWR: write a counter; a value that does not fit is cut to CW bits and sets the pending overflow flag (R84). -/
def execHwr (s : State) : Host.Outcome State Fault Refusal :=
  complete s fun f =>
    if opI s.cfg f < s.cfg.hsize then
      .ok ({ s with hist := s.hist.write s.cfg.hsize (opI s.cfg f) (hwrValue s.cfg f.b) }, hwrOverflows s.cfg f.b)
    else .error (.counterOutOfRange (opI s.cfg f))

/-- HRD: RES is the counter, sign-extended (R85). -/
def execHrd (s : State) : Host.Outcome State Fault Refusal :=
  complete s fun f =>
    match histRead s.cfg s.hist (opI s.cfg f) with
    | .error e => .error e
    | .ok v => .ok ({ s with res := BitVec.ofInt 64 v }, false)

/-- SAMP: decode one measurement; count a reject in DISCARD, or accumulate an accepted label (R86). -/
def execSamp (s : State) : Host.Outcome State Fault Refusal :=
  complete s fun f =>
    match tableDecode s.cfg s.table (opM s.cfg f) (opT f) with
    | .error e => .error e
    | .ok (.reject run) =>
      .ok ({ s with discard := s.discard + 1, res := (Verdict.reject run).word, rej := true }, false)
    | .ok (.accept lab run) =>
      match accumulate s.cfg s.hist lab (sampleDelta (opR f)) with
      | .error e => .error e
      | .ok r => .ok ({ s with hist := r.mem, res := (Verdict.accept lab run).word, rej := false }, r.pend)

end Sys2Proof.Machine
end

