-- ==== Sys2Proof/Machine/Parity.lean ====
section
/-! DEFINITION. The null command and the GF(2) parity unit: NOP (R63), PAR (R64), POPC (R65). -/

namespace Sys2Proof.Machine

open Sys2Proof

/-- The word PAR gives for operand registers a and b (R64). -/
def parWord (c : Config) (f : Flight) : Word := BitVec.ofNat 64 (parity c.ql (opU c f &&& opV c f))

/-- The word POPC gives for operand registers a and b (R65). -/
def popcWord (c : Config) (f : Flight) : Word := BitVec.ofNat 64 (popcount c.ql (opU c f &&& opV c f))

/-- NOP: no operation; it only completes (R63). -/
def execNop (s : State) : Host.Outcome State Fault Refusal :=
  complete s fun _ => .ok (s, false)

/-- PAR: RES is the GF(2) inner product of the QL-bit operands (R64). -/
def execPar (s : State) : Host.Outcome State Fault Refusal :=
  complete s fun f => .ok ({ s with res := parWord s.cfg f }, false)

/-- POPC: RES is the population count of the AND of the QL-bit operands (R65). -/
def execPopc (s : State) : Host.Outcome State Fault Refusal :=
  complete s fun f => .ok ({ s with res := popcWord s.cfg f }, false)

end Sys2Proof.Machine
end

