-- ==== Sys2Proof/Machine/Dispatch.lean ====
section
/-! DEFINITION. One arm per command: the completion of the command in flight (R54). -/

namespace Sys2Proof.Machine

open Sys2Proof

def exec (i : Instr) (s : State) : Host.Outcome State Fault Refusal :=
  match i with
  | .nop => Sys2Proof.Machine.execNop s
  | .par => Sys2Proof.Machine.execPar s
  | .popc => Sys2Proof.Machine.execPopc s
  | .tblbuild => Sys2Proof.Machine.execTblbuild s
  | .tblrd => Sys2Proof.Machine.execTblrd s
  | .dec => Sys2Proof.Machine.execDec s
  | .proj => Sys2Proof.Machine.execProj s
  | .projp => Sys2Proof.Machine.execProjp s
  | .hclr => Sys2Proof.Machine.execHclr s
  | .hacc => Sys2Proof.Machine.execHacc s
  | .hwr => Sys2Proof.Machine.execHwr s
  | .hrd => Sys2Proof.Machine.execHrd s
  | .samp => Sys2Proof.Machine.execSamp s
  | .fwht => Sys2Proof.Machine.execFwht s

end Sys2Proof.Machine
end

