-- ==== Sys2Proof/Machine/Engine.lean ====
section
/-! DEFINITION. The moves of the agents: the engine's turn (R13, R54), the events of the total order (R45), and how a command word is
placed so that the next step runs it (log 14). -/

namespace Sys2Proof.Machine

open Sys2Proof

/-- The engine's turn: it completes the command in flight; it has no step while none is (R13, R54). -/
def engineTurn (s : State) : Host.Outcome State Fault Refusal :=
  match s.flight with
  | none => .next s
  | some f =>
    match decodeOp f.op with
    | some i => exec i s
    | none => .refused (.notACommand f.op)

/-- One event of the total order (R45), or one reset edge (R118). -/
def runEvent (e : Event) (s : State) : Host.Outcome State Fault Refusal :=
  match e with
  | .engine => engineTurn s
  | .host x => hostAccess x s
  | .rst during => resetEdge during s

/-- The state with a command word about to run (log 14). A legal word is in flight, its operands latched, and the engine moves
next; a command that reads TABLE has one built under the current THRESH, without which the block would not have taken it (R52).
An illegal word is the host's next CMD write. -/
def placeCommand (w : Word) (s : State) : State :=
  match decode w with
  | .error _ => { s with inputs := .host (.write 0x18 64 w) :: s.inputs }
  | .ok i =>
    let t := accept (opField w) { s with inputs := .engine :: s.inputs }
    if i.needsTable && !s.tblv then { t with table := buildTable s.cfg s.thresh.toNat, tblv := true } else t

end Sys2Proof.Machine
end

