-- ==== Sys2Proof/Machine/Step.lean ====
section
/-! DEFINITION. One step of the machine: the next event of the total order (R45); when no event is listed, the engine's turn. -/

namespace Sys2Proof.Machine

open Sys2Proof

/-- One step. A state with STATUS.OVF = 1 is a model fault and has no successor (R108(a), U3). Otherwise the agent that `inputs` names
moves; with none named the engine completes what is in flight (R55), or the idle block keeps its state (R117). -/
def step (s : State) : Host.Outcome State Fault Refusal :=
  match modelFaultOf s with
  | some f => .fault f
  | none =>
    match s.inputs with
    | [] => engineTurn s
    | e :: rest => runEvent e { s with inputs := rest }

/-- A command word placed where the next step runs it (log 14). A command word has 64 bits (R60). -/
def State.withFetchWord (s : State) (nbits w : Nat) : State := placeCommand (BitVec.ofNat 64 (w % 2 ^ nbits)) s

end Sys2Proof.Machine
end

