-- ==== Sys2Proof/Machine/Script.lean ====
section
/-! DEFINITION. The host script notation of R61 and the boot script of R121, as the events they put into the total order (log 15). -/

namespace Sys2Proof.Machine

open Sys2Proof

/-- One line of a host script (R61). `polls` is how many STATUS reads of a `wait` see BUSY = 1 before the engine completes:
the latency, which the spec leaves open (R55). -/
inductive ScriptLine where
  | wr (r : Reg) (v : Word)
  | rd (r : Reg)
  | cmd (i : Instr)
  | wait (polls : Nat)
  | run (i : Instr) (polls : Nat)
  | chk
  | clr
  | thr (n : Word)
  | hset (i v : Word) (polls : Nat)
  | hget (i : Word) (polls : Nat)
  deriving DecidableEq, Repr

/-- `wr REG, v`: one register-port write (R61). -/
def evWr (r : Reg) (v : Word) : Event := .host (.write (8 * regIndex r) 64 v)

/-- `rd REG`: one register-port read (R61). -/
def evRd (r : Reg) : Event := .host (.read (8 * regIndex r) 64)

/-- `wait`: STATUS reads, the engine's completion among them, and the read that sees BUSY = 0 (R61). -/
def evWait (polls : Nat) : List Event := List.replicate polls (evRd .status) ++ [.engine, evRd .status]

/-- `run MNEMONIC`: the CMD write, then `wait` (R61). -/
def evRun (i : Instr) (polls : Nat) : List Event := evWr .cmd (encode i) :: evWait polls

/-- The expansion column of R61. -/
def expand : ScriptLine → List Event
  | .wr r v => [evWr r v]
  | .rd r => [evRd r]
  | .cmd i => [evWr .cmd (encode i)]
  | .wait polls => evWait polls
  | .run i polls => evRun i polls
  | .chk => [evRd .status]
  | .clr => [evWr .status 0x6]
  | .thr n => [evWr .ctrl n]
  | .hset i v polls => evWr .a i :: evWr .b v :: evRun .hwr polls
  | .hget i polls => evWr .a i :: evRun .hrd polls ++ [evRd .res]

/-- `chk` goes on only if the STATUS value read has ERR = 0 and OVF = 0 (R61). -/
def chkPasses (w : Word) : Bool := !w.getLsbD 1 && !w.getLsbD 2

/-- The boot script for a threshold (R121). -/
def bootScript (thr : Word) (polls : Nat) : List ScriptLine :=
  [.rd .id, .thr thr, .run .tblbuild polls, .run .hclr polls, .wr .discard 0, .chk]

/-- The state in which the host is about to put a script. -/
def State.withScript (s : State) (lines : List ScriptLine) : State :=
  { s with inputs := s.inputs ++ lines.flatMap expand }

end Sys2Proof.Machine
end

