-- ==== Sys2Proof/Safety.lean ====
section
/-! DEFINITION. What counts as a safe run (R12, R108), the invariant of the machine that every step keeps, and the
words the claims use. -/

namespace Sys2Proof

open Sys2Proof.Machine

/-- A model-fault state: a state that refutes any claim (R108(a)). -/
def ModelFault (s : State) : Prop := s.ovf = true

/-- A run of k steps that meets no model fault and no refusal, and does not end in a model-fault state (R108). -/
def SafeRun (k : Nat) (s : State) : Prop := ∃ t, core.run k s = .next t ∧ ¬ ModelFault t

/-- The record in flight is one the block may have accepted, and THRESH cannot have changed since (R52, R53, R106). -/
structure FlightOk (s : State) (f : Flight) : Prop where
  thr : f.thr = s.thresh
  known : ∃ i, decodeOp f.op = some i ∧ (i.needsTable = true → s.tblv = true) ∧ indexOk s.cfg i.idxLimit f.a = true

/-- The invariant: HIST keeps its canonical form, TBLV = 1 means that TABLE is the one built with the current THRESH (R22), and the
in-flight record is one that was accepted. -/
structure Inv (s : State) : Prop where
  hist : s.hist.wf s.cfg
  table : s.tblv = true → s.table = buildTable s.cfg s.thresh.toNat
  flight : ∀ f, s.flight = some f → FlightOk s f

/-! ### Words the claims use -/

/-- `exec i` at `s` answers the state `t`. -/
abbrev Completes (i : Instr) (s t : State) : Prop := exec i s = .next t

/-- The block is idle with no error latched: checks 1 and 2 of R52 let a CMD write through. -/
def Idle (s : State) : Prop := s.err = none ∧ s.flight = none

/-- What a host write of the command word w to CMD does (R52, R53): nothing while ERR = 1; a BUSY error while a command is in flight;
otherwise the error that `check` names, or acceptance. -/
def IssuedAs (w : Word) (check : State → Option ErrCode) : Prop :=
  ∀ s : State,
    (s.err ≠ none → writeReg .cmd w s = s) ∧
    (s.err = none → s.flight ≠ none → writeReg .cmd w s = { s with err := some .busy }) ∧
    (Idle s → writeReg .cmd w s =
      match check s with
      | some e => { s with err := some e }
      | none => { s with flight := some { op := w.extractLsb' 0 8, a := s.a, b := s.b, thr := s.thresh } })

/-- No check beyond the first three of R52 applies. -/
def noCheck (_ : State) : Option ErrCode := none

/-- Check 4 of R52 applies. -/
def tableCheck (s : State) : Option ErrCode := if s.tblv then none else some .noTable

/-- Check 5 of R52 applies, for a label index. -/
def labelCheck (s : State) : Option ErrCode := if s.a.toNat < 2 ^ s.cfg.is then none else some .badIndex

/-- Checks 4 and 5 of R52 apply, for a table index. -/
def entryCheck (s : State) : Option ErrCode :=
  if s.tblv then (if s.a.toNat < 2 ^ s.cfg.tb then none else some .badIndex) else some .noTable

/-- TABLE is valid and holds what TBLBUILD builds under the current THRESH: what STATUS.TBLV = 1 says (R22). -/
def TableReady (s : State) : Prop := s.tblv = true ∧ s.table = buildTable s.cfg s.thresh.toNat

/-- Every counter has been written since reset (R38). -/
def AllWritten (c : Config) (m : Memory) : Prop := ∀ i, i < c.hsize → m.read i ≠ none

/-- The value of a counter, for use where every counter is written. -/
def counter (m : Memory) (i : Nat) : Int := (m.read i).getD 0

/-- A value that does not fit in CW signed bits (R81). -/
def Wraps (c : Config) (n : Int) : Prop := n < -(2 ^ (c.cw - 1)) ∨ 2 ^ (c.cw - 1) ≤ n

/-- The Walsh-Hadamard sum at index x over the counters of m: the source's contract (R94). -/
def whtSum (c : Config) (m : Memory) (x : Nat) : Int :=
  ∑ y ∈ Finset.range c.hsize, counter m y * (-1) ^ popcount c.is (x &&& y)

/-- The sum of the magnitudes of the counters (R95). -/
def absSum (c : Config) (m : Memory) : Int := ∑ y ∈ Finset.range c.hsize, |counter m y|

/-- The number of disagreeing blocks in batches 0 to k, as the entries of a table give them: `run` of R71 after batch k. -/
def runUpTo (c : Config) (m k : Nat) : Nat :=
  ((List.range (k + 1)).map fun j => (entry c (batch c m j) 0).dcnt).sum

/-- Batch k triggers a reject under threshold T (R71): its own entry under BATCH, the running count under WORD. -/
def Triggers (c : Config) (m T k : Nat) : Prop :=
  match c.tscope with
  | .batch => T < (entry c (batch c m k) T).dcnt
  | .word => T < runUpTo c m k

/-- The passes of FWHT in the order a list gives (R99). -/
def runPasses (c : Config) : List Nat → HistRun → Except Fault HistRun
  | [], r => .ok r
  | i :: rest, r =>
    match fwhtPass c i r with
    | .error e => .error e
    | .ok r' => runPasses c rest r'

/-- One sample command with the operands A and B it is issued with (R87). -/
structure Sample where
  /-- SAMP when true, HACC when false. -/
  decoded : Bool
  a : Word
  b : Word

/-- The command of a sample. -/
def Sample.instr (x : Sample) : Instr := if x.decoded then .samp else .hacc

/-- The state with a sample's command in flight, as its acceptance leaves it (R53). -/
def Sample.accepted (x : Sample) (s : State) : State :=
  { s with flight := some { op := x.instr.opcode, a := x.a, b := x.b, thr := s.thresh } }

/-- The samples of a list, each accepted and completed in turn. -/
def runSamples : List Sample → State → Host.Outcome State Fault Refusal
  | [], s => .next s
  | x :: rest, s =>
    match exec x.instr (x.accepted s) with
    | .next t => runSamples rest t
    | .fault e => .fault e
    | .refused e => .refused e

/-- The samples of a list that TABLE accepts with label x and response r, by the direct method (R88). -/
def acceptedWith (c : Config) (T x : Nat) (r : Bool) (l : List Sample) : Nat :=
  l.countP fun y =>
    (direct c (field y.a.toNat 0 c.ql) T).map Prod.fst == some x && (y.b.getLsbD 0 == r)

/-- The samples of a list that the direct method rejects (R88). -/
def rejectedOf (c : Config) (T : Nat) (l : List Sample) : Nat :=
  l.countP fun y => (direct c (field y.a.toNat 0 c.ql) T).isNone

end Sys2Proof
end

