-- ==== Sys2Proof/Certificates/Slice0/Obligations.lean ====
section
/-! DEFINITION. What is claimed of the machine, from the numbered rules of the spec. Every claim ranges over every legal build. -/

open Sys2Proof Sys2Proof.Machine

/-! ### Reset, the invariant, and the step -/

/-- What the state after reset holds (R118, R119), in every build. That State.reset is that of the reference build is the model's
choice (log 1). TABLE's emptiness is the model's too (log 5) and is not claimed. -/
def Obligations.ResetStateHoldsTheSpecsValues : Prop :=
  State.reset = State.resetOf Config.reference ∧
  ∀ c : Config, let s := State.resetOf c
    s.cfg = c ∧ s.thresh = 0 ∧ statusWord s = 0 ∧ s.err = none ∧ s.ovf = false ∧ s.rej = false ∧ s.tblv = false ∧
    s.a = 0 ∧ s.b = 0 ∧ s.res = 0 ∧ s.discard = 0 ∧ s.flight = none ∧ (∀ i, s.hist.read i = none)

/-- R118: one clock edge with `rst` asserted, from any state that is no model fault and whatever is in flight: the command in flight is
gone with no error, every register holds its reset value, and a transaction made then reads 0 and does nothing. -/
def Obligations.ResetEdgeResetsTheBlock : Prop :=
  ∀ (s : State) (d : Option Access) (rest : List Event),
    s.ovf = false → s.inputs = .rst d :: rest → (∀ x, d = some x → x.wf = true) →
    ∃ t, step s = .next t ∧
      t.cfg = s.cfg ∧ readReg .id t = readReg .id s ∧ readReg .ctrl t = 0 ∧ readReg .status t = 0 ∧
      t.a = 0 ∧ t.b = 0 ∧ t.res = 0 ∧ t.discard = 0 ∧ t.flight = none ∧ t.err = none ∧
      t.ovf = false ∧ t.rej = false ∧ t.tblv = false ∧
      (∀ i, t.hist.read i = none) ∧
      (∀ o w, d = some (.read o w) → t.reply = .word 0) ∧
      (∀ a n, d = some (.busRead a n) → t.reply = .bytes (List.replicate 8 0))

/-- The invariant holds at reset, whatever the build and whatever the host is going to do. -/
def Obligations.InvariantHoldsAtReset : Prop :=
  ∀ (c : Config) (es : List Event), Inv { State.resetOf c with inputs := es }

/-- Every step keeps the invariant: HIST stays canonical with CW-bit counters, TBLV = 1 means that TABLE is the one built with the
current THRESH (R22, R29), and what is in flight is what was accepted (R52, R53). -/
def Obligations.EveryStepKeepsTheInvariant : Prop :=
  ∀ s t : State, Inv s → step s = .next t → Inv t

/-- A step at the engine's turn runs the decoded command in flight; with none in flight it changes nothing (R13, R54, R117). -/
def Obligations.StepRunsTheCommandInFlight : Prop :=
  ∀ (s : State) (rest : List Event), s.ovf = false →
    (∀ f i, s.inputs = .engine :: rest → s.flight = some f → decodeOp f.op = some i →
      step s = exec i { s with inputs := rest }) ∧
    (∀ f i, s.inputs = [] → s.flight = some f → decodeOp f.op = some i → step s = exec i s) ∧
    (s.inputs = .engine :: rest → s.flight = none → step s = .next { s with inputs := rest }) ∧
    (s.inputs = [] → s.flight = none → step s = .next s)

/-- A step at a host transaction performs it, or refuses one that is not an aligned 64-bit access (R41, R108(c)) of the window; that
an offset outside the window is refused too is the model's choice (log 10). -/
def Obligations.StepPerformsHostTransactions : Prop :=
  ∀ (s : State) (rest : List Event), s.ovf = false →
    (∀ o w, s.inputs = .host (.read o w) :: rest →
      (o % 8 = 0 → o < 64 → w = 64 →
        step s = .next { s with inputs := rest, reply := .word (readReg (regAt o) s) }) ∧
      (o % 8 ≠ 0 ∨ 64 ≤ o ∨ w ≠ 64 → step s = .refused (.badAccess o w))) ∧
    (∀ o w v, s.inputs = .host (.write o w v) :: rest →
      (o % 8 = 0 → o < 64 → w = 64 →
        step s = .next { writeReg (regAt o) v { s with inputs := rest } with reply := .nothing }) ∧
      (o % 8 ≠ 0 ∨ 64 ≤ o ∨ w ≠ 64 → step s = .refused (.badAccess o w)))

/-- R28 and R108(a): a state with STATUS.OVF = 1 is a model fault; no step leaves it, whatever comes next. -/
def Obligations.OverflowStateHasNoSuccessor : Prop :=
  ∀ s : State, (ModelFault s → step s = .fault .counterOverflow) ∧
    (step s = .fault .counterOverflow → ModelFault s)

/-- R14: no step changes the build parameters. -/
def Obligations.NoStepChangesTheBuild : Prop :=
  ∀ s t : State, step s = .next t → t.cfg = s.cfg

/-! ### The command word -/

/-- Every command is well formed, its word decodes to it, and a word that decodes is the word of the command it decodes to:
the whole 64-bit word must match (R51, R58, R60). -/
def Obligations.DecodeAndEncodeAgree : Prop :=
  (∀ i : Instr, i.wf = true ∧ decode (encode i) = .ok i ∧ decodeTableWord 64 (encode i).toNat = some i) ∧
  (∀ (w : Word) (i : Instr), decode w = .ok i → w = encode i) ∧
  (∀ i : Instr, decodeOp i.opcode = some i ∧ opField (encode i) = i.opcode ∧ rsvField (encode i) = 0)

/-- R59: which words are illegal, that none is executed, and what an illegal word does when ERR = 0 and BUSY = 0. -/
def Obligations.IllegalWordsAreNeverExecuted : Prop :=
  ∀ w : Word,
    ((∃ e, decode w = .error e) ↔
      (2 ^ 8 ≤ w.toNat ∨
        (let op := w.toNat % 2 ^ 8
         (0x03 ≤ op ∧ op ≤ 0x0F) ∨ (0x15 ≤ op ∧ op ≤ 0x1F) ∨ (0x25 ≤ op ∧ op ≤ 0x2F) ∨ (0x31 ≤ op ∧ op ≤ 0xFF)))) ∧
    ∀ (e : Illegal) (s : State), decode w = .error e →
      (issue w s).flight = s.flight ∧ (Idle s → issue w s = { s with err := some .illegalCmd })

/-- Words written out from the opcode table of R58, and two illegal ones of the test vectors E5 and E6. -/
def Obligations.SampleWordsDecode : Prop :=
  decode 0x0000000000000000#64 = .ok .nop ∧ decode 0x0000000000000001#64 = .ok .par ∧
  decode 0x0000000000000011#64 = .ok .tblrd ∧ decode 0x0000000000000014#64 = .ok .projp ∧
  decode 0x0000000000000024#64 = .ok .samp ∧ decode 0x0000000000000030#64 = .ok .fwht ∧
  decode 0x0000000000000003#64 = .error .unknownOp ∧ decode 0x0000000000000101#64 = .error .reservedBits

/-! ### The register port -/

/-- R15, R26, R36, R42: what each offset reads as, and that a read changes nothing but the answer to the host. -/
def Obligations.RegisterReads : Prop :=
  ∀ s : State,
    (readReg (regAt 0x00) s = idWord s.cfg ∧ readReg (regAt 0x08) s = s.thresh.setWidth 64 ∧
      readReg (regAt 0x10) s = statusWord s ∧ readReg (regAt 0x18) s = 0 ∧ readReg (regAt 0x20) s = s.a ∧
      readReg (regAt 0x28) s = s.b ∧ readReg (regAt 0x30) s = s.res ∧ readReg (regAt 0x38) s = s.discard) ∧
    (∀ o, perform (.read o 64) s = { s with reply := .word (readReg (regAt o) s) }) ∧
    (∀ r : Reg, regAt (8 * regIndex r) = r)

/-- R22: the fields of STATUS; ECODE's values are those of R103, and the reserved bits read 0. -/
def Obligations.StatusWordLayout : Prop :=
  ∀ s : State, let w := statusWord s
    w.getLsbD 0 = s.flight.isSome ∧ w.getLsbD 1 = s.err.isSome ∧ w.getLsbD 2 = s.ovf ∧ w.getLsbD 3 = s.rej ∧
    w.getLsbD 4 = s.tblv ∧ w.extractLsb' 5 3 = 0 ∧ w.extractLsb' 12 52 = 0 ∧
    (s.err = none → w.extractLsb' 8 4 = 0) ∧ (s.err = some .illegalCmd → w.extractLsb' 8 4 = 1) ∧
    (s.err = some .busy → w.extractLsb' 8 4 = 2) ∧ (s.err = some .noTable → w.extractLsb' 8 4 = 3) ∧
    (s.err = some .badIndex → w.extractLsb' 8 4 = 4)

/-- R24: the fields of ID, in every build; the three constants; and no host write or command changes it. -/
def Obligations.IdWordLayout : Prop :=
  (∀ c : Config, let w := idWord c
    w.extractLsb' 0 8 = BitVec.ofNat 8 c.ql ∧ w.extractLsb' 8 8 = BitVec.ofNat 8 c.rf ∧
    w.extractLsb' 16 8 = BitVec.ofNat 8 c.tf ∧ w.extractLsb' 24 8 = BitVec.ofNat 8 c.is ∧
    w.extractLsb' 32 8 = BitVec.ofNat 8 c.cw ∧
    w.extractLsb' 40 2 = (match c.drule with | .unanimity => 0 | .strictMajority => 1 | .refLiteral => 2) ∧
    w.extractLsb' 42 1 = (match c.tscope with | .batch => 0 | .word => 1) ∧
    w.extractLsb' 43 13 = 0 ∧ w.extractLsb' 56 8 = 0x01) ∧
  idWord Config.reference = 0x010000201404033C#64 ∧ idWord Config.cfgS = 0x010000100402030C#64 ∧
  idWord Config.cfgT = 0x0100001002010306#64 ∧
  (∀ (r : Reg) (v : Word) (s : State), readReg .id (writeReg r v s) = readReg .id s) ∧
  (∀ (i : Instr) (s t : State), Completes i s t → readReg .id t = readReg .id s)

/-- R52: the checks of a CMD write in their order; the first that applies decides. -/
def Obligations.CmdWriteChecksInOrder : Prop :=
  ∀ (w : Word) (s : State),
    (s.err ≠ none → writeReg .cmd w s = s) ∧
    (s.err = none → s.flight ≠ none → writeReg .cmd w s = { s with err := some .busy }) ∧
    (Idle s → (∀ i, decode w ≠ .ok i) → writeReg .cmd w s = { s with err := some .illegalCmd }) ∧
    (∀ i, Idle s → decode w = .ok i →
      (i ∈ [Instr.tblrd, .dec, .proj, .samp] → s.tblv = false →
        writeReg .cmd w s = { s with err := some .noTable }) ∧
      (i ∈ [Instr.hacc, .hwr, .hrd] → 2 ^ s.cfg.is ≤ s.a.toNat →
        writeReg .cmd w s = { s with err := some .badIndex }) ∧
      (i = .tblrd → s.tblv = true → 2 ^ s.cfg.tb ≤ s.a.toNat →
        writeReg .cmd w s = { s with err := some .badIndex }) ∧
      ((i ∈ [Instr.tblrd, .dec, .proj, .samp] → s.tblv = true) →
        (i ∈ [Instr.hacc, .hwr, .hrd] → s.a.toNat < 2 ^ s.cfg.is) →
        (i = .tblrd → s.a.toNat < 2 ^ s.cfg.tb) →
        writeReg .cmd w s =
          { s with flight := some { op := w.extractLsb' 0 8, a := s.a, b := s.b, thr := s.thresh } }))

/-- R53: acceptance sets BUSY and fills the record from OP, A, B and THRESH; nothing else changes; and while a command is in
flight no CMD write puts another there. -/
def Obligations.AcceptanceFillsTheRecord : Prop :=
  (∀ (w : Word) (s : State), s.flight = none → (issue w s).flight ≠ none →
    issue w s = { s with flight := some { op := opField w, a := s.a, b := s.b, thr := s.thresh } } ∧
    (statusWord (issue w s)).getLsbD 0 = true) ∧
  (∀ (w : Word) (s : State) (f : Flight), s.flight = some f →
    (issue w s).flight = some f ∧ (s.err = none → (issue w s).err = some .busy))

/-- R105: a CMD write that fails a check changes only ERR and ECODE; one ignored because ERR = 1 changes nothing. -/
def Obligations.FailedCmdWriteChangesOnlyTheError : Prop :=
  ∀ (w : Word) (s : State),
    (∀ e, s.err = some e → issue w s = s) ∧
    (s.err = none → (issue w s).flight = s.flight →
      ∃ e, issue w s = { s with err := some e } ∧
        (e = .busy ↔ s.flight ≠ none))

/-- R101 and R102: latchError records the first error since the last clear and does nothing while one is latched; only a STATUS write
with bit 1 set, or a reset, takes a latched code away; no other write and no completion touches it; and a write that latches one
changes nothing else. -/
def Obligations.FirstErrorIsKept : Prop :=
  (∀ (s : State) (c d : ErrCode),
    (s.err = none → latchError c s = { s with err := some c }) ∧ (s.err ≠ none → latchError c s = s) ∧
    latchError d (latchError c s) = latchError c s ∧ clearError (latchError c s) = clearError s) ∧
  (∀ (r : Reg) (v : Word) (s : State) (e : ErrCode), s.err = some e →
    (writeReg r v s).err = (if r = .status ∧ v.getLsbD 1 = true then none else some e)) ∧
  (∀ (r : Reg) (v : Word) (s : State) (e : ErrCode), s.err = none → (writeReg r v s).err = some e →
    writeReg r v s = latchError e s ∧ (r = .cmd ∨ e = .busy ∧ s.flight ≠ none ∧ (r = .ctrl ∨ r = .discard))) ∧
  (∀ (i : Instr) (s t : State), Completes i s t → t.err = s.err) ∧
  (∀ s : State, (resetBlock s).err = none)

/-- R106: CTRL and DISCARD writes while busy are dropped with BUSY, and take effect while idle whatever ERR is; A, B, STATUS, ID and
RES writes never raise an error, and those of ID and RES change nothing. -/
def Obligations.WritesWhileBusy : Prop :=
  ∀ (s : State) (v : Word),
    (s.flight ≠ none → writeReg .ctrl v s = latchError .busy s ∧ writeReg .discard v s = latchError .busy s) ∧
    (s.flight = none → writeReg .ctrl v s = { s with thresh := v.extractLsb' 0 16, tblv := false } ∧
      writeReg .discard v s = { s with discard := v }) ∧
    (writeReg .a v s).err = s.err ∧ (writeReg .b v s).err = s.err ∧
    ((writeReg .status v s).err = s.err ∨ (writeReg .status v s).err = none) ∧
    writeReg .id v s = s ∧ writeReg .res v s = s

/-- R23: a STATUS write clears by writing 1, at any time; and a completion that follows the write in the same cycle keeps the
flags it sets. -/
def Obligations.StatusWriteClears : Prop :=
  (∀ (s : State) (v : Word),
    writeReg .status v s =
      { s with err := if v.getLsbD 1 then none else s.err, ovf := if v.getLsbD 2 then false else s.ovf }) ∧
  (∀ (i : Instr) (s u : State) (v : Word), Completes i s u →
    ∃ t, Completes i (writeReg .status v s) t ∧ t.rej = u.rej ∧ t.tblv = u.tblv ∧ t.res = u.res ∧
      t.discard = u.discard ∧ t.hist = u.hist ∧ t.table = u.table ∧ t.flight = none ∧
      (s.ovf = false → u.ovf = true → t.ovf = true))

/-- R16 and R17: A and B may be written at any time, the command in flight keeps what it latched, no command writes them, and
they reset to 0. -/
def Obligations.OperandRegistersAreTheHosts : Prop :=
  (∀ (s : State) (v : Word), writeReg .a v s = { s with a := v } ∧ writeReg .b v s = { s with b := v } ∧
    (writeReg .a v s).flight = s.flight ∧ (writeReg .b v s).flight = s.flight) ∧
  (∀ (i : Instr) (s t : State) (v w : Word), Completes i s t →
    t.a = s.a ∧ t.b = s.b ∧
    Completes i { s with a := v, b := w } { t with a := v, b := w }) ∧
  (∀ c : Config, (State.resetOf c).a = 0 ∧ (State.resetOf c).b = 0)

/-- R25: CTRL holds THRESH; its writes while idle and while busy; and a threshold of TF or more under BATCH, of IS or more under
WORD, rejects no word. -/
def Obligations.ThresholdRegister : Prop :=
  (∀ (s : State) (v : Word), readReg .ctrl s = s.thresh.setWidth 64 ∧
    (s.flight = none → writeReg .ctrl v s = { s with thresh := v.setWidth 16, tblv := false }) ∧
    (s.flight ≠ none → writeReg .ctrl v s = latchError .busy s)) ∧
  (∀ c : Config, (State.resetOf c).thresh = 0) ∧
  (∀ (c : Config) (m T : Nat), (c.tscope = .batch → c.tf ≤ T) → (c.tscope = .word → c.is ≤ T) →
    ∃ lab run, tableDecode c (buildTable c T) m T = .ok (.accept lab run))

/-- R31: DISCARD counts rejected SAMPs modulo 2^64, no other command changes it, and the host writes it only while idle. -/
def Obligations.DiscardCounter : Prop :=
  (∀ s t : State, Completes .samp s t →
    (t.rej = true → t.discard.toNat = (s.discard.toNat + 1) % 2 ^ 64) ∧ (t.rej = false → t.discard = s.discard)) ∧
  (∀ (i : Instr) (s t : State), i ≠ .samp → Completes i s t → t.discard = s.discard) ∧
  (∀ (s : State) (v : Word), (s.flight = none → writeReg .discard v s = { s with discard := v }) ∧
    (s.flight ≠ none → writeReg .discard v s = latchError .busy s)) ∧
  (∀ c : Config, (State.resetOf c).discard = 0)

/-! ### What a completion may change -/

/-- R54: whatever the command, its completion clears BUSY and the record, leaves A, B, THRESH, the latched error and what the host is
going to ask as they are, and never clears OVF; and with no command in flight the engine has no step (R13). -/
def Obligations.CompletionEndsTheCommand : Prop :=
  ∀ (i : Instr) (s : State),
    (∀ t, Completes i s t →
      t.flight = none ∧ (statusWord t).getLsbD 0 = false ∧
      t.a = s.a ∧ t.b = s.b ∧ t.thresh = s.thresh ∧ t.err = s.err ∧ t.cfg = s.cfg ∧
      t.inputs = s.inputs ∧ t.reply = s.reply ∧ (s.ovf = true → t.ovf = true)) ∧
    (s.flight = none → exec i s = .refused .engineIdle)

/-- R18: which commands may write RES; acceptance and host writes leave it; it resets to 0. -/
def Obligations.OnlyResultCommandsWriteRes : Prop :=
  (∀ (i : Instr) (s t : State),
    i ∉ [Instr.par, .popc, .tblrd, .dec, .proj, .projp, .hrd, .samp] → Completes i s t → t.res = s.res) ∧
  (∀ (r : Reg) (v : Word) (s : State), (writeReg r v s).res = s.res) ∧
  (∀ c : Config, (State.resetOf c).res = 0)

/-- R27: REJ is written only by DEC and SAMP, with the verdict of the decoder and with bit 63 of the RES they write; no other command and no host write changes it. -/
def Obligations.OnlyDecAndSampWriteRej : Prop :=
  (∀ (i : Instr) (s t : State) (f : Flight), Inv s → s.tblv = true → s.flight = some f → i = .dec ∨ i = .samp →
    Completes i s t → t.rej = t.res.getLsbD 63 ∧
      (t.rej = true ↔ ∃ run, tableDecode s.cfg s.table (f.a.toNat % 2 ^ s.cfg.ql) f.thr.toNat = .ok (.reject run))) ∧
  (∀ (i : Instr) (s t : State), i ≠ .dec → i ≠ .samp → Completes i s t → t.rej = s.rej) ∧
  (∀ (r : Reg) (v : Word) (s : State), (writeReg r v s).rej = s.rej) ∧
  (∀ c : Config, (State.resetOf c).rej = false)

/-- R28: OVF is sticky; a completion with its pending overflow flag set sets it; only HACC, HWR, SAMP and FWHT can set it; only a W1C write or reset clears it; a state that has it is a
model fault. -/
def Obligations.OverflowIsSticky : Prop :=
  (∀ (i : Instr) (s t : State), Completes i s t →
    (s.ovf = true → t.ovf = true) ∧ (i ∉ [Instr.hacc, .hwr, .samp, .fwht] → t.ovf = s.ovf)) ∧
  (∀ (r : Reg) (v : Word) (s : State),
    (writeReg r v s).ovf = (if r = .status ∧ v.getLsbD 2 = true then false else s.ovf)) ∧
  (∀ (p : Bool) (s : State), (finish p s).ovf = (s.ovf || p)) ∧
  (∀ s : State, (resetBlock s).ovf = false) ∧
  (∀ s : State, s.ovf = true → ∀ t, step s ≠ .next t)

/-- R29: TBLV is set by TBLBUILD and cleared by an accepted CTRL write and by reset; nothing else changes it. -/
def Obligations.TableValidFlag : Prop :=
  (∀ s t : State, Completes .tblbuild s t → t.tblv = true) ∧
  (∀ (i : Instr) (s t : State), i ≠ .tblbuild → Completes i s t → t.tblv = s.tblv) ∧
  (∀ (r : Reg) (v : Word) (s : State),
    (writeReg r v s).tblv = (if r = .ctrl ∧ s.flight = none then false else s.tblv)) ∧
  (∀ s : State, (resetBlock s).tblv = false)

/-- R32 and R33: only TBLBUILD writes TABLE; only HCLR, HACC, HWR, SAMP and FWHT write HIST; no port write reaches either. -/
def Obligations.OnlyTheNamedCommandsWriteTheMemories : Prop :=
  (∀ (i : Instr) (s t : State), Completes i s t →
    (i ≠ .tblbuild → t.table = s.table) ∧
    (i ∉ [Instr.hclr, .hacc, .hwr, .samp, .fwht] → t.hist = s.hist)) ∧
  (∀ (r : Reg) (v : Word) (s : State), (writeReg r v s).table = s.table ∧ (writeReg r v s).hist = s.hist)

/-! ### The parity unit -/

/-- R63: NOP's word, what a CMD write of it does, and its completion, which changes nothing but the record. -/
def Obligations.NopOnlyCompletes : Prop :=
  decode 0x0000000000000000#64 = .ok .nop ∧ IssuedAs 0x0000000000000000#64 noCheck ∧
  (∀ (s : State) (f : Flight), s.flight = some f → exec .nop s = .next { s with flight := none })

/-- R64 and R65: what CMD writes of PAR and POPC do; both complete whatever the operands: RES is the parity, or the population count, of the AND of the low QL
bits of A and B as latched; nothing else changes. -/
def Obligations.ParAndPopcResults : Prop :=
  decode 0x0000000000000001#64 = .ok .par ∧ IssuedAs 0x0000000000000001#64 noCheck ∧
  decode 0x0000000000000002#64 = .ok .popc ∧ IssuedAs 0x0000000000000002#64 noCheck ∧
  (∀ (s : State) (f : Flight), s.flight = some f →
    let n := ((List.range s.cfg.ql).filter fun j => f.a.getLsbD j && f.b.getLsbD j).length
    exec .par s = .next { s with res := BitVec.ofNat 64 (n % 2), flight := none } ∧
    exec .popc s = .next { s with res := BitVec.ofNat 64 n, flight := none } ∧ n ≤ s.cfg.ql)

/-- R66: the laws of the parity unit, over the words PAR and POPC give. -/
def Obligations.ParityUnitLaws : Prop :=
  ∀ (c : Config) (k : BitVec 8) (T : BitVec 16) (a b d : Word),
    let par := fun x y : Word => parWord c ⟨k, x, y, T⟩
    let popc := fun x y : Word => popcWord c ⟨k, x, y, T⟩
    (par a b).toNat = (popc a b).toNat % 2 ∧ par a b = par b a ∧ par (a ^^^ d) b = par a b ^^^ par d b ∧
    (∀ a' b' : Word, a.toNat % 2 ^ c.ql = a'.toNat % 2 ^ c.ql → b.toNat % 2 ^ c.ql = b'.toNat % 2 ^ c.ql →
      par a b = par a' b')

/-! ### The decoder -/

/-- R68, R69 and R70: the entry of a batch value, bit by bit: its label bits are the majorities of its sub-blocks, dcnt counts those
that disagree by DRULE, and rej compares it with T. -/
def Obligations.TableEntryContents : Prop :=
  ∀ (c : Config) (e T : Nat),
    let cnt := fun j => popcount c.rf (e / 2 ^ (j * c.rf) % 2 ^ c.rf)
    (∀ j, (entry c e T).label.testBit j = (decide (j < c.tf) && decide (c.rf / 2 < cnt j))) ∧
    (entry c e T).dcnt = ((List.range c.tf).filter fun j =>
      match c.drule with
      | .unanimity => cnt j != 0 && cnt j != c.rf
      | .strictMajority => 2 * cnt j == c.rf
      | .refLiteral => cnt j == 2).length ∧
    ((entry c e T).rej = true ↔ T < (entry c e T).dcnt)

/-- R79: when a block of popcount 0 or RF, or an equal split, counts as disagreeing. -/
def Obligations.DisagreementLaw : Prop :=
  ∀ c : Config,
    (¬ (c.drule = .refLiteral ∧ c.rf = 2) → dis c 0 = false ∧ dis c c.rf = false) ∧
    (∀ n, 2 * n = c.rf → c.drule ≠ .refLiteral → dis c n = true) ∧
    (∀ n, 2 * n = c.rf → c.drule = .refLiteral → (dis c n = true ↔ c.rf = 4)) ∧
    (c.drule = .refLiteral → c.rf = 2 → dis c c.rf = true)

/-- R74: what a CMD write of TBLBUILD does, needing no table; it completes; afterwards TABLE holds entry(e, T) for every e below 2^TB and nothing else, with the latched threshold;
TBLV is 1; with T of TF or more no entry rejects; nothing else changes. -/
def Obligations.TblbuildFillsTheTable : Prop :=
  decode 0x0000000000000010#64 = .ok .tblbuild ∧ IssuedAs 0x0000000000000010#64 noCheck ∧
  (∀ (s : State) (f : Flight), s.flight = some f →
    ∃ t, exec .tblbuild s = .next t ∧ t = { s with table := t.table, tblv := true, flight := none } ∧
      t.table.length = 2 ^ s.cfg.tb ∧
      (∀ e, e < 2 ^ s.cfg.tb → t.table[e]? = some (entry s.cfg e f.thr.toNat)) ∧
      (s.cfg.tf ≤ f.thr.toNat → ∀ x ∈ t.table, x.rej = false))

/-- R75: what a CMD write of TBLRD does: NO_TABLE before BAD_INDEX; it completes with a valid table and an index in range; RES shows the entry of the latched index as it stands, the label
not zeroed on a reject; nothing else changes. -/
def Obligations.TblrdShowsOneEntry : Prop :=
  decode 0x0000000000000011#64 = .ok .tblrd ∧ IssuedAs 0x0000000000000011#64 entryCheck ∧
  (∀ (s : State) (f : Flight), s.flight = some f → TableReady s → f.a.toNat < 2 ^ s.cfg.tb →
    let x := entry s.cfg f.a.toNat s.thresh.toNat
    exec .tblrd s =
      .next { s with
        res := (BitVec.ofNat 64 x.rej.toNat <<< 63) ||| (BitVec.ofNat 64 x.dcnt <<< 32) ||| BitVec.ofNat 64 x.label
        flight := none })

/-- R71: with a table built under T, the walk visits the batches in ascending order. It rejects exactly when some batch triggers, at
the first that does, with the count up to and including it; otherwise it accepts with the whole count. BATCH's rejects are WORD's
too. -/
def Obligations.TableDecodeStopsAtTheFirstTrigger : Prop :=
  ∀ (c : Config) (m T : Nat),
    (∀ k, k < c.nb → Triggers c m T k → (∀ j, j < k → ¬ Triggers c m T j) →
      tableDecode c (buildTable c T) m T = .ok (.reject (runUpTo c m k))) ∧
    ((∀ k, k < c.nb → ¬ Triggers c m T k) →
      ∃ lab, tableDecode c (buildTable c T) m T = .ok (.accept lab (runUpTo c m (c.nb - 1))) ∧
        ∀ k j, k < c.nb → j < c.tf → lab.testBit (k * c.tf + j) = (entry c (batch c m k) T).label.testBit j) ∧
    (∀ k, k < c.nb → T < (entry c (batch c m k) T).dcnt → T < runUpTo c m k)

/-- R72: the table method and the direct method reject the same words; when they accept they give the same label and count; and on a
reject the table method's count is at most the word's. The direct method's label, count and verdict are those of R72's text. -/
def Obligations.TableAndDirectMethodsAgree : Prop :=
  ∀ (c : Config) (m T : Nat),
    (direct c m T = none → ∃ run, tableDecode c (buildTable c T) m T = .ok (.reject run) ∧ run ≤ directCount c m) ∧
    (∀ lab d, direct c m T = some (lab, d) → tableDecode c (buildTable c T) m T = .ok (.accept lab d)) ∧
    (let cnt := fun b => popcount c.rf (m / 2 ^ (b * c.rf) % 2 ^ c.rf)
     let d := ((List.range c.is).filter fun b => dis c (cnt b)).length
     (∀ b, (directLabel c m).testBit b = (decide (b < c.is) && maj c (cnt b))) ∧
     (∀ lab d', direct c m T = some (lab, d') → lab = directLabel c m ∧ d' = d) ∧
     directCount c m = d ∧
     (direct c m T = none ↔
       match c.tscope with
       | .batch => ∃ k, k < c.nb ∧ T < ((List.range c.tf).filter fun j => dis c (cnt (k * c.tf + j))).length
       | .word => T < d))

/-- R80: labels lie below 2^IS and counts are at most IS. So the words Accept(lab, run) and Reject(run) of R73 keep their fields apart:
LABEL at the bottom, DCNT at 47:32, REJ at 63, zeros between; on a reject the label field is 0. -/
def Obligations.DecodeResultFieldsFit : Prop :=
  (∀ (c : Config) (m T : Nat) (v : Verdict), tableDecode c (buildTable c T) m T = .ok v →
    (∀ lab run, v = .accept lab run → lab < 2 ^ c.is ∧ run ≤ c.is) ∧ (∀ run, v = .reject run → run ≤ c.is)) ∧
  (∀ (c : Config) (m : Nat), directLabel c m < 2 ^ c.is ∧ parityLabel c m < 2 ^ c.is ∧ directCount c m ≤ c.is) ∧
  (∀ lab run : Nat, lab < 2 ^ 30 → run ≤ 30 →
    (let w := (Verdict.accept lab run).word
     w.extractLsb' 0 32 = BitVec.ofNat 32 lab ∧ w.extractLsb' 32 16 = BitVec.ofNat 16 run ∧
       w.extractLsb' 48 15 = 0 ∧ w.getLsbD 63 = false) ∧
    (let w := (Verdict.reject run).word
     w.extractLsb' 0 32 = 0 ∧ w.extractLsb' 32 16 = BitVec.ofNat 16 run ∧
       w.extractLsb' 48 15 = 0 ∧ w.getLsbD 63 = true))

/-- R76: what a CMD write of DEC does; it completes with a valid table and says what the direct method says of the low QL bits of A as latched: on an accept RES
holds the count and the label and REJ becomes 0; on a reject RES holds bit 63 and a count and REJ becomes 1. Nothing else
changes. -/
def Obligations.DecDecidesTheWord : Prop :=
  decode 0x0000000000000012#64 = .ok .dec ∧ IssuedAs 0x0000000000000012#64 tableCheck ∧
  ∀ (s : State) (f : Flight), s.flight = some f → TableReady s → f.thr = s.thresh →
    let m := f.a.toNat % 2 ^ s.cfg.ql
    (∀ lab d, direct s.cfg m f.thr.toNat = some (lab, d) →
      exec .dec s =
        .next { s with res := (BitVec.ofNat 64 d <<< 32) ||| BitVec.ofNat 64 lab, rej := false, flight := none }) ∧
    (direct s.cfg m f.thr.toNat = none →
      ∃ run, run ≤ directCount s.cfg m ∧
        tableDecode s.cfg s.table m f.thr.toNat = .ok (.reject run) ∧
        exec .dec s =
          .next { s with res := (1#64 <<< 63) ||| (BitVec.ofNat 64 run <<< 32), rej := true, flight := none })

/-- R77: what a CMD write of PROJ does; it completes with a valid table, whatever the threshold: RES holds the majority label and the word's count of disagreeing
blocks, bit 63 is 0, REJ is unchanged; and when DEC accepts the same word it gives the same RES. -/
def Obligations.ProjIsTheMajorityLabel : Prop :=
  decode 0x0000000000000013#64 = .ok .proj ∧ IssuedAs 0x0000000000000013#64 tableCheck ∧
  ∀ (s : State) (f : Flight), s.flight = some f → TableReady s →
    let m := f.a.toNat % 2 ^ s.cfg.ql
    exec .proj s =
      .next { s with
        res := (BitVec.ofNat 64 (directCount s.cfg m) <<< 32) ||| BitVec.ofNat 64 (directLabel s.cfg m)
        flight := none } ∧
    (∀ t, f.thr = s.thresh → Completes .dec s t → t.rej = false → Completes .proj s { t with rej := s.rej })

/-- R78: what a CMD write of PROJP does; it completes with or without a table: bit b of RES is the parity of block b of the low QL bits of A as latched, the bits
above the label are 0, and nothing else changes. -/
def Obligations.ProjpIsTheParityLabel : Prop :=
  decode 0x0000000000000014#64 = .ok .projp ∧ IssuedAs 0x0000000000000014#64 noCheck ∧
  (∀ (s : State) (f : Flight), s.flight = some f →
    ∃ t, exec .projp s = .next t ∧ t = { s with res := t.res, flight := none } ∧
      ∀ b, b < 64 → t.res.getLsbD b =
        (decide (b < s.cfg.is) &&
          (popcount s.cfg.rf (f.a.toNat % 2 ^ s.cfg.ql / 2 ^ (b * s.cfg.rf) % 2 ^ s.cfg.rf) % 2 == 1)))

/-- R78, corner case: for a clean codeword m, whose blocks are all 0 or all ones as the bits of L say, the parity of m AND x is the
parity of L AND PROJP(x), for every word x. -/
def Obligations.CleanCodewordParity : Prop :=
  ∀ (c : Config) (L m x : Nat),
    (∀ b, b < c.is → m / 2 ^ (b * c.rf) % 2 ^ c.rf = (if L.testBit b then 2 ^ c.rf - 1 else 0)) →
    parity c.ql (m &&& x) = parity c.is (L &&& parityLabel c x)

/-! ### The histogram -/

/-- R81: wrap_CW gives the CW-bit value congruent to n, the only one, and leaves n alone exactly when n fits; storing n stores
wrap_CW(n) and sets the pending overflow flag exactly when n does not fit; and completion copies that flag into OVF. -/
def Obligations.WrapIsTwosComplement : Prop :=
  ∀ (c : Config) (n : Int),
    -(2 ^ (c.cw - 1)) ≤ wrapCW c.cw n ∧ wrapCW c.cw n < 2 ^ (c.cw - 1) ∧ wrapCW c.cw n ≡ n [ZMOD 2 ^ c.cw] ∧
    (∀ v : Int, -(2 ^ (c.cw - 1)) ≤ v → v < 2 ^ (c.cw - 1) → v ≡ n [ZMOD 2 ^ c.cw] → v = wrapCW c.cw n) ∧
    (wrapCW c.cw n ≠ n ↔ Wraps c n) ∧
    (∀ (i : Nat) (r : HistRun), i < c.hsize → r.mem.wf c →
      ∃ r', storeWrapped c i n r = .ok r' ∧ r'.mem.read i = some (wrapCW c.cw n) ∧
        (r'.pend = true ↔ r.pend = true ∨ Wraps c n)) ∧
    (∀ (p : Bool) (s : State), (finish p s).ovf = (s.ovf || p))

/-- HIST as a memory of counters: a read after a write gives what was written, every other counter reads as before, and equal
contents are equal data (R32, R38; the canonical form is log 4). -/
def Obligations.HistReadsWhatWasWritten : Prop :=
  ∀ (c : Config) (m : Memory), m.wf c →
    (∀ i v, i < c.hsize → counterMin c.cw ≤ v → v ≤ counterMax c.cw →
      (m.write c.hsize i v).wf c ∧ (m.write c.hsize i v).read i = some v ∧
      ∀ j, j < c.hsize → j ≠ i → (m.write c.hsize i v).read j = m.read j) ∧
    (∀ m' : Memory, m'.wf c → (∀ i, i < c.hsize → m.read i = m'.read i) → m = m')

/-- R82: what a CMD write of HCLR does; it completes whatever HIST holds: every counter is written and 0, as the loop of 2^IS writes of 0 leaves it; nothing else
changes. -/
def Obligations.HclrZeroesEveryCounter : Prop :=
  decode 0x0000000000000020#64 = .ok .hclr ∧ IssuedAs 0x0000000000000020#64 noCheck ∧
  (∀ (s : State) (f : Flight), s.flight = some f →
    ∃ t, exec .hclr s = .next t ∧ t = { s with hist := t.hist, flight := none } ∧
      (∀ i, i < s.cfg.hsize → t.hist.read i = some 0) ∧
      (s.hist.wf s.cfg →
        t.hist = (List.range s.cfg.hsize).foldl (fun m i => m.write s.cfg.hsize i 0) s.hist))

/-- R83: what a CMD write of HACC does; on an unwritten counter it is a model fault; on a written one it completes: the counter takes wrap_CW of its value plus 1, or minus 1 when b[0] = 1; OVF is set when
that wraps and else unchanged; every other counter and all else are unchanged. -/
def Obligations.HaccAddsOneSample : Prop :=
  decode 0x0000000000000021#64 = .ok .hacc ∧ IssuedAs 0x0000000000000021#64 labelCheck ∧
  ∀ (s : State) (f : Flight), s.flight = some f → s.hist.wf s.cfg → f.a.toNat < 2 ^ s.cfg.is →
    (s.hist.read f.a.toNat = none → exec .hacc s = .fault (.unwrittenCounter f.a.toNat)) ∧
    (∀ v, s.hist.read f.a.toNat = some v →
      let n := if f.b.getLsbD 0 then v - 1 else v + 1
      ∃ t, exec .hacc s = .next t ∧ t = { s with hist := t.hist, ovf := t.ovf, flight := none } ∧
        t.hist.read f.a.toNat = some (wrapCW s.cfg.cw n) ∧
        (∀ j, j < s.cfg.hsize → j ≠ f.a.toNat → t.hist.read j = s.hist.read j) ∧
        (t.ovf = true ↔ s.ovf = true ∨ Wraps s.cfg n))

/-- R84: what a CMD write of HWR does; it completes, whether or not the counter was written: the counter takes the low CW bits of B, read as two's complement; OVF is
set when B does not fit and else unchanged; every other counter and all else are unchanged. -/
def Obligations.HwrWritesOneCounter : Prop :=
  decode 0x0000000000000022#64 = .ok .hwr ∧ IssuedAs 0x0000000000000022#64 labelCheck ∧
  ∀ (s : State) (f : Flight), s.flight = some f → s.hist.wf s.cfg → f.a.toNat < 2 ^ s.cfg.is →
    ∃ t, exec .hwr s = .next t ∧ t = { s with hist := t.hist, ovf := t.ovf, flight := none } ∧
      t.hist.read f.a.toNat = some (wrapCW s.cfg.cw f.b.toInt) ∧
      (∀ j, j < s.cfg.hsize → j ≠ f.a.toNat → t.hist.read j = s.hist.read j) ∧
      (t.ovf = true ↔ s.ovf = true ∨ Wraps s.cfg f.b.toInt)

/-- R85: what a CMD write of HRD does; on an unwritten counter it is a model fault; on a written one it completes: RES is the counter, sign-extended; nothing else changes. -/
def Obligations.HrdReadsOneCounter : Prop :=
  decode 0x0000000000000023#64 = .ok .hrd ∧ IssuedAs 0x0000000000000023#64 labelCheck ∧
  ∀ (s : State) (f : Flight), s.flight = some f → s.hist.wf s.cfg → f.a.toNat < 2 ^ s.cfg.is →
    (s.hist.read f.a.toNat = none → exec .hrd s = .fault (.unwrittenCounter f.a.toNat)) ∧
    (∀ v, s.hist.read f.a.toNat = some v →
      ∃ t, exec .hrd s = .next t ∧ t = { s with res := t.res, flight := none } ∧ t.res.toInt = v)

/-- R86: what a CMD write of SAMP does. A SAMP whose word the decoder rejects completes: DISCARD counts it, RES and REJ say so, HIST is unchanged. One whose word it
accepts is a model fault when the label's counter is unwritten, and completes when it is written: that counter takes one sample, RES and REJ say so, DISCARD is unchanged. -/
def Obligations.SampDiscardsOrAccumulates : Prop :=
  decode 0x0000000000000024#64 = .ok .samp ∧ IssuedAs 0x0000000000000024#64 tableCheck ∧
  ∀ (s : State) (f : Flight), s.flight = some f → s.hist.wf s.cfg → TableReady s → f.thr = s.thresh →
    let m := f.a.toNat % 2 ^ s.cfg.ql
    (direct s.cfg m f.thr.toNat = none →
      ∃ run, tableDecode s.cfg s.table m f.thr.toNat = .ok (.reject run) ∧
        exec .samp s = .next { s with
          discard := s.discard + 1
          res := (1#64 <<< 63) ||| (BitVec.ofNat 64 run <<< 32)
          rej := true
          flight := none }) ∧
    (∀ lab d, direct s.cfg m f.thr.toNat = some (lab, d) → s.hist.read lab = none →
      exec .samp s = .fault (.unwrittenCounter lab)) ∧
    (∀ lab d v, direct s.cfg m f.thr.toNat = some (lab, d) → s.hist.read lab = some v →
      let n := if f.b.getLsbD 0 then v - 1 else v + 1
      ∃ t, exec .samp s = .next t ∧
        t = { s with
          hist := t.hist
          ovf := t.ovf
          res := (BitVec.ofNat 64 d <<< 32) ||| BitVec.ofNat 64 lab
          rej := false
          flight := none } ∧
        t.hist.read lab = some (wrapCW s.cfg.cw n) ∧
        (∀ j, j < s.cfg.hsize → j ≠ lab → t.hist.read j = s.hist.read j) ∧
        (t.ovf = true ↔ s.ovf = true ∨ Wraps s.cfg n))

/-- R38: reset leaves every counter unwritten; reading an unwritten counter is a model fault and gives no value; a counter once written
stays written whatever command completes; and a counter becomes written only by HCLR or by an HWR of its own index, since HACC,
SAMP and FWHT first read what they write. -/
def Obligations.CountersStayWritten : Prop :=
  (∀ (s : State) (i : Nat), (resetBlock s).hist.read i = none) ∧
  (∀ (c : Config) (m : Memory) (i : Nat), i < c.hsize →
    (m.read i = none → histRead c m i = .error (.unwrittenCounter i)) ∧
    (∀ v, m.read i = some v → histRead c m i = .ok v)) ∧
  (∀ (i : Instr) (s t : State) (j : Nat), s.hist.wf s.cfg → Completes i s t → j < s.cfg.hsize →
    (s.hist.read j ≠ none → t.hist.read j ≠ none) ∧
    (s.hist.read j = none → t.hist.read j ≠ none →
      i = .hclr ∨ i = .hwr ∧ ∃ f, s.flight = some f ∧ f.a.toNat % 2 ^ s.cfg.is = j))

/-- R87: any two orders of the same HACC and SAMP commands, issued where every counter is written, complete and end with the same HIST
and the same DISCARD; this holds with overflow too. A valid table is asked only where the list has a SAMP: HACC needs none. -/
def Obligations.SampleOrderDoesNotMatter : Prop :=
  ∀ (s : State) (l l' : List Sample), s.hist.wf s.cfg → AllWritten s.cfg s.hist →
    (∀ x ∈ l, x.decoded = true → TableReady s) → (∀ x ∈ l, x.decoded = false → x.a.toNat < 2 ^ s.cfg.is) → l.Perm l' →
    ∃ t t', runSamples l s = .next t ∧ runSamples l' s = .next t' ∧ t.hist = t'.hist ∧ t.discard = t'.discard

/-- R88: after HCLR and then SAMP commands with no overflow, each counter is the number of accepted samples of its label with
response 0 less those with response 1; accepted and rejected samples add up to all; DISCARD has grown by the rejected; and the
magnitudes add up to at most the accepted, exactly when no label had both responses. -/
def Obligations.SampleCountsAddUp : Prop :=
  ∀ (s t : State) (l : List Sample), s.hist = Memory.cleared → TableReady s → (∀ x ∈ l, x.decoded = true) →
    runSamples l s = .next t → t.ovf = false →
    let p := fun x => acceptedWith s.cfg s.thresh.toNat x false l
    let q := fun x => acceptedWith s.cfg s.thresh.toNat x true l
    let accepted := ∑ x ∈ Finset.range s.cfg.hsize, (p x + q x)
    (∀ x, x < s.cfg.hsize → t.hist.read x = some ((p x : Int) - q x)) ∧
    accepted + rejectedOf s.cfg s.thresh.toNat l = l.length ∧
    t.discard = s.discard + BitVec.ofNat 64 (rejectedOf s.cfg s.thresh.toNat l) ∧
    absSum s.cfg t.hist ≤ accepted ∧
    (absSum s.cfg t.hist = accepted ↔ ∀ x, x < s.cfg.hsize → p x = 0 ∨ q x = 0)

/-! ### The transform -/

/-- R90: one pass replaces every pair of counters whose indices differ only in bit i by their sum and their difference, each wrapped;
the sum goes to the index with bit i clear. -/
def Obligations.PassReplacesPairsBySumAndDifference : Prop :=
  ∀ (c : Config) (i : Nat) (r : HistRun), i < c.is → r.mem.wf c → AllWritten c r.mem →
    ∃ r', fwhtPass c i r = .ok r' ∧ r'.mem.wf c ∧
      (∀ x, x < c.hsize → x.testBit i = false →
        r'.mem.read x = some (wrapCW c.cw (counter r.mem x + counter r.mem (x + 2 ^ i))) ∧
        r'.mem.read (x + 2 ^ i) = some (wrapCW c.cw (counter r.mem x - counter r.mem (x + 2 ^ i)))) ∧
      (r'.pend = true ↔ r.pend = true ∨ ∃ x, x < c.hsize ∧ x.testBit i = false ∧
        (Wraps c (counter r.mem x + counter r.mem (x + 2 ^ i)) ∨ Wraps c (counter r.mem x - counter r.mem (x + 2 ^ i))))

/-- R89 and R94: what a CMD write of FWHT does. Where a counter is unwritten it is a model fault. Where every counter is written it
completes: OVF is set when an output of some pass wraps and else unchanged, and each counter s becomes the wrapped sum over all x of h[x] times
(-1)^popcount(s & x); when OVF is not set it is that sum itself; nothing else changes. -/
def Obligations.FwhtIsTheWalshHadamardSum : Prop :=
  decode 0x0000000000000030#64 = .ok .fwht ∧ IssuedAs 0x0000000000000030#64 noCheck ∧
  ∀ (s : State) (f : Flight), s.flight = some f → s.hist.wf s.cfg →
    (¬ AllWritten s.cfg s.hist → ∃ i, i < s.cfg.hsize ∧ exec .fwht s = .fault (.unwrittenCounter i)) ∧
    (AllWritten s.cfg s.hist →
      ∃ t, exec .fwht s = .next t ∧ t = { s with hist := t.hist, ovf := t.ovf, flight := none } ∧
        (∀ x, x < s.cfg.hsize → t.hist.read x = some (wrapCW s.cfg.cw (whtSum s.cfg s.hist x))) ∧
        (t.ovf = false → ∀ x, x < s.cfg.hsize → t.hist.read x = some (whtSum s.cfg s.hist x)) ∧
        (t.ovf = true ↔ s.ovf = true ∨ ∃ i r x, i < s.cfg.is ∧ runPasses s.cfg (List.range i) ⟨s.hist, false⟩ = .ok r ∧
          x < s.cfg.hsize ∧ x.testBit i = false ∧
          (Wraps s.cfg (counter r.mem x + counter r.mem (x + 2 ^ i)) ∨
            Wraps s.cfg (counter r.mem x - counter r.mem (x + 2 ^ i)))))

/-- R95: a transform of counters whose magnitudes add up to at most 2^(CW-1) - 1 never wraps, and every value that any pass leaves is
at most that sum in magnitude. -/
def Obligations.OneTransformWithinTheBoundNeverWraps : Prop :=
  ∀ (s t : State), s.hist.wf s.cfg → AllWritten s.cfg s.hist → absSum s.cfg s.hist ≤ 2 ^ (s.cfg.cw - 1) - 1 →
    Completes .fwht s t →
    t.ovf = s.ovf ∧ (∀ x, x < s.cfg.hsize → |counter t.hist x| ≤ absSum s.cfg s.hist) ∧
    ∀ k, k ≤ s.cfg.is → ∃ r, runPasses s.cfg (List.range k) ⟨s.hist, false⟩ = .ok r ∧ r.pend = false ∧
      ∀ x, x < s.cfg.hsize → |counter r.mem x| ≤ absSum s.cfg s.hist

/-- R96: two transforms, neither of which wraps, multiply every counter by 2^IS. -/
def Obligations.TwoTransformsMultiplyByN : Prop :=
  ∀ (s t u : State) (f : Flight), s.hist.wf s.cfg → AllWritten s.cfg s.hist → Completes .fwht s t →
    Completes .fwht { t with flight := some f } u → u.ovf = false →
    ∀ x, x < s.cfg.hsize → u.hist.read x = some (2 ^ s.cfg.is * counter s.hist x)

/-- R97: with no wrap, counter 0 becomes the sum of all counters, and the sum of squares is multiplied by 2^IS. -/
def Obligations.TransformSumAndParseval : Prop :=
  ∀ (s t : State), s.hist.wf s.cfg → AllWritten s.cfg s.hist → Completes .fwht s t → t.ovf = false →
    t.hist.read 0 = some (∑ y ∈ Finset.range s.cfg.hsize, counter s.hist y) ∧
    ∑ x ∈ Finset.range s.cfg.hsize, counter t.hist x ^ 2 =
      2 ^ s.cfg.is * ∑ y ∈ Finset.range s.cfg.hsize, counter s.hist y ^ 2

/-- R91 and R99: FWHT's passes run in ascending order, and in any other order they end with the same HIST, wrapped or not. -/
def Obligations.PassOrderDoesNotMatter : Prop :=
  ∀ (c : Config) (r : HistRun) (l : List Nat), r.mem.wf c → AllWritten c r.mem → l.Perm (List.range c.is) →
    fwhtLoop c r = runPasses c (List.range c.is) r ∧
    ∃ r' r'', fwhtLoop c r = .ok r' ∧ runPasses c l r = .ok r'' ∧ r'.mem = r''.mem

/-! ### The bridge -/

/-- R40: over a bridge, byte k of a register's window holds bits 8k+7:8k under LITTLE and bits 63-8k:56-8k under BIG; what is written
reads back; and a bridged transaction acts as the register-port one of the same offset (R36). -/
def Obligations.BridgeByteOrder : Prop :=
  (∀ (w : Word) (k : Nat), k < 8 →
    (toBytes .little w)[k]? = some (w.extractLsb' (8 * k) 8) ∧
    (toBytes .big w)[k]? = some (w.extractLsb' (56 - 8 * k) 8)) ∧
  (∀ (e : Endian) (w : Word), (toBytes e w).length = 8 ∧ ofBytes e (toBytes e w) = w) ∧
  (∀ (e : Endian) (bs : List Byte), bs.length = 8 → toBytes e (ofBytes e bs) = bs) ∧
  (∀ (s : State) (o : Nat) (w : Word), o % 8 = 0 → o < 64 →
    hostAccess (.busWrite (lfcBase + o) (toBytes s.cfg.endian w)) s = hostAccess (.write o 64 w) s ∧
    hostAccess (.busRead (lfcBase + o) 8) s =
      .next { s with reply := .bytes (toBytes s.cfg.endian (readReg (regAt o) s)) })
end

