-- ==== Sys2Proof/Laws/Config.lean ====
section
/-! SUPPORT. What the constraints of R7 give for every build. -/

namespace Sys2Proof

namespace Config

variable (c : Config)

/-- The constraints of R7 as one conjunction. -/
theorem constraints :
    (1 ≤ c.ql ∧ c.ql ≤ 64) ∧ (1 ≤ c.rf ∧ c.ql % c.rf = 0) ∧ (1 ≤ c.is ∧ c.is ≤ 30) ∧
      (1 ≤ c.tf ∧ c.is % c.tf = 0) ∧ c.tb ≤ 20 ∧ (2 ≤ c.cw ∧ c.cw ≤ 64) := by
  have h := c.legal
  simp only [Params.legal, Params.qlOk, Params.rfOk, Params.isOk, Params.tfOk, Params.tbOk, Params.cwOk, Params.maxtb,
    Bool.and_eq_true, decide_eq_true_eq, beq_iff_eq] at h
  obtain ⟨⟨⟨⟨⟨h1, h2⟩, h3⟩, h4⟩, h5⟩, h6⟩ := h
  exact ⟨h1, h2, h3, h4, of_decide_eq_true h5, h6⟩

theorem ql_pos : 1 ≤ c.ql := c.constraints.1.1
theorem ql_le : c.ql ≤ 64 := c.constraints.1.2
theorem rf_pos : 1 ≤ c.rf := c.constraints.2.1.1
theorem is_pos : 1 ≤ c.is := c.constraints.2.2.1.1
theorem is_le : c.is ≤ 30 := c.constraints.2.2.1.2
theorem tf_pos : 1 ≤ c.tf := c.constraints.2.2.2.1.1
theorem tb_le : c.tb ≤ 20 := c.constraints.2.2.2.2.1
theorem cw_ge : 2 ≤ c.cw := c.constraints.2.2.2.2.2.1
theorem cw_le : c.cw ≤ 64 := c.constraints.2.2.2.2.2.2

/-- A word is IS whole blocks (R7). -/
theorem is_mul_rf : c.is * c.rf = c.ql :=
  Nat.div_mul_cancel (Nat.dvd_of_mod_eq_zero c.constraints.2.1.2)

/-- A label is NB whole batches (R7). -/
theorem nb_mul_tf : c.nb * c.tf = c.is :=
  Nat.div_mul_cancel (Nat.dvd_of_mod_eq_zero c.constraints.2.2.2.1.2)

/-- A word is NB whole batches of TB bits (R67). -/
theorem nb_mul_tb : c.nb * c.tb = c.ql := by
  rw [← c.is_mul_rf, ← c.nb_mul_tf]
  show c.nb * (c.rf * c.tf) = _
  ring

theorem nb_pos : 1 ≤ c.nb := by
  rcases Nat.eq_zero_or_pos c.nb with h | h
  · have := c.nb_mul_tf; have := c.is_pos; simp_all
  · exact h

theorem rf_le : c.rf ≤ 64 := by
  have h := c.is_mul_rf
  have h1 := c.ql_le
  have h2 := c.is_pos
  nlinarith

theorem tf_le : c.tf ≤ c.is := by
  have h := c.nb_mul_tf
  have h1 := c.nb_pos
  nlinarith

theorem hsize_eq : c.hsize = 2 ^ c.is := rfl

theorem hsize_pos : 0 < c.hsize := Nat.two_pow_pos _

theorem tsize_eq : c.tsize = 2 ^ c.tb := rfl

end Config

end Sys2Proof
end

