-- ==== Sys2Proof/Laws/Bits.lean ====
section
/-! SUPPORT. The bit-level primitives (R10, R11): fields, population counts, labels built bit by bit, and the wrap of a counter. -/

namespace Sys2Proof.Machine

open Sys2Proof

/-! ### Fields -/

theorem field_lt (v lo len : Nat) : field v lo len < 2 ^ len := Nat.mod_lt _ (Nat.two_pow_pos _)

theorem field_zero_lo (v len : Nat) : field v 0 len = v % 2 ^ len := by simp [field]

theorem testBit_field (v lo len j : Nat) : (field v lo len).testBit j = (decide (j < len) && v.testBit (lo + j)) := by
  simp [field, Nat.testBit_mod_two_pow, Nat.testBit_div_two_pow, Nat.add_comm]

/-- A field of a field is a field of the whole (R67: a block of a batch is a block of the word). -/
theorem field_field (v lo len lo' len' : Nat) (h : lo' + len' ≤ len) :
    field (field v lo len) lo' len' = field v (lo + lo') len' := by
  apply Nat.eq_of_testBit_eq
  intro j
  simp only [testBit_field]
  by_cases hj : j < len'
  · have : lo' + j < len := by omega
    simp [hj, this, Nat.add_assoc]
  · simp [hj]

/-! ### Population count -/

theorem popcount_le (n v : Nat) : popcount n v ≤ n := by
  induction n generalizing v with
  | zero => simp [popcount]
  | succ n ih =>
    have := ih (v / 2)
    simp only [popcount]
    omega

/-- The population count as a sum over bit positions (R11). -/
theorem popcount_eq_sum (n v : Nat) : popcount n v = ∑ j ∈ Finset.range n, (v.testBit j).toNat := by
  induction n generalizing v with
  | zero => simp [popcount]
  | succ n ih =>
    rw [Finset.sum_range_succ', popcount, ih]
    have : v % 2 = (v.testBit 0).toNat := by
      rw [Nat.testBit_zero]; rcases Nat.mod_two_eq_zero_or_one v with h | h <;> simp [h]
    rw [this, Nat.add_comm]
    simp [Nat.testBit_succ]

theorem popcount_congr (n v w : Nat) (h : ∀ j, j < n → v.testBit j = w.testBit j) : popcount n v = popcount n w := by
  rw [popcount_eq_sum, popcount_eq_sum]
  exact Finset.sum_congr rfl fun j hj => by rw [h j (Finset.mem_range.mp hj)]

theorem popcount_zero (n : Nat) : popcount n 0 = 0 := by
  simp [popcount_eq_sum]

/-- A count over n + k bits splits into the low n and the next k. -/
theorem popcount_add (n k v : Nat) : popcount (n + k) v = popcount n v + popcount k (v / 2 ^ n) := by
  simp only [popcount_eq_sum, Finset.sum_range_add, Nat.testBit_div_two_pow, Nat.add_comm]

/-- Parity turns exclusive or into addition modulo 2 (R66). -/
theorem popcount_xor_mod_two (n v w : Nat) :
    popcount n (v ^^^ w) % 2 = (popcount n v + popcount n w) % 2 := by
  induction n generalizing v w with
  | zero => simp [popcount]
  | succ n ih =>
    have h0 : (v ^^^ w) % 2 = (v % 2 + w % 2) % 2 := by
      rw [← Nat.add_mod]; exact Nat.xor_mod_two_eq
    have h1 : (v ^^^ w) / 2 = v / 2 ^^^ w / 2 := Nat.xor_div_two
    have := ih (v / 2) (w / 2)
    simp only [popcount, h0, h1]
    omega

/-! ### Labels and counts -/

theorem labelBits_lt (f : Nat → Bool) (n : Nat) : labelBits f n < 2 ^ n := by
  induction n with
  | zero => simp [labelBits]
  | succ n ih =>
    simp only [labelBits, pow_succ]
    split <;> omega

/-- Bit j of a label is what the loop put there (R70, R72, R78). -/
theorem testBit_labelBits (f : Nat → Bool) (n j : Nat) : (labelBits f n).testBit j = (decide (j < n) && f j) := by
  induction n with
  | zero => simp [labelBits]
  | succ n ih =>
    have hlt := labelBits_lt f n
    by_cases hf : f n
    · have e : labelBits f (n + 1) = 2 ^ n + labelBits f n := by simp [labelBits, hf, Nat.add_comm]
      rw [e]
      rcases Nat.lt_trichotomy j n with h | h | h
      · rw [Nat.testBit_two_pow_add_gt h, ih]; simp [h, Nat.lt_succ_of_lt h]
      · subst h; rw [Nat.testBit_two_pow_add_eq, Nat.testBit_lt_two_pow hlt]; simp [hf]
      · rw [Nat.testBit_lt_two_pow]
        · simp; omega
        · calc 2 ^ n + labelBits f n < 2 ^ (n + 1) := by rw [pow_succ]; omega
            _ ≤ 2 ^ j := Nat.pow_le_pow_right (by omega) h
    · have e : labelBits f (n + 1) = labelBits f n := by simp [labelBits, hf]
      rw [e, ih]
      rcases Nat.lt_trichotomy j n with h | h | h
      · simp [h, Nat.lt_succ_of_lt h]
      · subst h; simp [hf]
      · have h1 : ¬ j < n := by omega
        have h2 : ¬ j < n + 1 := by omega
        simp [h1, h2]

theorem labelBits_congr (f g : Nat → Bool) (n : Nat) (h : ∀ j, j < n → f j = g j) : labelBits f n = labelBits g n := by
  apply Nat.eq_of_testBit_eq
  intro j
  rw [testBit_labelBits, testBit_labelBits]
  by_cases hj : j < n
  · simp [hj, h j hj]
  · simp [hj]

/-- Two labels side by side make the label of the joined range: `lab | (t.label << n)` (R71). -/
theorem labelBits_or_shift (f : Nat → Bool) (n k : Nat) :
    labelBits f n ||| (labelBits (fun j => f (n + j)) k <<< n) = labelBits f (n + k) := by
  apply Nat.eq_of_testBit_eq
  intro j
  simp only [Nat.testBit_or, Nat.testBit_shiftLeft, testBit_labelBits]
  by_cases hj : j < n
  · have h1 : ¬ n ≤ j := by omega
    have h2 : j < n + k := by omega
    simp [hj, h1, h2]
  · have h1 : n ≤ j := by omega
    have h3 : n + (j - n) = j := by omega
    simp only [hj, h1, h3, decide_false, decide_true, Bool.false_and, Bool.true_and, Bool.false_or]
    congr 1
    exact decide_eq_decide.mpr (by omega)

theorem countBits_eq_sum (f : Nat → Bool) (n : Nat) : countBits f n = ∑ j ∈ Finset.range n, (f j).toNat := by
  induction n with
  | zero => simp [countBits]
  | succ n ih => simp only [countBits, ih, Finset.sum_range_succ]; cases f n <;> simp

theorem countBits_le (f : Nat → Bool) (n : Nat) : countBits f n ≤ n := by
  induction n with
  | zero => simp [countBits]
  | succ n ih => simp only [countBits]; split <;> omega

theorem countBits_congr (f g : Nat → Bool) (n : Nat) (h : ∀ j, j < n → f j = g j) : countBits f n = countBits g n := by
  rw [countBits_eq_sum, countBits_eq_sum]
  exact Finset.sum_congr rfl fun j hj => by rw [h j (Finset.mem_range.mp hj)]

/-- A count over a joined range is the sum of the counts (R71, R72). -/
theorem countBits_add (f : Nat → Bool) (n k : Nat) : countBits f (n + k) = countBits f n + countBits (fun j => f (n + j)) k := by
  simp only [countBits_eq_sum, Finset.sum_range_add]

theorem countBits_eq_filter (f : Nat → Bool) (n : Nat) : countBits f n = ((List.range n).filter f).length := by
  induction n with
  | zero => simp [countBits]
  | succ n ih =>
    simp only [countBits, ih, List.range_succ, List.filter_append, List.length_append]
    cases h : f n <;> simp [h]

/-! ### The wrap of a counter -/

theorem two_pow_cw (cw : Nat) (h : 2 ≤ cw) : (2 : Int) ^ cw = 2 * 2 ^ (cw - 1) := by
  obtain ⟨k, rfl⟩ : ∃ k, cw = k + 1 := ⟨cw - 1, by omega⟩
  simp [pow_succ, mul_comm]

/-- The wrapped value is a CW-bit counter (R81). -/
theorem wrapCW_range (cw : Nat) (h : 2 ≤ cw) (n : Int) : -(2 ^ (cw - 1)) ≤ wrapCW cw n ∧ wrapCW cw n < 2 ^ (cw - 1) := by
  have e := two_pow_cw cw h
  have hp : (0 : Int) < 2 ^ (cw - 1) := by positivity
  have ec : (((2 ^ cw : Nat) : Nat) : Int) = 2 * 2 ^ (cw - 1) := by push_cast; exact e
  have hpos : 0 < 2 ^ cw := Nat.two_pow_pos cw
  have h1 := Int.le_bmod (x := n) hpos
  have h2 := Int.bmod_lt (x := n) hpos
  rw [ec] at h1 h2
  constructor
  · show _ ≤ Int.bmod n (2 ^ cw)
    omega
  · show Int.bmod n (2 ^ cw) < _
    omega

/-- The wrapped value is congruent to the exact one (R81). -/
theorem wrapCW_modEq (cw : Nat) (n : Int) : wrapCW cw n ≡ n [ZMOD 2 ^ cw] := by
  have h := Int.bmod_emod (x := n) (m := 2 ^ cw)
  have e : (((2 ^ cw : Nat) : Nat) : Int) = 2 ^ cw := by push_cast; rfl
  rw [e] at h
  exact h

/-- Congruent numbers wrap alike (R81). -/
theorem wrapCW_eq_of_modEq (cw : Nat) {m n : Int} (h : m ≡ n [ZMOD 2 ^ cw]) : wrapCW cw m = wrapCW cw n := by
  have e : (((2 ^ cw : Nat) : Nat) : Int) = 2 ^ cw := by push_cast; rfl
  unfold wrapCW
  rw [← Int.emod_bmod (x := m), ← Int.emod_bmod (x := n), e]
  exact congrArg (fun z => Int.bmod z (2 ^ cw)) h

/-- A number that fits is its own wrapped value (R81). -/
theorem wrapCW_of_fits (cw : Nat) (h : 2 ≤ cw) (n : Int) (h1 : -(2 ^ (cw - 1)) ≤ n) (h2 : n < 2 ^ (cw - 1)) : wrapCW cw n = n := by
  have e := two_pow_cw cw h
  obtain ⟨a, b⟩ := wrapCW_range cw h n
  obtain ⟨k, hk⟩ := (wrapCW_modEq cw n).dvd
  rw [e] at hk
  have hp : (0 : Int) < 2 ^ (cw - 1) := by positivity
  have hk0 : k = 0 := by
    by_contra hne
    rcases lt_or_gt_of_ne hne with hlt | hgt
    · nlinarith
    · nlinarith
  subst hk0
  omega

theorem wrapCW_ne_iff (cw : Nat) (h : 2 ≤ cw) (n : Int) : wrapCW cw n ≠ n ↔ n < -(2 ^ (cw - 1)) ∨ 2 ^ (cw - 1) ≤ n := by
  obtain ⟨a, b⟩ := wrapCW_range cw h n
  constructor
  · intro hne
    by_contra hc
    push Not at hc
    exact hne (wrapCW_of_fits cw h n hc.1 hc.2)
  · rintro (h1 | h1) he <;> omega

end Sys2Proof.Machine
end

