-- ==== Sys2Proof/Laws/Memory.lean ====
section
/-! SUPPORT. HIST as a memory (R32, R38): reads after writes, the canonical form kept by every operation, and equal contents are
equal data. -/

namespace Sys2Proof.Machine

open Sys2Proof

/-- Indices rise strictly. -/
abbrev Sorted (l : List (Nat × Int)) : Prop := l.Pairwise fun p q => p.1 < q.1

/-! ### The list of cells -/

theorem lookupCell_setCell_same (i : Nat) (v : Int) (l : List (Nat × Int)) : lookupCell i (setCell i v l) = some v := by
  induction l with
  | nil => simp [setCell, lookupCell]
  | cons p t ih =>
    obtain ⟨j, w⟩ := p
    simp only [setCell]
    split
    · simp [lookupCell]
    · split
      · simp [lookupCell]
      · rename_i h1 h2
        simp [lookupCell, Ne.symm h2, ih]

theorem lookupCell_setCell_ne (i j : Nat) (v : Int) (l : List (Nat × Int)) (h : j ≠ i) :
    lookupCell j (setCell i v l) = lookupCell j l := by
  induction l with
  | nil => simp [setCell, lookupCell, Ne.symm h]
  | cons p t ih =>
    obtain ⟨k, w⟩ := p
    simp only [setCell]
    split
    · simp [lookupCell, Ne.symm h]
    · split
      · rename_i h1 h2
        subst h2
        simp [lookupCell, Ne.symm h]
      · simp only [lookupCell, ih]

theorem mem_of_lookupCell {i : Nat} {v : Int} {l : List (Nat × Int)} (h : lookupCell i l = some v) : (i, v) ∈ l := by
  induction l with
  | nil => simp [lookupCell] at h
  | cons p t ih =>
    obtain ⟨j, w⟩ := p
    simp only [lookupCell] at h
    split at h
    · simp_all
    · exact List.mem_cons_of_mem _ (ih h)

theorem lookupCell_of_mem {i : Nat} {v : Int} {l : List (Nat × Int)} (hs : Sorted l) (h : (i, v) ∈ l) :
    lookupCell i l = some v := by
  induction l with
  | nil => simp at h
  | cons p t ih =>
    obtain ⟨j, w⟩ := p
    rw [Sorted, List.pairwise_cons] at hs
    rcases List.mem_cons.mp h with h | h
    · cases h; simp [lookupCell]
    · have := hs.1 _ h
      have hne : j ≠ i := by intro e; simp [e] at this
      simp [lookupCell, hne, ih hs.2 h]

theorem lookupCell_eq_some_iff {i : Nat} {v : Int} {l : List (Nat × Int)} (hs : Sorted l) :
    lookupCell i l = some v ↔ (i, v) ∈ l := ⟨mem_of_lookupCell, lookupCell_of_mem hs⟩

theorem lookupCell_isSome_iff (i : Nat) (l : List (Nat × Int)) : (lookupCell i l).isSome ↔ i ∈ l.map Prod.fst := by
  induction l with
  | nil => simp [lookupCell]
  | cons p t ih =>
    obtain ⟨j, w⟩ := p
    simp only [lookupCell, List.map_cons, List.mem_cons]
    split
    · simp_all
    · rename_i hne
      simp [ih, Ne.symm hne]

theorem mem_setCell {i : Nat} {v : Int} {l : List (Nat × Int)} {p : Nat × Int} (h : p ∈ setCell i v l) : p = (i, v) ∨ p ∈ l := by
  induction l with
  | nil => simp [setCell] at h; exact .inl h
  | cons q t ih =>
    obtain ⟨j, w⟩ := q
    simp only [setCell] at h
    split at h
    · rcases List.mem_cons.mp h with h | h
      · exact .inl h
      · exact .inr h
    · split at h
      · rcases List.mem_cons.mp h with h | h
        · exact .inl h
        · exact .inr (List.mem_cons_of_mem _ h)
      · rcases List.mem_cons.mp h with h | h
        · exact .inr (h ▸ List.mem_cons_self)
        · exact (ih h).imp id (List.mem_cons_of_mem _)

theorem sorted_setCell (i : Nat) (v : Int) {l : List (Nat × Int)} (hs : Sorted l) : Sorted (setCell i v l) := by
  induction l with
  | nil => simp [setCell]
  | cons q t ih =>
    obtain ⟨j, w⟩ := q
    have hs' := List.pairwise_cons.mp hs
    simp only [setCell]
    split
    · rename_i hij
      refine List.pairwise_cons.mpr ⟨fun p hp => ?_, hs⟩
      rcases List.mem_cons.mp hp with rfl | hp
      · exact hij
      · exact Nat.lt_trans hij (hs'.1 p hp)
    · split
      · rename_i h1 h2
        subst h2
        exact List.pairwise_cons.mpr ⟨hs'.1, hs'.2⟩
      · rename_i h1 h2
        refine List.pairwise_cons.mpr ⟨fun p hp => ?_, ih hs'.2⟩
        rcases mem_setCell hp with rfl | hp
        · show j < i
          omega
        · exact hs'.1 p hp

theorem sorted_filter (f : Nat × Int → Bool) {l : List (Nat × Int)} (hs : Sorted l) : Sorted (l.filter f) :=
  List.Pairwise.filter _ hs

/-- Rising indices are distinct. -/
theorem nodup_keys {l : List (Nat × Int)} (hs : Sorted l) : (l.map Prod.fst).Nodup := by
  rw [List.Nodup, List.pairwise_map]
  exact hs.imp fun h => Nat.ne_of_lt h

/-- N counters with distinct indices below N are all the counters. -/
theorem key_mem_of_length {l : List (Nat × Int)} {n : Nat} (hs : Sorted l) (hb : ∀ p ∈ l, p.1 < n) (hl : n ≤ l.length)
    {i : Nat} (hi : i < n) : i ∈ l.map Prod.fst := by
  have hsub : (l.map Prod.fst).toFinset ⊆ Finset.range n := by
    intro x hx
    obtain ⟨p, hp, rfl⟩ := List.mem_map.mp (List.mem_toFinset.mp hx)
    exact Finset.mem_range.mpr (hb p hp)
  have hcard : (l.map Prod.fst).toFinset.card = l.length := by
    rw [List.toFinset_card_of_nodup (nodup_keys hs), List.length_map]
  have heq := Finset.eq_of_subset_of_card_le hsub (by rw [hcard, Finset.card_range]; exact hl)
  exact List.mem_toFinset.mp (heq ▸ Finset.mem_range.mpr hi)

/-- Fewer cells than counters leave some counter unlisted. -/
theorem exists_unlisted {l : List (Nat × Int)} {n : Nat} (hl : l.length < n) :
    ∃ i, i < n ∧ lookupCell i l = none := by
  by_contra hc
  push Not at hc
  have hsub : Finset.range n ⊆ (l.map Prod.fst).toFinset := by
    intro i hi
    have := hc i (Finset.mem_range.mp hi)
    exact List.mem_toFinset.mpr ((lookupCell_isSome_iff i l).mp (Option.isSome_iff_ne_none.mpr this))
  have h1 := Finset.card_le_card hsub
  have h2 := List.toFinset_card_le (l.map Prod.fst)
  rw [Finset.card_range] at h1
  rw [List.length_map] at h2
  omega

theorem length_setCell_le (i : Nat) (v : Int) (l : List (Nat × Int)) : (setCell i v l).length ≤ l.length + 1 := by
  induction l with
  | nil => simp [setCell]
  | cons q t ih =>
    obtain ⟨j, w⟩ := q
    simp only [setCell]
    split
    · simp
    · split
      · simp
      · simp only [List.length_cons]; omega

/-! ### Reads -/

theorem Memory.read_zeroed (cells : List (Nat × Int)) (i : Nat) :
    Memory.read ⟨true, cells⟩ i = some ((lookupCell i cells).getD 0) := by
  simp only [Memory.read, Memory.unlisted]
  cases lookupCell i cells <;> simp

theorem Memory.read_unzeroed (cells : List (Nat × Int)) (i : Nat) : Memory.read ⟨false, cells⟩ i = lookupCell i cells := by
  simp [Memory.read, Memory.unlisted]

@[simp] theorem Memory.read_cleared (i : Nat) : Memory.cleared.read i = some 0 := rfl

@[simp] theorem Memory.read_unwritten (i : Nat) : Memory.unwritten.read i = none := rfl

theorem lookupCell_dropCell (i j : Nat) (l : List (Nat × Int)) :
    lookupCell j (dropCell i l) = if j = i then none else lookupCell j l := by
  induction l with
  | nil => simp [dropCell, lookupCell]
  | cons p t ih =>
    obtain ⟨k, w⟩ := p
    simp only [dropCell] at ih ⊢
    rw [List.filter_cons]
    by_cases hk : k = i
    · subst hk
      rw [if_neg (by simp), ih]
      by_cases hj : j = k
      · simp [hj]
      · simp [hj, lookupCell, Ne.symm hj]
    · have e : decide ((k, w).1 ≠ i) = true := by simp [hk]
      rw [if_pos e]
      by_cases hkj : k = j
      · subst hkj; simp [lookupCell, hk]
      · simp only [lookupCell, hkj, if_false]
        exact ih

theorem lookupCell_nonzero (j : Nat) {l : List (Nat × Int)} (hs : Sorted l) :
    (lookupCell j (l.filter fun p => p.2 ≠ 0)).getD 0 = (lookupCell j l).getD 0 := by
  cases h : lookupCell j l with
  | none =>
    have h2 : lookupCell j (l.filter fun p => p.2 ≠ 0) = none := by
      rw [← Option.not_isSome_iff_eq_none, lookupCell_isSome_iff]
      intro hm
      obtain ⟨p, hp, rfl⟩ := List.mem_map.mp hm
      have := (lookupCell_isSome_iff p.1 l).mpr (List.mem_map_of_mem (List.mem_filter.mp hp).1)
      simp [h] at this
    rw [h2]
  | some v =>
    have hm := mem_of_lookupCell h
    by_cases hv : v = 0
    · subst hv
      cases h2 : lookupCell j (l.filter fun p => p.2 ≠ 0) with
      | none => rfl
      | some w =>
        have hm2 := List.mem_filter.mp (mem_of_lookupCell h2)
        have := lookupCell_of_mem hs hm2.1
        rw [h] at this
        cases this
        simp at hm2
    · have : (j, v) ∈ l.filter fun p => p.2 ≠ 0 := List.mem_filter.mpr ⟨hm, by simp [hv]⟩
      rw [lookupCell_of_mem (sorted_filter _ hs) this]

/-! ### Writes -/

variable {c : Config} {m : Memory}

/-- In the canonical form the mark says exactly whether every counter is written (R38). -/
theorem Memory.zeroed_iff_allWritten (h : m.wf c) : m.zeroed = true ↔ ∀ i, i < c.hsize → m.read i ≠ none := by
  obtain ⟨z, cells⟩ := m
  cases z with
  | true => simp [Memory.read_zeroed]
  | false =>
    obtain ⟨i, hi, hn⟩ := exists_unlisted (h.2.2.2 rfl)
    simp only [Bool.false_eq_true, false_iff, not_forall]
    exact ⟨i, hi, by simp [Memory.read_unzeroed, hn]⟩

theorem Memory.read_write_same (h : m.wf c) {i : Nat} (v : Int) : (m.write c.hsize i v).read i = some v := by
  obtain ⟨z, cells⟩ := m
  cases z with
  | true =>
    simp only [Memory.write, if_true, Memory.read_zeroed]
    split
    · rename_i h0; simp [lookupCell_dropCell, h0]
    · simp [lookupCell_setCell_same]
  | false =>
    simp only [Memory.write, Bool.false_eq_true, if_false]
    split
    · rw [Memory.read_zeroed, lookupCell_nonzero _ (sorted_setCell i v h.1), lookupCell_setCell_same]; rfl
    · rw [Memory.read_unzeroed, lookupCell_setCell_same]

theorem Memory.read_write_other (h : m.wf c) {i j : Nat} (v : Int) (hi : i < c.hsize) (hj : j < c.hsize) (hne : j ≠ i) :
    (m.write c.hsize i v).read j = m.read j := by
  obtain ⟨z, cells⟩ := m
  cases z with
  | true =>
    simp only [Memory.write, if_true, Memory.read_zeroed]
    split
    · simp [lookupCell_dropCell, hne]
    · simp [lookupCell_setCell_ne _ _ _ _ hne]
  | false =>
    simp only [Memory.write, Bool.false_eq_true, if_false]
    split
    · rename_i hl
      have hs := sorted_setCell i v h.1
      rw [Memory.read_zeroed, Memory.read_unzeroed, lookupCell_nonzero _ hs, lookupCell_setCell_ne _ _ _ _ hne]
      have hb : ∀ p ∈ setCell i v cells, p.1 < c.hsize := fun p hp => by
        rcases mem_setCell hp with rfl | hp
        · exact hi
        · exact (h.2.1 p hp).1
      have hk := (lookupCell_isSome_iff j _).mpr (key_mem_of_length hs hb (le_of_eq hl.symm) hj)
      rw [lookupCell_setCell_ne _ _ _ _ hne] at hk
      cases hc : lookupCell j cells with
      | none => simp [hc] at hk
      | some w => rfl
    · rw [Memory.read_unzeroed, Memory.read_unzeroed, lookupCell_setCell_ne _ _ _ _ hne]

/-- Every write of a CW-bit value keeps the canonical form. -/
theorem Memory.wf_write (h : m.wf c) {i : Nat} {v : Int} (hi : i < c.hsize) (h1 : counterMin c.cw ≤ v) (h2 : v ≤ counterMax c.cw) :
    (m.write c.hsize i v).wf c := by
  obtain ⟨z, cells⟩ := m
  have hb : ∀ p ∈ setCell i v cells, p.1 < c.hsize ∧ counterMin c.cw ≤ p.2 ∧ p.2 ≤ counterMax c.cw := fun p hp => by
    rcases mem_setCell hp with rfl | hp
    · exact ⟨hi, h1, h2⟩
    · exact h.2.1 p hp
  cases z with
  | true =>
    simp only [Memory.write, if_true]
    split
    · refine ⟨sorted_filter _ h.1, fun p hp => h.2.1 p (List.mem_filter.mp hp).1, fun _ p hp => h.2.2.1 rfl p (List.mem_filter.mp hp).1, by simp⟩
    · rename_i hv
      refine ⟨sorted_setCell i v h.1, hb, fun _ p hp => ?_, by simp⟩
      rcases mem_setCell hp with rfl | hp
      · exact hv
      · exact h.2.2.1 rfl p hp
  | false =>
    simp only [Memory.write, Bool.false_eq_true, if_false]
    split
    · refine ⟨sorted_filter _ (sorted_setCell i v h.1), fun p hp => hb p (List.mem_filter.mp hp).1, fun _ p hp => ?_, by simp⟩
      simpa using (List.mem_filter.mp hp).2
    · rename_i hl
      refine ⟨sorted_setCell i v h.1, hb, by simp, fun _ => ?_⟩
      have := length_setCell_le i v cells
      have := h.2.2.2 rfl
      simp only at *
      omega

theorem Memory.wf_cleared (c : Config) : Memory.cleared.wf c := by
  simp [Memory.wf, Memory.cleared]

theorem Memory.wf_unwritten (c : Config) : Memory.unwritten.wf c := by
  simp [Memory.wf, Memory.unwritten, c.hsize_pos]

/-- A wrapped value is a CW-bit counter, so storing one keeps the canonical form (R81). -/
theorem Memory.wf_write_wrap (h : m.wf c) {i : Nat} (n : Int) (hi : i < c.hsize) :
    (m.write c.hsize i (wrapCW c.cw n)).wf c := by
  obtain ⟨a, b⟩ := wrapCW_range c.cw c.cw_ge n
  exact Memory.wf_write h hi a (by unfold counterMax; omega)

/-- What is read is a CW-bit counter (R32). -/
theorem Memory.read_range (h : m.wf c) {i : Nat} {v : Int} (hr : m.read i = some v) :
    -(2 ^ (c.cw - 1)) ≤ v ∧ v < 2 ^ (c.cw - 1) := by
  have hp : (0 : Int) < 2 ^ (c.cw - 1) := by positivity
  unfold Memory.read at hr
  cases hl : lookupCell i m.cells with
  | none =>
    rw [hl] at hr
    simp only [Option.none_or, Memory.unlisted] at hr
    split at hr
    · cases hr; constructor <;> omega
    · cases hr
  | some w =>
    rw [hl] at hr
    simp only [Option.some_or, Option.some.injEq] at hr
    subst hr
    have := (h.2.1 _ (mem_of_lookupCell hl)).2
    unfold counterMin counterMax at this
    constructor
    · exact this.1
    · have := this.2; simp only at this; omega

/-- Strictly rising lists with the same members are the same list. -/
theorem sorted_ext {l l' : List (Nat × Int)} (hs : Sorted l) (hs' : Sorted l') (h : ∀ p, p ∈ l ↔ p ∈ l') : l = l' := by
  have hn : l.Nodup := hs.imp fun {p q} hpq e => by simp [e] at hpq
  have hn' : l'.Nodup := hs'.imp fun {p q} hpq e => by simp [e] at hpq
  refine List.Perm.eq_of_pairwise (le := fun p q => p.1 < q.1) (fun a b _ _ h1 h2 => ?_) hs hs' ((List.perm_ext_iff_of_nodup hn hn').mpr h)
  exact absurd h1 (by omega)

/-- Equal contents are equal data. -/
theorem Memory.ext_of_reads {m' : Memory} (h : m.wf c) (h' : m'.wf c) (hr : ∀ i, i < c.hsize → m.read i = m'.read i) :
    m = m' := by
  have hz : m.zeroed = m'.zeroed := by
    rw [Bool.eq_iff_iff, Memory.zeroed_iff_allWritten h, Memory.zeroed_iff_allWritten h']
    exact forall_congr' fun i => forall_congr' fun hi => by rw [hr i hi]
  obtain ⟨z, cells⟩ := m
  obtain ⟨z', cells'⟩ := m'
  simp only at hz
  subst hz
  congr 1
  refine sorted_ext h.1 h'.1 fun p => ?_
  obtain ⟨i, v⟩ := p
  have key : ∀ {l l' : List (Nat × Int)}, Memory.wf c ⟨z, l⟩ → Memory.wf c ⟨z, l'⟩ →
      (∀ i, i < c.hsize → Memory.read ⟨z, l⟩ i = Memory.read ⟨z, l'⟩ i) → (i, v) ∈ l → (i, v) ∈ l' := by
    intro l l' hl hl' hrr hm
    have hi := (hl.2.1 _ hm).1
    have e := lookupCell_of_mem hl.1 hm
    have e2 := hrr i hi
    cases z with
    | true =>
      rw [Memory.read_zeroed, Memory.read_zeroed, e] at e2
      have hv := hl.2.2.1 rfl _ hm
      cases e3 : lookupCell i l' with
      | none => rw [e3] at e2; simp at e2; exact absurd e2 hv
      | some w => rw [e3] at e2; simp at e2; subst e2; exact mem_of_lookupCell e3
    | false =>
      rw [Memory.read_unzeroed, Memory.read_unzeroed, e] at e2
      exact mem_of_lookupCell e2.symm
  exact ⟨key h h' hr, key h' h fun i hi => (hr i hi).symm⟩

/-! ### The shared accesses of Machine/Ops.lean -/

theorem histRead_eq_ok_iff {i : Nat} {v : Int} : histRead c m i = .ok v ↔ i < c.hsize ∧ m.read i = some v := by
  unfold histRead
  split
  · cases m.read i <;> simp_all
  · simp_all

theorem histRead_of_read {i : Nat} {v : Int} (hi : i < c.hsize) (h : m.read i = some v) : histRead c m i = .ok v :=
  histRead_eq_ok_iff.mpr ⟨hi, h⟩

theorem histRead_of_unwritten {i : Nat} (hi : i < c.hsize) (h : m.read i = none) :
    histRead c m i = .error (.unwrittenCounter i) := by
  simp [histRead, hi, h]

theorem storeWrapped_of_lt {i : Nat} (n : Int) (r : HistRun) (hi : i < c.hsize) :
    storeWrapped c i n r = .ok ⟨r.mem.write c.hsize i (wrapCW c.cw n), r.pend || decide (wrapCW c.cw n ≠ n)⟩ := by
  simp [storeWrapped, hi]

end Sys2Proof.Machine
end

