-- ==== Sys2Proof/Laws/State.lean ====
section
/-! SUPPORT. One lemma per field per update of State: what each named update leaves and what it sets. -/

namespace Sys2Proof.Machine

open Sys2Proof

/-! ### clearError -/

@[simp] theorem clearError_cfg (s : State) : (clearError s).cfg = s.cfg := rfl

@[simp] theorem clearError_thresh (s : State) : (clearError s).thresh = s.thresh := rfl

@[simp] theorem clearError_err (s : State) : (clearError s).err = none := rfl

@[simp] theorem clearError_ovf (s : State) : (clearError s).ovf = s.ovf := rfl

@[simp] theorem clearError_rej (s : State) : (clearError s).rej = s.rej := rfl

@[simp] theorem clearError_tblv (s : State) : (clearError s).tblv = s.tblv := rfl

@[simp] theorem clearError_a (s : State) : (clearError s).a = s.a := rfl

@[simp] theorem clearError_b (s : State) : (clearError s).b = s.b := rfl

@[simp] theorem clearError_res (s : State) : (clearError s).res = s.res := rfl

@[simp] theorem clearError_discard (s : State) : (clearError s).discard = s.discard := rfl

@[simp] theorem clearError_hist (s : State) : (clearError s).hist = s.hist := rfl

@[simp] theorem clearError_table (s : State) : (clearError s).table = s.table := rfl

@[simp] theorem clearError_flight (s : State) : (clearError s).flight = s.flight := rfl

@[simp] theorem clearError_inputs (s : State) : (clearError s).inputs = s.inputs := rfl

@[simp] theorem clearError_reply (s : State) : (clearError s).reply = s.reply := rfl

/-! ### finish -/

@[simp] theorem finish_cfg (p : Bool) (s : State) : (finish p s).cfg = s.cfg := rfl

@[simp] theorem finish_thresh (p : Bool) (s : State) : (finish p s).thresh = s.thresh := rfl

@[simp] theorem finish_err (p : Bool) (s : State) : (finish p s).err = s.err := rfl

@[simp] theorem finish_ovf (p : Bool) (s : State) : (finish p s).ovf = (s.ovf || p) := rfl

@[simp] theorem finish_rej (p : Bool) (s : State) : (finish p s).rej = s.rej := rfl

@[simp] theorem finish_tblv (p : Bool) (s : State) : (finish p s).tblv = s.tblv := rfl

@[simp] theorem finish_a (p : Bool) (s : State) : (finish p s).a = s.a := rfl

@[simp] theorem finish_b (p : Bool) (s : State) : (finish p s).b = s.b := rfl

@[simp] theorem finish_res (p : Bool) (s : State) : (finish p s).res = s.res := rfl

@[simp] theorem finish_discard (p : Bool) (s : State) : (finish p s).discard = s.discard := rfl

@[simp] theorem finish_hist (p : Bool) (s : State) : (finish p s).hist = s.hist := rfl

@[simp] theorem finish_table (p : Bool) (s : State) : (finish p s).table = s.table := rfl

@[simp] theorem finish_flight (p : Bool) (s : State) : (finish p s).flight = none := rfl

@[simp] theorem finish_inputs (p : Bool) (s : State) : (finish p s).inputs = s.inputs := rfl

@[simp] theorem finish_reply (p : Bool) (s : State) : (finish p s).reply = s.reply := rfl

/-! ### accept -/

@[simp] theorem accept_cfg (op : BitVec 8) (s : State) : (accept op s).cfg = s.cfg := rfl

@[simp] theorem accept_thresh (op : BitVec 8) (s : State) : (accept op s).thresh = s.thresh := rfl

@[simp] theorem accept_err (op : BitVec 8) (s : State) : (accept op s).err = s.err := rfl

@[simp] theorem accept_ovf (op : BitVec 8) (s : State) : (accept op s).ovf = s.ovf := rfl

@[simp] theorem accept_rej (op : BitVec 8) (s : State) : (accept op s).rej = s.rej := rfl

@[simp] theorem accept_tblv (op : BitVec 8) (s : State) : (accept op s).tblv = s.tblv := rfl

@[simp] theorem accept_a (op : BitVec 8) (s : State) : (accept op s).a = s.a := rfl

@[simp] theorem accept_b (op : BitVec 8) (s : State) : (accept op s).b = s.b := rfl

@[simp] theorem accept_res (op : BitVec 8) (s : State) : (accept op s).res = s.res := rfl

@[simp] theorem accept_discard (op : BitVec 8) (s : State) : (accept op s).discard = s.discard := rfl

@[simp] theorem accept_hist (op : BitVec 8) (s : State) : (accept op s).hist = s.hist := rfl

@[simp] theorem accept_table (op : BitVec 8) (s : State) : (accept op s).table = s.table := rfl

@[simp] theorem accept_flight (op : BitVec 8) (s : State) : (accept op s).flight = some { op := op, a := s.a, b := s.b, thr := s.thresh } := rfl

@[simp] theorem accept_inputs (op : BitVec 8) (s : State) : (accept op s).inputs = s.inputs := rfl

@[simp] theorem accept_reply (op : BitVec 8) (s : State) : (accept op s).reply = s.reply := rfl

/-! ### resetBlock -/

@[simp] theorem resetBlock_cfg (s : State) : (resetBlock s).cfg = s.cfg := rfl

@[simp] theorem resetBlock_thresh (s : State) : (resetBlock s).thresh = 0 := rfl

@[simp] theorem resetBlock_err (s : State) : (resetBlock s).err = none := rfl

@[simp] theorem resetBlock_ovf (s : State) : (resetBlock s).ovf = false := rfl

@[simp] theorem resetBlock_rej (s : State) : (resetBlock s).rej = false := rfl

@[simp] theorem resetBlock_tblv (s : State) : (resetBlock s).tblv = false := rfl

@[simp] theorem resetBlock_a (s : State) : (resetBlock s).a = 0 := rfl

@[simp] theorem resetBlock_b (s : State) : (resetBlock s).b = 0 := rfl

@[simp] theorem resetBlock_res (s : State) : (resetBlock s).res = 0 := rfl

@[simp] theorem resetBlock_discard (s : State) : (resetBlock s).discard = 0 := rfl

@[simp] theorem resetBlock_hist (s : State) : (resetBlock s).hist = Memory.unwritten := rfl

@[simp] theorem resetBlock_table (s : State) : (resetBlock s).table = [] := rfl

@[simp] theorem resetBlock_flight (s : State) : (resetBlock s).flight = none := rfl

@[simp] theorem resetBlock_inputs (s : State) : (resetBlock s).inputs = s.inputs := rfl

@[simp] theorem resetBlock_reply (s : State) : (resetBlock s).reply = s.reply := rfl

/-! ### resetOf -/

@[simp] theorem State.resetOf_cfg (c : Config) : (State.resetOf c).cfg = c := rfl

@[simp] theorem State.resetOf_thresh (c : Config) : (State.resetOf c).thresh = 0 := rfl

@[simp] theorem State.resetOf_err (c : Config) : (State.resetOf c).err = none := rfl

@[simp] theorem State.resetOf_ovf (c : Config) : (State.resetOf c).ovf = false := rfl

@[simp] theorem State.resetOf_rej (c : Config) : (State.resetOf c).rej = false := rfl

@[simp] theorem State.resetOf_tblv (c : Config) : (State.resetOf c).tblv = false := rfl

@[simp] theorem State.resetOf_a (c : Config) : (State.resetOf c).a = 0 := rfl

@[simp] theorem State.resetOf_b (c : Config) : (State.resetOf c).b = 0 := rfl

@[simp] theorem State.resetOf_res (c : Config) : (State.resetOf c).res = 0 := rfl

@[simp] theorem State.resetOf_discard (c : Config) : (State.resetOf c).discard = 0 := rfl

@[simp] theorem State.resetOf_hist (c : Config) : (State.resetOf c).hist = Memory.unwritten := rfl

@[simp] theorem State.resetOf_table (c : Config) : (State.resetOf c).table = [] := rfl

@[simp] theorem State.resetOf_flight (c : Config) : (State.resetOf c).flight = none := rfl

@[simp] theorem State.resetOf_inputs (c : Config) : (State.resetOf c).inputs = [] := rfl

@[simp] theorem State.resetOf_reply (c : Config) : (State.resetOf c).reply = .nothing := rfl

/-! ### latchError -/

@[simp] theorem latchError_cfg (e : ErrCode) (s : State) : (latchError e s).cfg = s.cfg := by
  unfold latchError; split <;> rfl

@[simp] theorem latchError_thresh (e : ErrCode) (s : State) : (latchError e s).thresh = s.thresh := by
  unfold latchError; split <;> rfl

@[simp] theorem latchError_ovf (e : ErrCode) (s : State) : (latchError e s).ovf = s.ovf := by
  unfold latchError; split <;> rfl

@[simp] theorem latchError_rej (e : ErrCode) (s : State) : (latchError e s).rej = s.rej := by
  unfold latchError; split <;> rfl

@[simp] theorem latchError_tblv (e : ErrCode) (s : State) : (latchError e s).tblv = s.tblv := by
  unfold latchError; split <;> rfl

@[simp] theorem latchError_a (e : ErrCode) (s : State) : (latchError e s).a = s.a := by
  unfold latchError; split <;> rfl

@[simp] theorem latchError_b (e : ErrCode) (s : State) : (latchError e s).b = s.b := by
  unfold latchError; split <;> rfl

@[simp] theorem latchError_res (e : ErrCode) (s : State) : (latchError e s).res = s.res := by
  unfold latchError; split <;> rfl

@[simp] theorem latchError_discard (e : ErrCode) (s : State) : (latchError e s).discard = s.discard := by
  unfold latchError; split <;> rfl

@[simp] theorem latchError_hist (e : ErrCode) (s : State) : (latchError e s).hist = s.hist := by
  unfold latchError; split <;> rfl

@[simp] theorem latchError_table (e : ErrCode) (s : State) : (latchError e s).table = s.table := by
  unfold latchError; split <;> rfl

@[simp] theorem latchError_flight (e : ErrCode) (s : State) : (latchError e s).flight = s.flight := by
  unfold latchError; split <;> rfl

@[simp] theorem latchError_inputs (e : ErrCode) (s : State) : (latchError e s).inputs = s.inputs := by
  unfold latchError; split <;> rfl

@[simp] theorem latchError_reply (e : ErrCode) (s : State) : (latchError e s).reply = s.reply := by
  unfold latchError; split <;> rfl

/-- The first error is kept, the next one taken only when none is latched (R102). -/
@[simp] theorem latchError_err (e : ErrCode) (s : State) : (latchError e s).err = some (s.err.getD e) := by
  unfold latchError; split <;> simp_all

theorem latchError_of_none (e : ErrCode) (s : State) (h : s.err = none) : latchError e s = { s with err := some e } := by
  simp [latchError, h]

theorem latchError_of_some (e d : ErrCode) (s : State) (h : s.err = some d) : latchError e s = s := by
  simp [latchError, h]

/-- With no pending overflow a completion only clears the record (R54). -/
theorem finish_false (s : State) : finish false s = { s with flight := none } := by
  simp [finish]

theorem modelFaultOf_eq_none (s : State) : modelFaultOf s = none ↔ s.ovf = false := by
  unfold modelFaultOf; cases s.ovf <;> simp

theorem modelFaultOf_of_ovf (s : State) (h : s.ovf = true) : modelFaultOf s = some .counterOverflow := by
  simp [modelFaultOf, h]

end Sys2Proof.Machine
end

