-- ==== Sys2Proof/Laws/Commands.lean ====
section
/-! SUPPORT. What a completion can do (R54): the shared `complete`, an equation for each command with its record in flight, and the
frame of every command at once. -/

namespace Sys2Proof.Machine

open Sys2Proof

variable {s t : State} {f : Flight}

/-! ### The shared completion -/

theorem complete_idle (e : Flight → Except Fault (State × Bool)) (h : s.flight = none) :
    complete s e = .refused .engineIdle := by
  simp [complete, h]

theorem complete_ok {e : Flight → Except Fault (State × Bool)} {u : State} {p : Bool} (h : s.flight = some f)
    (he : e f = .ok (u, p)) : complete s e = .next (finish p u) := by
  simp [complete, h, he]

theorem complete_error {e : Flight → Except Fault (State × Bool)} {r : Fault} (h : s.flight = some f)
    (he : e f = .error r) : complete s e = .fault r := by
  simp [complete, h, he]

/-- A completion answers a state exactly when a command is in flight and its effect meets no model fault (R54). -/
theorem complete_next_iff {e : Flight → Except Fault (State × Bool)} :
    complete s e = .next t ↔ ∃ f u p, s.flight = some f ∧ e f = .ok (u, p) ∧ t = finish p u := by
  unfold complete
  cases hf : s.flight with
  | none => simp
  | some g =>
    cases he : e g with
    | error r => simp [he]
    | ok up =>
      obtain ⟨u, p⟩ := up
      simp only [he, Option.some.injEq, Host.Outcome.next.injEq]
      constructor
      · rintro rfl; exact ⟨g, u, p, rfl, he, rfl⟩
      · rintro ⟨_, u', p', rfl, he', rfl⟩
        rw [he] at he'
        cases he'
        rfl

/-! ### One equation per command -/

theorem execNop_eq (h : s.flight = some f) : execNop s = .next { s with flight := none } := by
  rw [execNop, complete_ok h rfl, finish_false]

theorem execPar_eq (h : s.flight = some f) : execPar s = .next { s with res := parWord s.cfg f, flight := none } := by
  rw [execPar, complete_ok h rfl, finish_false]

theorem execPopc_eq (h : s.flight = some f) : execPopc s = .next { s with res := popcWord s.cfg f, flight := none } := by
  rw [execPopc, complete_ok h rfl, finish_false]

theorem execTblbuild_eq (h : s.flight = some f) :
    execTblbuild s = .next { s with table := buildTable s.cfg (opT f), tblv := true, flight := none } := by
  rw [execTblbuild, complete_ok h rfl, finish_false]

theorem execTblrd_eq (h : s.flight = some f) {x : TableEntry} (hx : tabRead s.table (opE s.cfg f) = .ok x) :
    execTblrd s = .next { s with res := packResult x.rej x.dcnt x.label, flight := none } := by
  rw [execTblrd, complete_ok (u := { s with res := packResult x.rej x.dcnt x.label }) (p := false) h (by simp [hx]), finish_false]

theorem execDec_eq (h : s.flight = some f) {v : Verdict}
    (hv : tableDecode s.cfg s.table (opM s.cfg f) (opT f) = .ok v) :
    execDec s = .next { s with res := v.word, rej := v.rej, flight := none } := by
  rw [execDec, complete_ok (u := { s with res := v.word, rej := v.rej }) (p := false) h (by simp [hv]), finish_false]

theorem execProj_eq (h : s.flight = some f) {v : Verdict}
    (hv : projWalk s.cfg s.table (opM s.cfg f) s.cfg.nb 0 0 0 = .ok v) :
    execProj s = .next { s with res := v.word, flight := none } := by
  rw [execProj, complete_ok (u := { s with res := v.word }) (p := false) h (by simp [hv]), finish_false]

theorem execProjp_eq (h : s.flight = some f) :
    execProjp s = .next { s with res := BitVec.ofNat 64 (parityLabel s.cfg (opM s.cfg f)), flight := none } := by
  rw [execProjp, complete_ok h rfl, finish_false]

theorem execHclr_eq (h : s.flight = some f) : execHclr s = .next { s with hist := Memory.cleared, flight := none } := by
  rw [execHclr, complete_ok h rfl, finish_false]

theorem execHacc_eq (h : s.flight = some f) {r : HistRun}
    (hr : accumulate s.cfg s.hist (opI s.cfg f) (sampleDelta (opR f)) = .ok r) :
    execHacc s = .next { s with hist := r.mem, ovf := s.ovf || r.pend, flight := none } := by
  rw [execHacc, complete_ok (u := { s with hist := r.mem }) (p := r.pend) h (by simp [hr])]
  rfl

theorem execHwr_eq (h : s.flight = some f) (hi : opI s.cfg f < s.cfg.hsize) :
    execHwr s = .next { s with
      hist := s.hist.write s.cfg.hsize (opI s.cfg f) (hwrValue s.cfg f.b)
      ovf := s.ovf || hwrOverflows s.cfg f.b
      flight := none } := by
  rw [execHwr, complete_ok (u := { s with hist := s.hist.write s.cfg.hsize (opI s.cfg f) (hwrValue s.cfg f.b) })
    (p := hwrOverflows s.cfg f.b) h (by simp [hi])]
  rfl

theorem execHrd_eq (h : s.flight = some f) {v : Int} (hv : histRead s.cfg s.hist (opI s.cfg f) = .ok v) :
    execHrd s = .next { s with res := BitVec.ofInt 64 v, flight := none } := by
  rw [execHrd, complete_ok (u := { s with res := BitVec.ofInt 64 v }) (p := false) h (by simp [hv]), finish_false]

theorem execSamp_reject (h : s.flight = some f) {run : Nat}
    (hv : tableDecode s.cfg s.table (opM s.cfg f) (opT f) = .ok (.reject run)) :
    execSamp s = .next { s with discard := s.discard + 1, res := (Verdict.reject run).word, rej := true, flight := none } := by
  rw [execSamp, complete_ok (u := { s with discard := s.discard + 1, res := (Verdict.reject run).word, rej := true })
    (p := false) h (by simp [hv]), finish_false]

theorem execSamp_accept (h : s.flight = some f) {lab run : Nat} {r : HistRun}
    (hv : tableDecode s.cfg s.table (opM s.cfg f) (opT f) = .ok (.accept lab run))
    (hr : accumulate s.cfg s.hist lab (sampleDelta (opR f)) = .ok r) :
    execSamp s = .next { s with
      hist := r.mem, res := (Verdict.accept lab run).word, rej := false, ovf := s.ovf || r.pend, flight := none } := by
  rw [execSamp, complete_ok (u := { s with hist := r.mem, res := (Verdict.accept lab run).word, rej := false }) (p := r.pend) h
    (by simp [hv, hr])]
  rfl

theorem execFwht_eq (h : s.flight = some f) {r : HistRun} (hr : fwhtLoop s.cfg ⟨s.hist, false⟩ = .ok r) :
    execFwht s = .next { s with hist := r.mem, ovf := s.ovf || r.pend, flight := none } := by
  rw [execFwht, complete_ok (u := { s with hist := r.mem }) (p := r.pend) h (by simp [hr])]
  rfl

/-! ### What a completed command was -/

theorem execTblrd_next (h : execTblrd s = .next t) :
    ∃ f x, s.flight = some f ∧ tabRead s.table (opE s.cfg f) = .ok x ∧
      t = { s with res := packResult x.rej x.dcnt x.label, flight := none } := by
  obtain ⟨f, u, p, hf, he, -⟩ := complete_next_iff.mp h
  cases hx : tabRead s.table (opE s.cfg f) with
  | error r => simp [hx] at he
  | ok x => exact ⟨f, x, hf, hx, by rw [execTblrd_eq hf hx] at h; cases h; rfl⟩

theorem execDec_next (h : execDec s = .next t) :
    ∃ f v, s.flight = some f ∧ tableDecode s.cfg s.table (opM s.cfg f) (opT f) = .ok v ∧
      t = { s with res := v.word, rej := v.rej, flight := none } := by
  obtain ⟨f, u, p, hf, he, -⟩ := complete_next_iff.mp h
  cases hx : tableDecode s.cfg s.table (opM s.cfg f) (opT f) with
  | error r => simp [hx] at he
  | ok v => exact ⟨f, v, hf, hx, by rw [execDec_eq hf hx] at h; cases h; rfl⟩

theorem execProj_next (h : execProj s = .next t) :
    ∃ f v, s.flight = some f ∧ projWalk s.cfg s.table (opM s.cfg f) s.cfg.nb 0 0 0 = .ok v ∧
      t = { s with res := v.word, flight := none } := by
  obtain ⟨f, u, p, hf, he, -⟩ := complete_next_iff.mp h
  cases hx : projWalk s.cfg s.table (opM s.cfg f) s.cfg.nb 0 0 0 with
  | error r => simp [hx] at he
  | ok v => exact ⟨f, v, hf, hx, by rw [execProj_eq hf hx] at h; cases h; rfl⟩

theorem execHacc_next (h : execHacc s = .next t) :
    ∃ f r, s.flight = some f ∧ accumulate s.cfg s.hist (opI s.cfg f) (sampleDelta (opR f)) = .ok r ∧
      t = { s with hist := r.mem, ovf := s.ovf || r.pend, flight := none } := by
  obtain ⟨f, u, p, hf, he, -⟩ := complete_next_iff.mp h
  cases hx : accumulate s.cfg s.hist (opI s.cfg f) (sampleDelta (opR f)) with
  | error r => simp [hx] at he
  | ok r => exact ⟨f, r, hf, hx, by rw [execHacc_eq hf hx] at h; cases h; rfl⟩

theorem execHwr_next (h : execHwr s = .next t) :
    ∃ f, s.flight = some f ∧ opI s.cfg f < s.cfg.hsize ∧
      t = { s with
        hist := s.hist.write s.cfg.hsize (opI s.cfg f) (hwrValue s.cfg f.b)
        ovf := s.ovf || hwrOverflows s.cfg f.b
        flight := none } := by
  obtain ⟨f, u, p, hf, he, -⟩ := complete_next_iff.mp h
  by_cases hi : opI s.cfg f < s.cfg.hsize
  · exact ⟨f, hf, hi, by rw [execHwr_eq hf hi] at h; cases h; rfl⟩
  · simp [hi] at he

theorem execHrd_next (h : execHrd s = .next t) :
    ∃ f v, s.flight = some f ∧ histRead s.cfg s.hist (opI s.cfg f) = .ok v ∧
      t = { s with res := BitVec.ofInt 64 v, flight := none } := by
  obtain ⟨f, u, p, hf, he, -⟩ := complete_next_iff.mp h
  cases hx : histRead s.cfg s.hist (opI s.cfg f) with
  | error r => simp [hx] at he
  | ok v => exact ⟨f, v, hf, hx, by rw [execHrd_eq hf hx] at h; cases h; rfl⟩

theorem execSamp_next (h : execSamp s = .next t) :
    ∃ f, s.flight = some f ∧
      ((∃ run, tableDecode s.cfg s.table (opM s.cfg f) (opT f) = .ok (.reject run) ∧
        t = { s with discard := s.discard + 1, res := (Verdict.reject run).word, rej := true, flight := none }) ∨
      (∃ lab run r, tableDecode s.cfg s.table (opM s.cfg f) (opT f) = .ok (.accept lab run) ∧
        accumulate s.cfg s.hist lab (sampleDelta (opR f)) = .ok r ∧
        t = { s with
          hist := r.mem, res := (Verdict.accept lab run).word, rej := false, ovf := s.ovf || r.pend, flight := none })) := by
  obtain ⟨f, u, p, hf, he, -⟩ := complete_next_iff.mp h
  refine ⟨f, hf, ?_⟩
  cases hx : tableDecode s.cfg s.table (opM s.cfg f) (opT f) with
  | error r => simp [hx] at he
  | ok v =>
    cases v with
    | reject run => exact .inl ⟨run, rfl, by rw [execSamp_reject hf hx] at h; cases h; rfl⟩
    | accept lab run =>
      cases hr : accumulate s.cfg s.hist lab (sampleDelta (opR f)) with
      | error r => simp [hx, hr] at he
      | ok r => exact .inr ⟨lab, run, r, rfl, hr, by rw [execSamp_accept hf hx hr] at h; cases h; rfl⟩

theorem execFwht_next (h : execFwht s = .next t) :
    ∃ f r, s.flight = some f ∧ fwhtLoop s.cfg ⟨s.hist, false⟩ = .ok r ∧
      t = { s with hist := r.mem, ovf := s.ovf || r.pend, flight := none } := by
  obtain ⟨f, u, p, hf, he, -⟩ := complete_next_iff.mp h
  cases hx : fwhtLoop s.cfg ⟨s.hist, false⟩ with
  | error r => simp [hx] at he
  | ok r => exact ⟨f, r, hf, rfl, by rw [execFwht_eq hf hx] at h; cases h; rfl⟩

/-! ### The frame of every command -/

/-- A command answers only with one in flight (R13). -/
theorem exec_idle (i : Instr) (h : s.flight = none) : exec i s = .refused .engineIdle := by
  cases i <;> simp only [exec, execNop, execPar, execPopc, execTblbuild, execTblrd, execDec, execProj, execProjp, execHclr, execHacc,
    execHwr, execHrd, execSamp, execFwht] <;> exact complete_idle _ h

theorem exec_next_flight (i : Instr) (h : exec i s = .next t) : ∃ f, s.flight = some f := by
  cases hf : s.flight with
  | none => rw [exec_idle i hf] at h; cases h
  | some f => exact ⟨f, rfl⟩

/-- What a completed command can have changed, whatever the command: the columns "writes" of R58. -/
theorem exec_next_frame (i : Instr) (h : exec i s = .next t) :
    ∃ p : Bool, t = { s with
      res := t.res, rej := t.rej, tblv := t.tblv, discard := t.discard, hist := t.hist, table := t.table
      ovf := s.ovf || p, flight := none } ∧
    (i ∉ [Instr.par, .popc, .tblrd, .dec, .proj, .projp, .hrd, .samp] → t.res = s.res) ∧
    (i ≠ .dec → i ≠ .samp → t.rej = s.rej) ∧
    (t.tblv = (s.tblv || decide (i = .tblbuild))) ∧
    (i ≠ .tblbuild → t.table = s.table) ∧
    (i ≠ .samp → t.discard = s.discard) ∧
    (i ∉ [Instr.hclr, .hacc, .hwr, .samp, .fwht] → t.hist = s.hist) ∧
    (i ∉ [Instr.hacc, .hwr, .samp, .fwht] → p = false) := by
  obtain ⟨f, hf⟩ := exec_next_flight i h
  cases i with
  | nop => rw [exec, execNop_eq hf] at h; cases h; exact ⟨false, by simp⟩
  | par => rw [exec, execPar_eq hf] at h; cases h; exact ⟨false, by simp⟩
  | popc => rw [exec, execPopc_eq hf] at h; cases h; exact ⟨false, by simp⟩
  | tblbuild => rw [exec, execTblbuild_eq hf] at h; cases h; exact ⟨false, by simp⟩
  | tblrd => obtain ⟨_, _, _, _, rfl⟩ := execTblrd_next h; exact ⟨false, by simp⟩
  | dec => obtain ⟨_, _, _, _, rfl⟩ := execDec_next h; exact ⟨false, by simp⟩
  | proj => obtain ⟨_, _, _, _, rfl⟩ := execProj_next h; exact ⟨false, by simp⟩
  | projp => rw [exec, execProjp_eq hf] at h; cases h; exact ⟨false, by simp⟩
  | hclr => rw [exec, execHclr_eq hf] at h; cases h; exact ⟨false, by simp⟩
  | hacc => obtain ⟨_, r, _, _, rfl⟩ := execHacc_next h; exact ⟨r.pend, by simp⟩
  | hwr => obtain ⟨g, _, _, rfl⟩ := execHwr_next h; exact ⟨hwrOverflows s.cfg g.b, by simp⟩
  | hrd => obtain ⟨_, _, _, _, rfl⟩ := execHrd_next h; exact ⟨false, by simp⟩
  | samp =>
    obtain ⟨_, _, ⟨_, _, rfl⟩ | ⟨_, _, r, _, _, rfl⟩⟩ := execSamp_next h
    · exact ⟨false, by simp⟩
    · exact ⟨r.pend, by simp⟩
  | fwht => obtain ⟨_, r, _, _, rfl⟩ := execFwht_next h; exact ⟨r.pend, by simp⟩

end Sys2Proof.Machine
end

