-- ==== Sys2Proof/Laws/Decoder.lean ====
section
/-! SUPPORT. The decoder (R67 to R72): a built table read back, the entry of a batch as a slice of the word, and the two walks over a
built table in closed form. -/

namespace Sys2Proof.Machine

open Sys2Proof

variable (c : Config) (m T : Nat)

/-! ### A built table -/

theorem length_tableFrom (n e : Nat) : (tableFrom c T n e).length = n := by
  induction n generalizing e with
  | zero => rfl
  | succ n ih => simp [tableFrom, ih]

theorem getElem?_tableFrom (n e k : Nat) (h : k < n) : (tableFrom c T n e)[k]? = some (entry c (e + k) T) := by
  induction n generalizing e k with
  | zero => omega
  | succ n ih =>
    cases k with
    | zero => simp [tableFrom]
    | succ k =>
      simp only [tableFrom, List.getElem?_cons_succ]
      rw [ih (e + 1) k (by omega)]
      congr 2
      omega

theorem length_buildTable : (buildTable c T).length = 2 ^ c.tb := length_tableFrom c T _ _

/-- A built table holds entry(e, T) at e (R74). -/
theorem getElem?_buildTable {e : Nat} (h : e < 2 ^ c.tb) : (buildTable c T)[e]? = some (entry c e T) := by
  have := getElem?_tableFrom c T c.tsize 0 e h
  simpa [buildTable] using this

theorem tabRead_buildTable {e : Nat} (h : e < 2 ^ c.tb) : tabRead (buildTable c T) e = .ok (entry c e T) := by
  simp [tabRead, getElem?_buildTable c T h]

theorem mem_buildTable {x : TableEntry} (h : x ∈ buildTable c T) : ∃ e, e < 2 ^ c.tb ∧ x = entry c e T := by
  obtain ⟨e, he, rfl⟩ := List.getElem_of_mem h
  rw [length_buildTable] at he
  refine ⟨e, he, ?_⟩
  have h1 := getElem?_buildTable c T he
  rw [List.getElem?_eq_some_iff] at h1
  exact h1.2

/-! ### Entries and batches -/

theorem entry_label (e : Nat) : (entry c e T).label = labelBits (fun j => maj c (blockCount c e j)) c.tf := rfl

theorem entry_dcnt (e : Nat) : (entry c e T).dcnt = countBits (fun j => dis c (blockCount c e j)) c.tf := rfl

theorem entry_rej (e : Nat) : (entry c e T).rej = decide (T < (entry c e T).dcnt) := rfl

/-- The count of an entry does not depend on the threshold (R70). -/
theorem entry_dcnt_threshold (e T' : Nat) : (entry c e T).dcnt = (entry c e T').dcnt := rfl

theorem entry_dcnt_le (e : Nat) : (entry c e T).dcnt ≤ c.tf := countBits_le _ _

theorem batch_lt (k : Nat) : batch c m k < 2 ^ c.tb := field_lt _ _ _

/-- Sub-block j of batch k is block k·TF + j of the word (R67). -/
theorem blockCount_batch {k j : Nat} (h : j < c.tf) : blockCount c (batch c m k) j = blockCount c m (k * c.tf + j) := by
  unfold blockCount batch
  rw [field_field]
  · congr 2
    show k * (c.rf * c.tf) + j * c.rf = (k * c.tf + j) * c.rf
    ring
  · show j * c.rf + c.rf ≤ c.rf * c.tf
    have : (j + 1) * c.rf ≤ c.tf * c.rf := Nat.mul_le_mul_right _ h
    nlinarith

theorem entry_batch_label (k : Nat) :
    (entry c (batch c m k) T).label = labelBits (fun j => maj c (blockCount c m (k * c.tf + j))) c.tf :=
  labelBits_congr _ _ _ fun j hj => by rw [blockCount_batch c m hj]

theorem entry_batch_dcnt (k : Nat) : (entry c (batch c m k) T).dcnt = batchCount c m k :=
  countBits_congr _ _ _ fun j hj => by rw [blockCount_batch c m hj]

/-! ### Counts and labels of the first k batches -/

/-- The count of disagreeing blocks in the first k batches. -/
def countUpTo (k : Nat) : Nat := countBits (fun b => dis c (blockCount c m b)) (k * c.tf)

/-- The label bits of the first k batches. -/
def labelUpTo (k : Nat) : Nat := labelBits (fun b => maj c (blockCount c m b)) (k * c.tf)

theorem countUpTo_zero : countUpTo c m 0 = 0 := by simp [countUpTo, countBits]

theorem labelUpTo_zero : labelUpTo c m 0 = 0 := by simp [labelUpTo, labelBits]

theorem countUpTo_succ (k : Nat) : countUpTo c m (k + 1) = countUpTo c m k + batchCount c m k := by
  unfold countUpTo batchCount
  rw [Nat.succ_mul, countBits_add]

theorem labelUpTo_succ (k : Nat) :
    labelUpTo c m (k + 1) = labelUpTo c m k ||| ((entry c (batch c m k) T).label <<< (k * c.tf)) := by
  rw [entry_batch_label]
  unfold labelUpTo
  rw [Nat.succ_mul, labelBits_or_shift]

theorem countUpTo_nb : countUpTo c m c.nb = directCount c m := by
  unfold countUpTo directCount; rw [c.nb_mul_tf]

theorem labelUpTo_nb : labelUpTo c m c.nb = directLabel c m := by
  unfold labelUpTo directLabel; rw [c.nb_mul_tf]

theorem countUpTo_mono {j k : Nat} (h : j ≤ k) : countUpTo c m j ≤ countUpTo c m k := by
  induction h with
  | refl => exact le_refl _
  | step _ ih => rw [countUpTo_succ]; omega

theorem countUpTo_le_direct {k : Nat} (h : k ≤ c.nb) : countUpTo c m k ≤ directCount c m := by
  rw [← countUpTo_nb]; exact countUpTo_mono c m h

theorem batchCount_le (k : Nat) : batchCount c m k ≤ countUpTo c m (k + 1) := by
  rw [countUpTo_succ]; omega

theorem runUpTo_eq (k : Nat) : runUpTo c m k = countUpTo c m (k + 1) := by
  induction k with
  | zero => simp [runUpTo, countUpTo_succ, countUpTo_zero, entry_batch_dcnt, List.range_succ]
  | succ k ih =>
    rw [countUpTo_succ, ← ih]
    unfold runUpTo
    rw [List.range_succ, List.map_append, List.sum_append]
    simp [entry_batch_dcnt]

theorem directCount_le : directCount c m ≤ c.is := countBits_le _ _

theorem directLabel_lt : directLabel c m < 2 ^ c.is := labelBits_lt _ _

theorem parityLabel_lt : parityLabel c m < 2 ^ c.is := labelBits_lt _ _

/-! ### The walks over a built table -/

/-- Batch k triggers a reject (R71). -/
def trigger (k : Nat) : Bool :=
  match c.tscope with
  | .batch => decide (T < batchCount c m k)
  | .word => decide (T < countUpTo c m (k + 1))

theorem triggers_entry (k : Nat) :
    triggers c T (entry c (batch c m k) T) (countUpTo c m k + (entry c (batch c m k) T).dcnt) = trigger c m T k := by
  unfold triggers trigger
  cases c.tscope with
  | batch => simp only [entry_rej, entry_batch_dcnt]
  | word => simp only [entry_batch_dcnt, countUpTo_succ]

/-- One turn of the loop of R71 over a built table. -/
theorem decodeWalk_succ (n k : Nat) :
    decodeWalk c (buildTable c T) m T (n + 1) k (countUpTo c m k) (labelUpTo c m k) =
      if trigger c m T k then .ok (.reject (countUpTo c m (k + 1)))
      else decodeWalk c (buildTable c T) m T n (k + 1) (countUpTo c m (k + 1)) (labelUpTo c m (k + 1)) := by
  have e : countUpTo c m k + (entry c (batch c m k) T).dcnt = countUpTo c m (k + 1) := by
    rw [countUpTo_succ, entry_batch_dcnt]
  rw [decodeWalk, tabRead_buildTable c T (batch_lt c m k)]
  simp only [triggers_entry]
  rw [e, ← labelUpTo_succ]

theorem decodeWalk_none {n k : Nat} (h : ∀ j, k ≤ j → j < k + n → trigger c m T j = false) :
    decodeWalk c (buildTable c T) m T n k (countUpTo c m k) (labelUpTo c m k) =
      .ok (.accept (labelUpTo c m (k + n)) (countUpTo c m (k + n))) := by
  induction n generalizing k with
  | zero => rfl
  | succ n ih =>
    rw [decodeWalk_succ, h k (le_refl k) (by omega), ih fun j h1 h2 => h j (by omega) (by omega)]
    have : k + 1 + n = k + (n + 1) := by omega
    simp [this]

theorem decodeWalk_first {n k j : Nat} (hj : j < n) (ht : trigger c m T (k + j) = true)
    (h : ∀ i, i < j → trigger c m T (k + i) = false) :
    decodeWalk c (buildTable c T) m T n k (countUpTo c m k) (labelUpTo c m k) =
      .ok (.reject (countUpTo c m (k + j + 1))) := by
  induction j generalizing n k with
  | zero =>
    obtain ⟨n, rfl⟩ : ∃ n', n = n' + 1 := ⟨n - 1, by omega⟩
    rw [decodeWalk_succ, show trigger c m T k = true from ht]
    rfl
  | succ j ih =>
    obtain ⟨n, rfl⟩ : ∃ n', n = n' + 1 := ⟨n - 1, by omega⟩
    have h0 := h 0 (by omega)
    rw [decodeWalk_succ, show trigger c m T k = false from h0]
    have e : k + 1 + j = k + (j + 1) := by omega
    rw [if_neg (by simp), ih (by omega) (by rw [e]; exact ht) (fun i hi => by
      have := h (i + 1) (by omega); rw [show k + 1 + i = k + (i + 1) by omega]; exact this), e]

/-- No batch triggers: the word is accepted with its label and count (R71). -/
theorem tableDecode_accept (h : ∀ k, k < c.nb → trigger c m T k = false) :
    tableDecode c (buildTable c T) m T = .ok (.accept (directLabel c m) (directCount c m)) := by
  have := decodeWalk_none c m T (n := c.nb) (k := 0) fun j _ hj => h j (by omega)
  rw [countUpTo_zero, labelUpTo_zero, Nat.zero_add, countUpTo_nb, labelUpTo_nb] at this
  exact this

/-- Batch k is the first to trigger: the word is rejected there (R71). -/
theorem tableDecode_reject {k : Nat} (hk : k < c.nb) (ht : trigger c m T k = true)
    (h : ∀ j, j < k → trigger c m T j = false) :
    tableDecode c (buildTable c T) m T = .ok (.reject (countUpTo c m (k + 1))) := by
  have := decodeWalk_first c m T (k := 0) hk (by simpa using ht) fun i hi => by simpa using h i hi
  rw [countUpTo_zero, labelUpTo_zero, Nat.zero_add] at this
  exact this

/-- The first batch that triggers, if one does. -/
theorem exists_first_trigger (h : ∃ k, k < c.nb ∧ trigger c m T k = true) :
    ∃ k, k < c.nb ∧ trigger c m T k = true ∧ ∀ j, j < k → trigger c m T j = false := by
  classical
  refine ⟨Nat.find h, (Nat.find_spec h).1, (Nat.find_spec h).2, fun j hj => ?_⟩
  have := Nat.find_min h hj
  have hn := (Nat.find_spec h).1
  cases hb : trigger c m T j with
  | false => rfl
  | true => exact absurd ⟨by omega, hb⟩ this

/-- The direct method rejects exactly where some batch triggers (R72). -/
theorem directRejects_iff : directRejects c m T = true ↔ ∃ k, k < c.nb ∧ trigger c m T k = true := by
  unfold directRejects trigger
  cases c.tscope with
  | batch => simp
  | word =>
    simp only [decide_eq_true_eq]
    constructor
    · intro h
      refine ⟨c.nb - 1, by have := c.nb_pos; omega, ?_⟩
      rw [Nat.sub_add_cancel c.nb_pos, countUpTo_nb]
      exact h
    · rintro ⟨k, hk, h⟩
      exact Nat.lt_of_lt_of_le h (countUpTo_le_direct c m hk)

theorem direct_none_iff : direct c m T = none ↔ directRejects c m T = true := by
  unfold direct; split <;> simp_all

theorem direct_some_iff {lab d : Nat} :
    direct c m T = some (lab, d) ↔ directRejects c m T = false ∧ lab = directLabel c m ∧ d = directCount c m := by
  unfold direct
  cases directRejects c m T with
  | true => simp
  | false => simp [eq_comm]

/-- A rejected word: the table method rejects it too, with a count of at most the word's (R72). -/
theorem tableDecode_of_direct_none (h : direct c m T = none) :
    ∃ k, k < c.nb ∧ tableDecode c (buildTable c T) m T = .ok (.reject (countUpTo c m (k + 1))) := by
  obtain ⟨k, hk, ht, hf⟩ := exists_first_trigger c m T ((directRejects_iff c m T).mp ((direct_none_iff c m T).mp h))
  exact ⟨k, hk, tableDecode_reject c m T hk ht hf⟩

/-- An accepted word: the table method gives the same label and count (R72). -/
theorem tableDecode_of_direct_some {lab d : Nat} (h : direct c m T = some (lab, d)) :
    tableDecode c (buildTable c T) m T = .ok (.accept lab d) := by
  obtain ⟨h1, rfl, rfl⟩ := (direct_some_iff c m T).mp h
  refine tableDecode_accept c m T fun k hk => ?_
  cases hb : trigger c m T k with
  | false => rfl
  | true =>
    have := (directRejects_iff c m T).mpr ⟨k, hk, hb⟩
    rw [h1] at this; cases this

/-- Over a built table every word gets a verdict (R71). -/
theorem tableDecode_ok : ∃ v, tableDecode c (buildTable c T) m T = .ok v ∧
    ((∃ lab d, direct c m T = some (lab, d) ∧ v = .accept lab d) ∨
      (direct c m T = none ∧ ∃ k, k < c.nb ∧ v = .reject (countUpTo c m (k + 1)))) := by
  cases h : direct c m T with
  | none => obtain ⟨k, hk, e⟩ := tableDecode_of_direct_none c m T h; exact ⟨_, e, .inr ⟨rfl, k, hk, rfl⟩⟩
  | some p => obtain ⟨lab, d⟩ := p; exact ⟨_, tableDecode_of_direct_some c m T h, .inl ⟨lab, d, rfl, rfl⟩⟩

/-- PROJ's walk over a built table gives the majority label and the whole count, whatever the threshold (R77). -/
theorem projWalk_buildTable {n k : Nat} :
    projWalk c (buildTable c T) m n k (countUpTo c m k) (labelUpTo c m k) =
      .ok (.accept (labelUpTo c m (k + n)) (countUpTo c m (k + n))) := by
  induction n generalizing k with
  | zero => rfl
  | succ n ih =>
    have e : countUpTo c m k + (entry c (batch c m k) T).dcnt = countUpTo c m (k + 1) := by
      rw [countUpTo_succ, entry_batch_dcnt]
    rw [projWalk, tabRead_buildTable c T (batch_lt c m k)]
    simp only
    rw [e, ← labelUpTo_succ, ih]
    have : k + 1 + n = k + (n + 1) := by omega
    rw [this]

theorem projWalk_direct :
    projWalk c (buildTable c T) m c.nb 0 0 0 = .ok (.accept (directLabel c m) (directCount c m)) := by
  have := projWalk_buildTable c m T (n := c.nb) (k := 0)
  rw [countUpTo_zero, labelUpTo_zero, Nat.zero_add, countUpTo_nb, labelUpTo_nb] at this
  exact this

end Sys2Proof.Machine
end

