-- ==== Sys2Proof/Laws/Port.lean ====
section
/-! SUPPORT. The register port (R15 to R31, R52, R53): the index checks as bounds, the outcome of an issue, and what a write of each
register leaves. -/

namespace Sys2Proof.Machine

open Sys2Proof

/-! ### Decoding -/

/-- A known OP is the OP of the command it selects (R58). -/
theorem decodeOp_eq_some {op : BitVec 8} {i : Instr} : decodeOp op = some i ↔ op = i.opcode := by
  constructor
  · intro h
    have : ∀ op : BitVec 8, ∀ i, decodeOp op = some i → op = i.opcode := by decide
    exact this op i h
  · rintro rfl
    cases i <;> rfl

theorem decode_encode (i : Instr) : decode (encode i) = .ok i := by
  cases i <;> rfl

/-- The two fields of a command word make it up (R51). -/
theorem word_of_fields (w : Word) : w.toNat = (rsvField w).toNat * 2 ^ 8 + (opField w).toNat := by
  have h1 : (opField w).toNat = w.toNat % 2 ^ 8 := by simp [opField, BitVec.extractLsb'_toNat]
  have h2 : (rsvField w).toNat = w.toNat / 2 ^ 8 := by
    have := w.isLt
    simp only [rsvField, BitVec.extractLsb'_toNat, Nat.shiftRight_eq_div_pow]
    omega
  rw [h1, h2]
  omega

theorem rsvField_eq_zero_iff (w : Word) : rsvField w = 0 ↔ w.toNat < 2 ^ 8 := by
  have h := word_of_fields w
  have h1 := (opField w).isLt
  rw [← BitVec.toNat_inj, show (0 : BitVec 56).toNat = 0 from rfl]
  omega

theorem decode_eq_ok {w : Word} {i : Instr} : decode w = .ok i ↔ rsvField w = 0 ∧ opField w = i.opcode := by
  unfold decode
  split
  · rename_i h
    cases hd : decodeOp (opField w) with
    | none =>
      simp only [reduceCtorEq, h, true_and, false_iff]
      intro e
      rw [decodeOp_eq_some.mpr e] at hd
      cases hd
    | some j =>
      have := decodeOp_eq_some.mp hd
      simp only [Except.ok.injEq, h, true_and, this]
      constructor
      · rintro rfl; rfl
      · intro e
        have h2 := decodeOp_eq_some.mpr e
        rw [decodeOp_eq_some.mpr rfl] at h2
        cases h2; rfl
  · rename_i h
    constructor
    · intro e; cases e
    · intro e; exact absurd e.1 h

/-! ### The index checks (check 5 of R52) -/

theorem field_high_eq_zero_iff (a : Word) (k : Nat) (hk : k ≤ 64) : field a.toNat k (64 - k) = 0 ↔ a.toNat < 2 ^ k := by
  unfold field
  have h := a.isLt
  have hp : 0 < 2 ^ k := Nat.two_pow_pos k
  have hlt : a.toNat / 2 ^ k < 2 ^ (64 - k) := by
    rw [Nat.div_lt_iff_lt_mul hp, ← pow_add, Nat.sub_add_cancel hk]
    exact h
  rw [Nat.mod_eq_of_lt hlt, Nat.div_eq_zero_iff]
  omega

theorem indexOk_label (c : Config) (a : Word) : indexOk c .label a = true ↔ a.toNat < 2 ^ c.is := by
  simp only [indexOk, beq_iff_eq]
  exact field_high_eq_zero_iff a c.is (by have := c.is_le; omega)

theorem indexOk_batch (c : Config) (a : Word) : indexOk c .batch a = true ↔ a.toNat < 2 ^ c.tb := by
  simp only [indexOk, beq_iff_eq]
  exact field_high_eq_zero_iff a c.tb (by have := c.tb_le; omega)

@[simp] theorem indexOk_none (c : Config) (a : Word) : indexOk c .none a = true := rfl

/-- An operand within its width is the whole register (R56). -/
theorem opI_of_lt (c : Config) (f : Flight) (h : f.a.toNat < 2 ^ c.is) : opI c f = f.a.toNat := by
  rw [opI, field_zero_lo, Nat.mod_eq_of_lt h]

theorem opE_of_lt (c : Config) (f : Flight) (h : f.a.toNat < 2 ^ c.tb) : opE c f = f.a.toNat := by
  rw [opE, field_zero_lo, Nat.mod_eq_of_lt h]

theorem opI_lt (c : Config) (f : Flight) : opI c f < c.hsize := field_lt _ _ _

theorem opE_lt (c : Config) (f : Flight) : opE c f < 2 ^ c.tb := field_lt _ _ _

/-! ### Issue -/

/-- What a CMD write can do (R52, R53, R105): nothing, latch one error, or accept. -/
theorem issue_cases (w : Word) (s : State) :
    (s.err ≠ none ∧ issue w s = s) ∨
    (s.err = none ∧ ∃ e, issue w s = { s with err := some e } ∧ (e = .busy ↔ s.flight ≠ none)) ∨
    (s.err = none ∧ s.flight = none ∧ ∃ i, decode w = .ok i ∧ (i.needsTable = true → s.tblv = true) ∧
      indexOk s.cfg i.idxLimit s.a = true ∧ issue w s = accept (opField w) s) := by
  unfold issue State.hasErr State.busy
  cases he : s.err with
  | some e => left; simp
  | none =>
    right
    cases hf : s.flight with
    | some f => left; exact ⟨rfl, .busy, by simp [latchError, he, hf], by simp⟩
    | none =>
      cases hd : decode w with
      | error e => left; exact ⟨rfl, .illegalCmd, by simp [latchError, he, hf], by simp⟩
      | ok i =>
        by_cases ht : (i.needsTable && !s.tblv) = true
        · left; exact ⟨rfl, .noTable, by simp [latchError, he, hf, ht], by simp⟩
        · by_cases hx : indexOk s.cfg i.idxLimit s.a = true
          · right
            refine ⟨rfl, rfl, i, rfl, fun hn => ?_, hx, by simp [ht, hx]⟩
            simpa [hn] using ht
          · left; exact ⟨rfl, .badIndex, by simp [latchError, he, hf, ht, hx], by simp⟩

/-- A CMD write leaves everything but the latched error and the record (R53, R105). -/
theorem issue_frame (w : Word) (s : State) : issue w s = { s with err := (issue w s).err, flight := (issue w s).flight } := by
  rcases issue_cases w s with ⟨-, h⟩ | ⟨-, e, h, -⟩ | ⟨-, -, i, -, -, -, h⟩
  · rw [h]
  · rw [h]
  · rw [h]; rfl

/-- What is in flight after a CMD write was in flight before, or is what the write made of a legal word (R52, R53). -/
theorem issue_flight {w : Word} {s : State} {f : Flight} (h : (issue w s).flight = some f) :
    s.flight = some f ∨ ∃ i, decode w = .ok i ∧ (i.needsTable = true → s.tblv = true) ∧
      indexOk s.cfg i.idxLimit s.a = true ∧ f = { op := opField w, a := s.a, b := s.b, thr := s.thresh } := by
  rcases issue_cases w s with ⟨-, e⟩ | ⟨-, _, e, -⟩ | ⟨-, -, i, hd, hn, hx, e⟩
  · rw [e] at h; exact .inl h
  · rw [e] at h; exact .inl h
  · rw [e] at h; cases h; exact .inr ⟨i, hd, hn, hx, rfl⟩

theorem decodeOp_of_decode {w : Word} {i : Instr} (h : decode w = .ok i) : decodeOp (opField w) = some i :=
  decodeOp_eq_some.mpr (decode_eq_ok.mp h).2

/-- What a CMD write of a command's word does, from the columns of R58 (R52, R53). -/
theorem issuedAs_encode (i : Instr) :
    IssuedAs (encode i) fun s =>
      if i.needsTable && !s.tblv then some .noTable
      else if indexOk s.cfg i.idxLimit s.a then none else some .badIndex := by
  intro s
  refine ⟨fun h => ?_, fun h1 h2 => ?_, fun ⟨h1, h2⟩ => ?_⟩
  · simp [writeReg, issue, State.hasErr, Option.isSome_iff_ne_none.mpr h]
  · simp [writeReg, issue, State.hasErr, State.busy, h1, Option.isSome_iff_ne_none.mpr h2, latchError]
  · simp only [writeReg, issue, State.hasErr, State.busy, h1, h2, decode_encode, latchError, accept]
    cases hn : (i.needsTable && !s.tblv) <;> cases hx : indexOk s.cfg i.idxLimit s.a <;> simp [opField]

/-- The fields of ID, as a number (R24). -/
theorem idWord_toNat (c : Config) :
    (idWord c).toNat =
      c.ql + 2 ^ 8 * c.rf + 2 ^ 16 * c.tf + 2 ^ 24 * c.is + 2 ^ 32 * c.cw + 2 ^ 40 * drulecode c.drule
        + 2 ^ 42 * tscopeCode c.tscope + 2 ^ 56 := by
  have hql := c.ql_le
  have hrf := c.rf_le
  have htf := c.tf_le
  have his := c.is_le
  have hcw := c.cw_le
  have hd : drulecode c.drule < 4 := by cases c.drule <;> simp [drulecode]
  have ht : tscopeCode c.tscope < 2 := by cases c.tscope <;> simp [tscopeCode]
  simp only [idWord, version, BitVec.toNat_ofNat]
  omega

/-- The fields of a decode result, as a number (R73). -/
theorem packResult_toNat (rej : Bool) {d l : Nat} (hd : d < 2 ^ 16) (hl : l < 2 ^ 32) :
    (packResult rej d l).toNat = l + 2 ^ 32 * d + 2 ^ 63 * rej.toNat := by
  have h1 : (BitVec.ofNat 64 d <<< 32).toNat = d * 2 ^ 32 := by
    rw [BitVec.toNat_shiftLeft, BitVec.toNat_ofNat, Nat.shiftLeft_eq]; omega
  have h2 : (BitVec.ofNat 64 l).toNat = l := by rw [BitVec.toNat_ofNat]; omega
  have h3 : (BitVec.ofNat 64 rej.toNat <<< 63).toNat = rej.toNat * 2 ^ 63 := by cases rej <;> rfl
  unfold packResult
  rw [BitVec.toNat_or, BitVec.toNat_or, h1, h2, h3, Nat.or_assoc, ← Nat.shiftLeft_eq d, ← Nat.shiftLeft_add_eq_or_of_lt hl,
    ← Nat.shiftLeft_eq rej.toNat, ← Nat.shiftLeft_add_eq_or_of_lt (by rw [Nat.shiftLeft_eq]; omega)]
  simp only [Nat.shiftLeft_eq]
  omega

/-! ### Register writes -/

theorem writeStatus_eq (w : Word) (s : State) :
    writeStatus w s =
      { s with err := if w.getLsbD 1 then none else s.err, ovf := if w.getLsbD 2 then false else s.ovf } := by
  unfold writeStatus clearError
  generalize w.getLsbD 1 = x
  generalize w.getLsbD 2 = y
  cases x <;> cases y <;> rfl

theorem writeCtrl_idle {w : Word} {s : State} (h : s.flight = none) :
    writeCtrl w s = { s with thresh := w.setWidth 16, tblv := false } := by
  simp [writeCtrl, State.busy, h]

theorem writeCtrl_busy {w : Word} {s : State} (h : s.flight ≠ none) : writeCtrl w s = latchError .busy s := by
  simp [writeCtrl, State.busy, Option.isSome_iff_ne_none.mpr h]

theorem writeDiscard_idle {w : Word} {s : State} (h : s.flight = none) : writeDiscard w s = { s with discard := w } := by
  simp [writeDiscard, State.busy, h]

theorem writeDiscard_busy {w : Word} {s : State} (h : s.flight ≠ none) : writeDiscard w s = latchError .busy s := by
  simp [writeDiscard, State.busy, Option.isSome_iff_ne_none.mpr h]

/-- What no port write reaches: the build, RES, REJ, HIST, TABLE, and the model's own fields (R18, R27, R32, R33). -/
theorem writeReg_frame (r : Reg) (w : Word) (s : State) :
    (writeReg r w s).cfg = s.cfg ∧ (writeReg r w s).res = s.res ∧ (writeReg r w s).rej = s.rej ∧
    (writeReg r w s).hist = s.hist ∧ (writeReg r w s).table = s.table ∧ (writeReg r w s).inputs = s.inputs ∧
    (writeReg r w s).reply = s.reply := by
  cases r with
  | cmd => rw [writeReg, issue_frame]; simp
  | ctrl => simp only [writeReg, writeCtrl]; split <;> simp
  | status => simp [writeReg, writeStatus_eq]
  | discard => simp only [writeReg, writeDiscard]; split <;> simp
  | id => simp [writeReg]
  | a => simp [writeReg]
  | b => simp [writeReg]
  | res => simp [writeReg]

end Sys2Proof.Machine
end

