-- ==== Sys2Proof/Laws/Faults.lean ====
section
/-! SUPPORT. Where a model fault can come from: no command raises the fault of a state with OVF = 1 (R108); that one is the step's. -/

namespace Sys2Proof.Machine

open Sys2Proof

variable {c : Config} {m : Memory} {s : State} {e : Fault}

theorem histRead_error {i : Nat} (h : histRead c m i = .error e) : e ≠ .counterOverflow := by
  unfold histRead at h
  split at h
  · split at h <;> cases h; simp
  · cases h; simp

theorem storeWrapped_error {i : Nat} {n : Int} {r : HistRun} (h : storeWrapped c i n r = .error e) : e ≠ .counterOverflow := by
  unfold storeWrapped at h
  split at h <;> cases h; simp

theorem tabRead_error {t : List TableEntry} {i : Nat} (h : tabRead t i = .error e) : e ≠ .counterOverflow := by
  unfold tabRead at h
  split at h <;> cases h; simp

theorem decodeWalk_error {t : List TableEntry} {w T n k run lab : Nat} (h : decodeWalk c t w T n k run lab = .error e) :
    e ≠ .counterOverflow := by
  induction n generalizing k run lab with
  | zero => cases h
  | succ n ih =>
    simp only [decodeWalk] at h
    split at h
    · rename_i hr; cases h; exact tabRead_error hr
    · split at h
      · cases h
      · exact ih h

theorem projWalk_error {t : List TableEntry} {w n k run lab : Nat} (h : projWalk c t w n k run lab = .error e) :
    e ≠ .counterOverflow := by
  induction n generalizing k run lab with
  | zero => cases h
  | succ n ih =>
    simp only [projWalk] at h
    split at h
    · rename_i hr; cases h; exact tabRead_error hr
    · exact ih h

theorem accumulate_error {i : Nat} {d : Int} (h : accumulate c m i d = .error e) : e ≠ .counterOverflow := by
  unfold accumulate at h
  split at h
  · rename_i hr; cases h; exact histRead_error hr
  · exact storeWrapped_error h

theorem forUp_error_of {σ : Type} {body : Nat → σ → Except Fault σ} {P : Fault → Prop} (hb : ∀ i r e, body i r = .error e → P e)
    {n k : Nat} {r : σ} (h : forUp body n k r = .error e) : P e := by
  induction n generalizing k r with
  | zero => cases h
  | succ n ih =>
    simp only [forUp] at h
    split at h
    · rename_i hr; cases h; exact hb _ _ _ hr
    · exact ih h

theorem butterfly_error {i x : Nat} {r : HistRun} (h : butterfly c i x r = .error e) : e ≠ .counterOverflow := by
  unfold butterfly at h
  split at h
  · cases h
  · simp only at h
    split at h
    · rename_i hr; cases h; exact histRead_error hr
    · rename_i hr; cases h; exact histRead_error hr
    · split at h
      · rename_i hr; cases h; exact storeWrapped_error hr
      · exact storeWrapped_error h

theorem fwhtLoop_error {r : HistRun} (h : fwhtLoop c r = .error e) : e ≠ .counterOverflow :=
  forUp_error_of (P := (· ≠ .counterOverflow)) (fun _ _ _ h =>
    forUp_error_of (P := (· ≠ .counterOverflow)) (fun _ _ _ h => butterfly_error h) h) h

theorem complete_fault {ef : Flight → Except Fault (State × Bool)} (h : complete s ef = .fault e) :
    ∃ f, s.flight = some f ∧ ef f = .error e := by
  unfold complete at h
  split at h
  · cases h
  · rename_i f hf
    split at h
    · rename_i he; cases h; exact ⟨f, hf, he⟩
    · cases h

theorem exec_fault (i : Instr) (h : exec i s = .fault e) : e ≠ .counterOverflow := by
  cases i <;> simp only [exec, execNop, execPar, execPopc, execTblbuild, execTblrd, execDec, execProj, execProjp, execHclr, execHacc,
    execHwr, execHrd, execSamp, execFwht] at h <;> obtain ⟨f, -, he⟩ := complete_fault h
  · cases he
  · cases he
  · cases he
  · cases he
  · split at he
    · rename_i hr; cases he; exact tabRead_error hr
    · cases he
  · split at he
    · rename_i hr; cases he; exact decodeWalk_error hr
    · cases he
  · split at he
    · rename_i hr; cases he; exact projWalk_error hr
    · cases he
  · cases he
  · cases he
  · split at he
    · rename_i hr; cases he; exact accumulate_error hr
    · cases he
  · split at he
    · cases he
    · cases he; simp
  · split at he
    · rename_i hr; cases he; exact histRead_error hr
    · cases he
  · split at he
    · rename_i hr; cases he; exact decodeWalk_error hr
    · cases he
    · split at he
      · rename_i hr; cases he; exact accumulate_error hr
      · cases he
  · split at he
    · rename_i hr; cases he; exact fwhtLoop_error hr
    · cases he

theorem engineTurn_fault (h : engineTurn s = .fault e) : e ≠ .counterOverflow := by
  unfold engineTurn at h
  split at h
  · cases h
  · split at h
    · exact exec_fault _ h
    · cases h
end Sys2Proof.Machine
end

