-- ==== Sys2Proof/Laws/Transform.lean ====
section
/-! SUPPORT. The Walsh-Hadamard sum as plain arithmetic (R94 to R97): the index pairs of a pass, the partial sums that the passes build
up, and the orthogonality of the signs. -/

namespace Sys2Proof.Machine

open Sys2Proof

/-! ### Index pairs -/

/-- Setting a clear bit adds its weight: the partner of x in pass k (R90). -/
theorem or_two_pow {x k : Nat} (hx : x.testBit k = false) : x ||| 2 ^ k = x + 2 ^ k := by
  have hk : x / 2 ^ k % 2 = 0 := by
    have h := hx
    rw [Nat.testBit_eq_decide_div_mod_eq] at h
    simp at h; omega
  obtain ⟨a, ha⟩ : ∃ a, x / 2 ^ k = 2 * a := ⟨x / 2 ^ k / 2, by omega⟩
  have hp : 0 < 2 ^ k := Nat.two_pow_pos k
  have hl : x % 2 ^ k < 2 ^ k := Nat.mod_lt _ hp
  have hx' : x = 2 ^ (k + 1) * a + x % 2 ^ k := by
    have := Nat.div_add_mod x (2 ^ k)
    rw [ha] at this
    rw [pow_succ]
    nlinarith
  have hlt : x % 2 ^ k + 2 ^ k < 2 ^ (k + 1) := by rw [pow_succ]; omega
  have hlt' : x % 2 ^ k < 2 ^ (k + 1) := by omega
  have e1 : x = 2 ^ (k + 1) * a ||| x % 2 ^ k := by
    rw [← Nat.two_pow_add_eq_or_of_lt hlt']; exact hx'
  have e2 : x % 2 ^ k + 2 ^ k = x % 2 ^ k ||| 2 ^ k := by
    have := Nat.two_pow_add_eq_or_of_lt hl 1
    rw [mul_one] at this
    rw [Nat.add_comm, this, Nat.or_comm]
  calc x ||| 2 ^ k = (2 ^ (k + 1) * a ||| x % 2 ^ k) ||| 2 ^ k := by rw [← e1]
    _ = 2 ^ (k + 1) * a ||| (x % 2 ^ k + 2 ^ k) := by rw [Nat.or_assoc, ← e2]
    _ = 2 ^ (k + 1) * a + (x % 2 ^ k + 2 ^ k) := (Nat.two_pow_add_eq_or_of_lt hlt a).symm
    _ = x + 2 ^ k := by omega

theorem testBit_add_two_pow {x k : Nat} (hx : x.testBit k = false) (j : Nat) :
    (x + 2 ^ k).testBit j = if j = k then true else x.testBit j := by
  rw [← or_two_pow hx, Nat.testBit_or, Nat.testBit_two_pow]
  by_cases h : j = k
  · subst h; simp
  · simp [h, Ne.symm h]

/-- The partner of an index below 2^n in a pass below n lies below 2^n (R90). -/
theorem add_two_pow_lt {x k n : Nat} (hx : x.testBit k = false) (hk : k < n) (h : x < 2 ^ n) : x + 2 ^ k < 2 ^ n := by
  rw [← or_two_pow hx]
  exact Nat.or_lt_two_pow h (Nat.pow_lt_pow_right (by omega) hk)

/-- An index with bit k set is the partner of the one without it. -/
theorem exists_partner {y k : Nat} (hy : y.testBit k = true) : ∃ x, x.testBit k = false ∧ y = x + 2 ^ k := by
  have hle : 2 ^ k ≤ y := Nat.ge_two_pow_of_testBit hy
  refine ⟨y - 2 ^ k, ?_, by omega⟩
  have h := hy
  rw [Nat.testBit_eq_decide_div_mod_eq] at h
  simp only [decide_eq_true_eq] at h
  rw [Nat.testBit_eq_decide_div_mod_eq]
  have hp : 0 < 2 ^ k := Nat.two_pow_pos k
  have e : (y - 2 ^ k) / 2 ^ k = y / 2 ^ k - 1 := by
    have := Nat.sub_mul_div y (2 ^ k) 1
    rw [mul_one] at this
    exact this
  rw [e, decide_eq_false_iff_not]
  omega

/-! ### Partial sums -/

/-- What the counter at x holds after passes 0 to k-1, with no wrap: the sum over the indices that differ from x in the low k bits. -/
def partialSum (h : Nat → Int) (k x : Nat) : Int :=
  ∑ t ∈ Finset.range (2 ^ k), h (x / 2 ^ k * 2 ^ k + t) * (-1) ^ popcount k (x &&& t)

theorem partialSum_zero (h : Nat → Int) (x : Nat) : partialSum h 0 x = h x := by
  simp [partialSum, popcount]

/-- After all n passes the partial sum at x below 2^n is the whole Walsh-Hadamard sum (R94). -/
theorem partialSum_full (h : Nat → Int) (n x : Nat) (hx : x < 2 ^ n) :
    partialSum h n x = ∑ y ∈ Finset.range (2 ^ n), h y * (-1) ^ popcount n (x &&& y) := by
  simp [partialSum, Nat.div_eq_of_lt hx]

theorem popcount_succ_top (n v : Nat) : popcount (n + 1) v = popcount n v + (v.testBit n).toNat := by
  rw [popcount_eq_sum, popcount_eq_sum, Finset.sum_range_succ]

/-- The two counters of a pair before pass k share their low bits, and so their signs. -/
theorem popcount_partner {x k : Nat} (hx : x.testBit k = false) (t : Nat) :
    popcount k ((x + 2 ^ k) &&& t) = popcount k (x &&& t) :=
  popcount_congr _ _ _ fun j hj => by
    rw [Nat.testBit_and, Nat.testBit_and, testBit_add_two_pow hx, if_neg (by omega)]

theorem popcount_and_upper (x k t : Nat) :
    popcount k (x &&& (2 ^ k + t)) = popcount k (x &&& t) :=
  popcount_congr _ _ _ fun j hj => by
    rw [Nat.testBit_and, Nat.testBit_and, Nat.testBit_two_pow_add_gt hj]

theorem clear_bit_base {x k : Nat} (hx : x.testBit k = false) : x / 2 ^ (k + 1) * 2 ^ (k + 1) = x / 2 ^ k * 2 ^ k := by
  have h := hx
  rw [Nat.testBit_eq_decide_div_mod_eq, decide_eq_false_iff_not] at h
  have e : x / 2 ^ (k + 1) = x / 2 ^ k / 2 := by rw [pow_succ, Nat.div_div_eq_div_mul]
  rw [e, pow_succ]
  have : x / 2 ^ k / 2 * 2 = x / 2 ^ k := by omega
  calc x / 2 ^ k / 2 * (2 ^ k * 2) = (x / 2 ^ k / 2 * 2) * 2 ^ k := by ring
    _ = x / 2 ^ k * 2 ^ k := by rw [this]

theorem partner_base {x k : Nat} (_hx : x.testBit k = false) : (x + 2 ^ k) / 2 ^ k * 2 ^ k = x / 2 ^ k * 2 ^ k + 2 ^ k := by
  rw [Nat.add_div_right _ (Nat.two_pow_pos k), Nat.succ_mul]

theorem partner_base_succ {x k : Nat} (hx : x.testBit k = false) :
    (x + 2 ^ k) / 2 ^ (k + 1) * 2 ^ (k + 1) = x / 2 ^ k * 2 ^ k := by
  rw [← clear_bit_base hx]
  congr 1
  have h := hx
  rw [Nat.testBit_eq_decide_div_mod_eq, decide_eq_false_iff_not] at h
  rw [pow_succ, ← Nat.div_div_eq_div_mul, ← Nat.div_div_eq_div_mul, Nat.add_div_right _ (Nat.two_pow_pos k)]
  omega

/-- Pass k at the index with bit k clear: the sum of the pair (R90). -/
theorem partialSum_succ_clear (h : Nat → Int) {k x : Nat} (hx : x.testBit k = false) :
    partialSum h (k + 1) x = partialSum h k x + partialSum h k (x + 2 ^ k) := by
  unfold partialSum
  rw [show (2 : Nat) ^ (k + 1) = 2 ^ k + 2 ^ k by rw [pow_succ]; ring, Finset.sum_range_add]
  rw [show (2 : Nat) ^ k + 2 ^ k = 2 ^ (k + 1) by rw [pow_succ]; ring, clear_bit_base hx]
  congr 1
  · refine Finset.sum_congr rfl fun t _ => ?_
    have hb : (x &&& t).testBit k = false := by simp [hx]
    rw [popcount_succ_top, hb]
    rfl
  · refine Finset.sum_congr rfl fun t _ => ?_
    have hb : (x &&& (2 ^ k + t)).testBit k = false := by simp [hx]
    rw [popcount_succ_top, hb, popcount_and_upper, partner_base hx, popcount_partner hx]
    simp [Nat.add_assoc]

/-- Pass k at the index with bit k set: the difference of the pair (R90). -/
theorem partialSum_succ_set (h : Nat → Int) {k x : Nat} (hx : x.testBit k = false) :
    partialSum h (k + 1) (x + 2 ^ k) = partialSum h k x - partialSum h k (x + 2 ^ k) := by
  have hset : (x + 2 ^ k).testBit k = true := by rw [testBit_add_two_pow hx, if_pos rfl]
  unfold partialSum
  rw [partner_base_succ hx, partner_base hx]
  rw [show (2 : Nat) ^ (k + 1) = 2 ^ k + 2 ^ k by rw [pow_succ]; ring, Finset.sum_range_add, sub_eq_add_neg,
    ← Finset.sum_neg_distrib]
  congr 1
  · refine Finset.sum_congr rfl fun t ht => ?_
    have hb : ((x + 2 ^ k) &&& t).testBit k = false := by
      rw [Nat.testBit_and, Nat.testBit_lt_two_pow (Finset.mem_range.mp ht), Bool.and_false]
    rw [popcount_succ_top, hb, popcount_partner hx]
    rfl
  · refine Finset.sum_congr rfl fun t ht => ?_
    have hb : ((x + 2 ^ k) &&& (2 ^ k + t)).testBit k = true := by
      rw [Nat.testBit_and, hset, Nat.testBit_two_pow_add_eq, Nat.testBit_lt_two_pow (Finset.mem_range.mp ht)]
      rfl
    rw [popcount_succ_top, hb, popcount_and_upper, Bool.toNat_true, pow_succ, Nat.add_assoc]
    ring

/-- Every partial sum is at most the sum of the magnitudes (R95). -/
theorem abs_partialSum_le (h : Nat → Int) {n k x : Nat} (hk : k ≤ n) (hx : x < 2 ^ n) :
    |partialSum h k x| ≤ ∑ y ∈ Finset.range (2 ^ n), |h y| := by
  have hp : 0 < 2 ^ k := Nat.two_pow_pos k
  have hbase : x / 2 ^ k * 2 ^ k + 2 ^ k ≤ 2 ^ n := by
    obtain ⟨d, rfl⟩ : ∃ d, n = k + d := ⟨n - k, by omega⟩
    have : x / 2 ^ k < 2 ^ d := by rw [Nat.div_lt_iff_lt_mul hp, Nat.mul_comm, ← pow_add]; exact hx
    calc x / 2 ^ k * 2 ^ k + 2 ^ k = (x / 2 ^ k + 1) * 2 ^ k := by ring
      _ ≤ 2 ^ d * 2 ^ k := Nat.mul_le_mul_right _ this
      _ = 2 ^ (k + d) := by rw [pow_add]; ring
  calc |partialSum h k x| ≤ ∑ t ∈ Finset.range (2 ^ k), |h (x / 2 ^ k * 2 ^ k + t) * (-1) ^ popcount k (x &&& t)| :=
        Finset.abs_sum_le_sum_abs _ _
    _ = ∑ t ∈ Finset.range (2 ^ k), |h (x / 2 ^ k * 2 ^ k + t)| :=
        Finset.sum_congr rfl fun t _ => by rw [abs_mul, abs_pow]; simp
    _ ≤ ∑ y ∈ Finset.range (2 ^ n), |h y| := by
        rw [← Finset.sum_image (f := fun y => |h y|) (g := fun t => x / 2 ^ k * 2 ^ k + t)
          (fun a _ b _ e => by simpa using e)]
        refine Finset.sum_le_sum_of_subset_of_nonneg (fun y hy => ?_) fun _ _ _ => abs_nonneg _
        obtain ⟨t, ht, rfl⟩ := Finset.mem_image.mp hy
        have := Finset.mem_range.mp ht
        exact Finset.mem_range.mpr (by omega)

/-! ### Orthogonality -/

/-- The sign of index y at index x. -/
theorem sign_mul (n x y z : Nat) :
    ((-1 : Int) ^ popcount n (x &&& y)) * (-1) ^ popcount n (x &&& z) = (-1) ^ popcount n (x &&& (y ^^^ z)) := by
  rw [← pow_add, neg_one_pow_eq_pow_mod_two, neg_one_pow_eq_pow_mod_two (popcount n (x &&& (y ^^^ z))), Nat.and_xor_distrib_left,
    popcount_xor_mod_two]

/-- The signs of a nonzero index cancel over all indices. -/
theorem sum_signs (n z : Nat) (hz : z < 2 ^ n) :
    ∑ x ∈ Finset.range (2 ^ n), ((-1 : Int) ^ popcount n (x &&& z)) = if z = 0 then 2 ^ n else 0 := by
  induction n generalizing z with
  | zero =>
    have : z = 0 := by simpa using hz
    subst this
    simp [popcount]
  | succ n ih =>
    have e : (2 : Nat) ^ (n + 1) = 2 ^ n + 2 ^ n := by rw [pow_succ]; ring
    rw [e, Finset.sum_range_add]
    have hlow : ∀ x, x < 2 ^ n → popcount (n + 1) (x &&& z) = popcount n (x &&& (z % 2 ^ n)) := by
      intro x hx
      rw [popcount_succ_top, Nat.testBit_and, Nat.testBit_lt_two_pow hx, Bool.false_and]
      refine popcount_congr _ _ _ fun j hj => ?_
      simp [Nat.testBit_mod_two_pow, hj]
    have hhigh : ∀ x, x < 2 ^ n →
        popcount (n + 1) ((2 ^ n + x) &&& z) = popcount n (x &&& (z % 2 ^ n)) + (z.testBit n).toNat := by
      intro x hx
      rw [popcount_succ_top, Nat.testBit_and, Nat.testBit_two_pow_add_eq, Nat.testBit_lt_two_pow hx]
      simp only [Bool.not_false, Bool.true_and]
      congr 1
      refine popcount_congr _ _ _ fun j hj => ?_
      simp [Nat.testBit_mod_two_pow, hj, Nat.testBit_two_pow_add_gt hj]
    have h1 : ∑ x ∈ Finset.range (2 ^ n), ((-1 : Int) ^ popcount (n + 1) (x &&& z)) =
        ∑ x ∈ Finset.range (2 ^ n), ((-1 : Int) ^ popcount n (x &&& (z % 2 ^ n))) :=
      Finset.sum_congr rfl fun x hx => by rw [hlow x (Finset.mem_range.mp hx)]
    have h2 : ∑ x ∈ Finset.range (2 ^ n), ((-1 : Int) ^ popcount (n + 1) ((2 ^ n + x) &&& z)) =
        (-1) ^ (z.testBit n).toNat * ∑ x ∈ Finset.range (2 ^ n), ((-1 : Int) ^ popcount n (x &&& (z % 2 ^ n))) := by
      rw [Finset.mul_sum]
      refine Finset.sum_congr rfl fun x hx => ?_
      rw [hhigh x (Finset.mem_range.mp hx), pow_add]
      ring
    rw [h1, h2, ih _ (Nat.mod_lt _ (Nat.two_pow_pos n))]
    cases hb : z.testBit n with
    | true =>
      have hz0 : z ≠ 0 := by rintro rfl; simp at hb
      rw [if_neg hz0]
      simp only [Bool.toNat_true, pow_one]
      ring
    | false =>
      have hzl : z < 2 ^ n := by
        by_contra hc
        have : z.testBit n = true := by
          rw [Nat.testBit_eq_decide_div_mod_eq]
          have hd : z / 2 ^ n = 1 := by
            have h3 : z / 2 ^ n < 2 := by rw [Nat.div_lt_iff_lt_mul (Nat.two_pow_pos n)]; omega
            have h4 : 1 ≤ z / 2 ^ n := by rw [Nat.le_div_iff_mul_le (Nat.two_pow_pos n)]; omega
            omega
          simp [hd]
        rw [hb] at this
        cases this
      rw [Nat.mod_eq_of_lt hzl]
      by_cases h0 : z = 0
      · simp [h0]; ring
      · simp [h0]

/-- The Walsh-Hadamard sum of a function on the indices below 2^n. -/
def wht (n : Nat) (h : Nat → Int) (x : Nat) : Int := ∑ y ∈ Finset.range (2 ^ n), h y * (-1) ^ popcount n (x &&& y)

/-- Transforming twice multiplies by 2^n (R96). -/
theorem wht_wht (n : Nat) (h : Nat → Int) (x : Nat) (hx : x < 2 ^ n) : wht n (wht n h) x = 2 ^ n * h x := by
  have key : ∀ y ∈ Finset.range (2 ^ n),
      wht n h y * (-1) ^ popcount n (x &&& y) =
        ∑ z ∈ Finset.range (2 ^ n), h z * (-1) ^ popcount n (y &&& (z ^^^ x)) := by
    intro y _
    unfold wht
    rw [Finset.sum_mul]
    refine Finset.sum_congr rfl fun z _ => ?_
    rw [mul_assoc, Nat.and_comm x y, sign_mul]
  unfold wht at key ⊢
  rw [Finset.sum_congr rfl key, Finset.sum_comm]
  have step : ∀ z ∈ Finset.range (2 ^ n),
      ∑ y ∈ Finset.range (2 ^ n), h z * (-1) ^ popcount n (y &&& (z ^^^ x)) = if z = x then 2 ^ n * h x else 0 := by
    intro z hz
    rw [← Finset.mul_sum, sum_signs n _ (Nat.xor_lt_two_pow (Finset.mem_range.mp hz) hx)]
    by_cases e : z = x
    · subst e; simp [mul_comm]
    · have : z ^^^ x ≠ 0 := by simpa [Nat.xor_eq_zero_iff] using e
      simp [this, e]
  rw [Finset.sum_congr rfl step, Finset.sum_ite_eq']
  simp [hx]

/-- Parseval's identity with factor 2^n (R97). -/
theorem parseval (n : Nat) (h : Nat → Int) :
    ∑ x ∈ Finset.range (2 ^ n), wht n h x ^ 2 = 2 ^ n * ∑ y ∈ Finset.range (2 ^ n), h y ^ 2 := by
  have e : ∀ x ∈ Finset.range (2 ^ n), wht n h x ^ 2 =
      ∑ y ∈ Finset.range (2 ^ n), h y * (wht n h x * (-1) ^ popcount n (y &&& x)) := by
    intro x _
    rw [pow_two]
    conv_lhs => rhs; unfold wht
    rw [Finset.mul_sum]
    refine Finset.sum_congr rfl fun y _ => ?_
    rw [Nat.and_comm x y]; ring
  rw [Finset.sum_congr rfl e, Finset.sum_comm, Finset.mul_sum]
  refine Finset.sum_congr rfl fun y hy => ?_
  rw [← Finset.mul_sum]
  have := wht_wht n h y (Finset.mem_range.mp hy)
  unfold wht at this ⊢
  rw [this]
  ring

end Sys2Proof.Machine
end

