-- ==== Sys2Proof/Laws/Fwht.lean ====
section
/-! SUPPORT. The transform on HIST (R89 to R99): what the shared loop keeps, what a butterfly and a pass do to the counters, and what
the whole loop leaves. -/

namespace Sys2Proof.Machine

open Sys2Proof

/-! ### The shared loop -/

/-- A loop whose body always succeeds and moves an invariant on ends with it (R11). -/
theorem forUp_invariant {σ : Type} {body : Nat → σ → Except Fault σ} (P : Nat → σ → Prop) {count start : Nat} {r : σ}
    (h0 : P start r)
    (hstep : ∀ i r, start ≤ i → i < start + count → P i r → ∃ r', body i r = .ok r' ∧ P (i + 1) r') :
    ∃ r', forUp body count start r = .ok r' ∧ P (start + count) r' := by
  induction count generalizing start r with
  | zero => exact ⟨r, rfl, h0⟩
  | succ n ih =>
    obtain ⟨r1, e1, h1⟩ := hstep start r (le_refl _) (by omega) h0
    obtain ⟨r2, e2, h2⟩ := ih h1 fun i r hi hi' => hstep i r (by omega) (by omega)
    refine ⟨r2, ?_, by rw [show start + (n + 1) = start + 1 + n by omega]; exact h2⟩
    simp only [forUp, e1]
    exact e2

/-- A loop whose body keeps an invariant until it fails, and must fail before the end, fails with a fault of the body. -/
theorem forUp_error {σ : Type} {body : Nat → σ → Except Fault σ} (P : Nat → σ → Prop) (Q : Fault → Prop) {count start : Nat} {r : σ}
    (h0 : P start r)
    (hstep : ∀ i r, start ≤ i → i < start + count → P i r →
      (∃ r', body i r = .ok r' ∧ P (i + 1) r') ∨ (∃ e, body i r = .error e ∧ Q e))
    (hend : ∀ r, ¬ P (start + count) r) : ∃ e, forUp body count start r = .error e ∧ Q e := by
  induction count generalizing start r with
  | zero => exact absurd h0 (hend r)
  | succ n ih =>
    rcases hstep start r (le_refl _) (by omega) h0 with ⟨r1, e1, h1⟩ | ⟨e, e1, hq⟩
    · obtain ⟨e, e2, hq⟩ := ih h1 (fun i r hi hi' => hstep i r (by omega) (by omega))
        (fun r => by rw [show start + 1 + n = start + (n + 1) by omega]; exact hend r)
      exact ⟨e, by simp only [forUp, e1]; exact e2, hq⟩
    · exact ⟨e, by simp only [forUp, e1], hq⟩

/-! ### Counters -/

variable {c : Config} {m : Memory}

theorem read_eq_counter (ha : AllWritten c m) {i : Nat} (hi : i < c.hsize) : m.read i = some (counter m i) := by
  unfold counter
  cases h : m.read i with
  | none => exact absurd h (ha i hi)
  | some v => rfl

theorem counter_of_read {i : Nat} {v : Int} (h : m.read i = some v) : counter m i = v := by
  simp [counter, h]

theorem counter_range (hw : m.wf c) (ha : AllWritten c m) {i : Nat} (hi : i < c.hsize) :
    -(2 ^ (c.cw - 1)) ≤ counter m i ∧ counter m i < 2 ^ (c.cw - 1) :=
  Memory.read_range hw (read_eq_counter ha hi)

theorem wrapCW_counter (hw : m.wf c) (ha : AllWritten c m) {i : Nat} (hi : i < c.hsize) :
    wrapCW c.cw (counter m i) = counter m i := by
  obtain ⟨a, b⟩ := counter_range hw ha hi
  exact wrapCW_of_fits _ c.cw_ge _ a b

theorem counter_write (hw : m.wf c) {i j : Nat} (v : Int) (hi : i < c.hsize) (hj : j < c.hsize) :
    counter (m.write c.hsize i v) j = if j = i then v else counter m j := by
  unfold counter
  by_cases h : j = i
  · subst h; rw [Memory.read_write_same hw]; simp
  · rw [Memory.read_write_other hw v hi hj h]; simp [h]

theorem allWritten_write (hw : m.wf c) (ha : AllWritten c m) {i : Nat} (v : Int) (hi : i < c.hsize) :
    AllWritten c (m.write c.hsize i v) := by
  intro j hj
  by_cases h : j = i
  · subst h; rw [Memory.read_write_same hw]; simp
  · rw [Memory.read_write_other hw v hi hj h]; exact ha j hj

/-- Memories of written counters that agree on every counter are equal. -/
theorem Memory.ext_of_counters {m' : Memory} (hw : m.wf c) (hw' : m'.wf c) (ha : AllWritten c m) (ha' : AllWritten c m')
    (h : ∀ i, i < c.hsize → counter m i = counter m' i) : m = m' :=
  Memory.ext_of_reads hw hw' fun i hi => by rw [read_eq_counter ha hi, read_eq_counter ha' hi, h i hi]

theorem wraps_iff (n : Int) : decide (wrapCW c.cw n ≠ n) = true ↔ Wraps c n := by
  rw [decide_eq_true_eq]
  exact wrapCW_ne_iff c.cw c.cw_ge n

theorem wrapCW_of_not_wraps {n : Int} (h : ¬ Wraps c n) : wrapCW c.cw n = n := by
  by_contra hne
  exact h ((wrapCW_ne_iff c.cw c.cw_ge n).mp hne)

/-! ### One pass -/

/-- The lower index of the pair that z belongs to in pass i (R90). -/
def lowIndex (i z : Nat) : Nat := if z.testBit i then z - 2 ^ i else z

/-- What pass i puts at z, from the counters g before it (R90). -/
def passValue (c : Config) (i : Nat) (g : Nat → Int) (z : Nat) : Int :=
  if z.testBit i then wrapCW c.cw (g (z - 2 ^ i) - g z) else wrapCW c.cw (g z + g (z + 2 ^ i))

theorem passValue_clear (i : Nat) (g : Nat → Int) {x : Nat} (hx : x.testBit i = false) :
    passValue c i g x = wrapCW c.cw (g x + g (x + 2 ^ i)) := by
  simp [passValue, hx]

theorem passValue_set (i : Nat) (g : Nat → Int) {x : Nat} (hx : x.testBit i = false) :
    passValue c i g (x + 2 ^ i) = wrapCW c.cw (g x - g (x + 2 ^ i)) := by
  simp [passValue, testBit_add_two_pow hx]

theorem butterfly_set (i : Nat) {x : Nat} (hx : x.testBit i = true) (r : HistRun) : butterfly c i x r = .ok r := by
  simp [butterfly, hx]

/-- A butterfly on written counters stores the wrapped sum and difference (R89). -/
theorem butterfly_clear {i x : Nat} {r : HistRun} (hx : x.testBit i = false) (hi : i < c.is) (hxs : x < c.hsize)
    {p q : Int} (hp : r.mem.read x = some p) (hq : r.mem.read (x + 2 ^ i) = some q) :
    butterfly c i x r =
      .ok ⟨(r.mem.write c.hsize x (wrapCW c.cw (p + q))).write c.hsize (x + 2 ^ i) (wrapCW c.cw (p - q)),
        (r.pend || decide (wrapCW c.cw (p + q) ≠ p + q)) || decide (wrapCW c.cw (p - q) ≠ p - q)⟩ := by
  have hy : x + 2 ^ i < c.hsize := add_two_pow_lt hx hi hxs
  unfold butterfly
  rw [if_neg (by simp [hx]), Nat.one_shiftLeft, or_two_pow hx]
  simp only [histRead_of_read hxs hp, histRead_of_read hy hq, storeWrapped_of_lt _ _ hxs]
  rw [storeWrapped_of_lt _ _ hy]

/-- A butterfly on an unwritten counter is a model fault (R38). -/
theorem butterfly_unwritten {i x : Nat} {r : HistRun} (hx : x.testBit i = false) (hi : i < c.is) (hxs : x < c.hsize)
    (h : r.mem.read x = none ∨ r.mem.read (x + 2 ^ i) = none) :
    ∃ j, j < c.hsize ∧ butterfly c i x r = .error (.unwrittenCounter j) := by
  have hy : x + 2 ^ i < c.hsize := add_two_pow_lt hx hi hxs
  unfold butterfly
  rw [if_neg (by simp [hx]), Nat.one_shiftLeft, or_two_pow hx]
  cases hp : r.mem.read x with
  | none => exact ⟨x, hxs, by simp only [histRead_of_unwritten hxs hp]⟩
  | some p =>
    have hq : r.mem.read (x + 2 ^ i) = none := by simpa [hp] using h
    exact ⟨x + 2 ^ i, hy, by simp only [histRead_of_read hxs hp, histRead_of_unwritten hy hq]⟩

/-- What the loop of pass i has done when it reaches index n. -/
structure PassState (c : Config) (i : Nat) (r0 : HistRun) (n : Nat) (r : HistRun) : Prop where
  wf : r.mem.wf c
  written : AllWritten c r.mem
  value : ∀ z, z < c.hsize →
    counter r.mem z = if lowIndex i z < n then passValue c i (counter r0.mem) z else counter r0.mem z
  pend : r.pend = true ↔ r0.pend = true ∨ ∃ x, x < n ∧ x.testBit i = false ∧
    (Wraps c (counter r0.mem x + counter r0.mem (x + 2 ^ i)) ∨ Wraps c (counter r0.mem x - counter r0.mem (x + 2 ^ i)))

theorem lowIndex_clear {i z : Nat} (h : z.testBit i = false) : lowIndex i z = z := by simp [lowIndex, h]

theorem lowIndex_set {i x : Nat} (h : x.testBit i = false) : lowIndex i (x + 2 ^ i) = x := by
  simp [lowIndex, testBit_add_two_pow h]

theorem lowIndex_le (i z : Nat) : lowIndex i z ≤ z := by
  unfold lowIndex
  split
  · exact Nat.sub_le _ _
  · exact le_refl _

/-- An index whose pair has lower index x is x or its partner. -/
theorem eq_of_lowIndex {i x z : Nat} (h : lowIndex i z = x) : z = x ∧ z.testBit i = false ∨ z = x + 2 ^ i ∧ x.testBit i = false := by
  cases hz : z.testBit i with
  | false => left; rw [lowIndex_clear hz] at h; exact ⟨h, rfl⟩
  | true =>
    right
    obtain ⟨w, hw, rfl⟩ := exists_partner hz
    rw [lowIndex_set hw] at h
    subst h
    exact ⟨rfl, hw⟩

theorem lowIndex_testBit (i z : Nat) : (lowIndex i z).testBit i = false := by
  cases hz : z.testBit i with
  | false => rw [lowIndex_clear hz]; exact hz
  | true => obtain ⟨w, hw, rfl⟩ := exists_partner hz; rw [lowIndex_set hw]; exact hw

theorem passState_step {i x : Nat} {r0 r : HistRun} (hi : i < c.is) (hx : x < c.hsize) (h : PassState c i r0 x r) :
    ∃ r', butterfly c i x r = .ok r' ∧ PassState c i r0 (x + 1) r' := by
  cases hb : x.testBit i with
  | true =>
    refine ⟨r, butterfly_set i hb r, h.wf, h.written, fun z hz => ?_, ?_⟩
    · rw [h.value z hz]
      have : lowIndex i z ≠ x := fun e => by have := lowIndex_testBit i z; rw [e, hb] at this; cases this
      have e : lowIndex i z < x ↔ lowIndex i z < x + 1 := by omega
      simp only [e]
    · rw [h.pend]
      constructor
      · rintro (h1 | ⟨y, hy, h1⟩)
        · exact .inl h1
        · exact .inr ⟨y, by omega, h1⟩
      · rintro (h1 | ⟨y, hy, hyb, h1⟩)
        · exact .inl h1
        · have : y ≠ x := by rintro rfl; rw [hb] at hyb; cases hyb
          exact .inr ⟨y, by omega, hyb, h1⟩
  | false =>
    have hy : x + 2 ^ i < c.hsize := add_two_pow_lt hb hi hx
    have hne : x + 2 ^ i ≠ x := by have := Nat.two_pow_pos i; omega
    have vx : counter r.mem x = counter r0.mem x := by
      rw [h.value x hx, lowIndex_clear hb, if_neg (by omega)]
    have vy : counter r.mem (x + 2 ^ i) = counter r0.mem (x + 2 ^ i) := by
      rw [h.value _ hy, lowIndex_set hb, if_neg (by omega)]
    refine ⟨_, butterfly_clear hb hi hx (read_eq_counter h.written hx) (read_eq_counter h.written hy), ?_⟩
    have w1 := Memory.wf_write_wrap h.wf (counter r.mem x + counter r.mem (x + 2 ^ i)) hx
    have a1 := allWritten_write h.wf h.written (wrapCW c.cw (counter r.mem x + counter r.mem (x + 2 ^ i))) hx
    refine ⟨Memory.wf_write_wrap w1 _ hy, allWritten_write w1 a1 _ hy, fun z hz => ?_, ?_⟩
    · rw [counter_write w1 _ hy hz, counter_write h.wf _ hx hz, vx, vy]
      by_cases e1 : z = x + 2 ^ i
      · subst e1
        rw [if_pos rfl, lowIndex_set hb, if_pos (by omega), passValue_set i _ hb]
      · rw [if_neg e1]
        by_cases e2 : z = x
        · subst e2
          rw [if_pos rfl, lowIndex_clear hb, if_pos (by omega), passValue_clear i _ hb]
        · rw [if_neg e2, h.value z hz]
          have : lowIndex i z ≠ x := fun e => by
            rcases eq_of_lowIndex e with ⟨h1, _⟩ | ⟨h1, _⟩
            · exact e2 h1
            · exact e1 h1
          have e : lowIndex i z < x ↔ lowIndex i z < x + 1 := by omega
          simp only [e]
    · simp only [Bool.or_eq_true, wraps_iff, h.pend, vx, vy]
      constructor
      · rintro ((((h1 | ⟨y, hy1, h1⟩) | h1) | h1))
        · exact .inl h1
        · exact .inr ⟨y, by omega, h1⟩
        · exact .inr ⟨x, by omega, hb, .inl h1⟩
        · exact .inr ⟨x, by omega, hb, .inr h1⟩
      · rintro (h1 | ⟨y, hy1, hyb, h1⟩)
        · exact .inl (.inl (.inl h1))
        · by_cases e : y = x
          · subst e
            rcases h1 with h1 | h1
            · exact .inl (.inr h1)
            · exact .inr h1
          · exact .inl (.inl (.inr ⟨y, by omega, hyb, h1⟩))

/-- A pass on written counters completes: every counter takes its pair's wrapped sum or difference (R90). -/
theorem fwhtPass_spec {i : Nat} (hi : i < c.is) {r : HistRun} (hw : r.mem.wf c) (ha : AllWritten c r.mem) :
    ∃ r', fwhtPass c i r = .ok r' ∧ r'.mem.wf c ∧ AllWritten c r'.mem ∧
      (∀ z, z < c.hsize → counter r'.mem z = passValue c i (counter r.mem) z) ∧
      (r'.pend = true ↔ r.pend = true ∨ ∃ x, x < c.hsize ∧ x.testBit i = false ∧
        (Wraps c (counter r.mem x + counter r.mem (x + 2 ^ i)) ∨ Wraps c (counter r.mem x - counter r.mem (x + 2 ^ i)))) := by
  have h0 : PassState c i r 0 r := ⟨hw, ha, fun z _ => by simp, by simp⟩
  obtain ⟨r', e, h⟩ := forUp_invariant (PassState c i r) h0 (count := c.hsize)
    fun x r _ hx h => passState_step hi (by omega) h
  rw [Nat.zero_add] at h
  refine ⟨r', e, h.wf, h.written, fun z hz => ?_, h.pend⟩
  rw [h.value z hz, if_pos (Nat.lt_of_le_of_lt (lowIndex_le i z) hz)]

/-! ### The whole loop -/

/-- What FWHT has done before pass k: each counter is congruent to its partial sum, and equal to it while nothing has wrapped. -/
structure LoopState (c : Config) (g : Nat → Int) (k : Nat) (r : HistRun) : Prop where
  wf : r.mem.wf c
  written : AllWritten c r.mem
  congr : ∀ x, x < c.hsize → counter r.mem x ≡ partialSum g k x [ZMOD 2 ^ c.cw]
  exact : r.pend = false → ∀ x, x < c.hsize → counter r.mem x = partialSum g k x

theorem loopState_step {g : Nat → Int} {k : Nat} {r : HistRun} (hk : k < c.is) (h : LoopState c g k r) :
    ∃ r', fwhtPass c k r = .ok r' ∧ LoopState c g (k + 1) r' := by
  obtain ⟨r', e, hw, ha, hv, hp⟩ := fwhtPass_spec hk h.wf h.written
  have pair : ∀ z, z < c.hsize → ∃ x, x.testBit k = false ∧ x < c.hsize ∧ x + 2 ^ k < c.hsize ∧ (z = x ∨ z = x + 2 ^ k) := by
    intro z hz
    cases hb : z.testBit k with
    | false => exact ⟨z, hb, hz, add_two_pow_lt hb hk hz, .inl rfl⟩
    | true =>
      obtain ⟨x, hx, rfl⟩ := exists_partner hb
      exact ⟨x, hx, Nat.lt_of_le_of_lt (Nat.le_add_right _ _) hz, hz, .inr rfl⟩
  refine ⟨r', e, hw, ha, fun z hz => ?_, fun hf z hz => ?_⟩
  · obtain ⟨x, hx, hxs, hys, rfl | rfl⟩ := pair z hz
    · rw [hv _ hz, passValue_clear k _ hx, partialSum_succ_clear g hx]
      exact (wrapCW_modEq _ _).trans ((h.congr _ hxs).add (h.congr _ hys))
    · rw [hv _ hz, passValue_set k _ hx, partialSum_succ_set g hx]
      exact (wrapCW_modEq _ _).trans ((h.congr _ hxs).sub (h.congr _ hys))
  · have hn : r.pend = false := by
      cases hr : r.pend with
      | false => rfl
      | true => rw [hp.mpr (.inl hr)] at hf; cases hf
    have noWrap : ∀ x, x < c.hsize → x.testBit k = false →
        ¬ Wraps c (counter r.mem x + counter r.mem (x + 2 ^ k)) ∧ ¬ Wraps c (counter r.mem x - counter r.mem (x + 2 ^ k)) := by
      intro x hxs hx
      constructor <;> intro hwr
      · rw [hp.mpr (.inr ⟨x, hxs, hx, .inl hwr⟩)] at hf; cases hf
      · rw [hp.mpr (.inr ⟨x, hxs, hx, .inr hwr⟩)] at hf; cases hf
    obtain ⟨x, hx, hxs, hys, rfl | rfl⟩ := pair z hz
    · rw [hv _ hz, passValue_clear k _ hx, partialSum_succ_clear g hx, wrapCW_of_not_wraps (noWrap _ hxs hx).1,
        h.exact hn _ hxs, h.exact hn _ hys]
    · rw [hv _ hz, passValue_set k _ hx, partialSum_succ_set g hx, wrapCW_of_not_wraps (noWrap _ hxs hx).2,
        h.exact hn _ hxs, h.exact hn _ hys]

theorem whtSum_eq (c : Config) (m : Memory) (x : Nat) : whtSum c m x = wht c.is (counter m) x := rfl

/-- FWHT's loop on written counters completes, and each counter is the wrapped Walsh-Hadamard sum, exact when nothing wrapped
(R94). -/
theorem fwhtLoop_spec (hw : m.wf c) (ha : AllWritten c m) :
    ∃ r, fwhtLoop c ⟨m, false⟩ = .ok r ∧ r.mem.wf c ∧ AllWritten c r.mem ∧
      (∀ x, x < c.hsize → counter r.mem x = wrapCW c.cw (wht c.is (counter m) x)) ∧
      (r.pend = false → ∀ x, x < c.hsize → counter r.mem x = wht c.is (counter m) x) := by
  have h0 : LoopState c (counter m) 0 ⟨m, false⟩ :=
    ⟨hw, ha, fun x _ => by rw [partialSum_zero], fun _ x _ => by rw [partialSum_zero]⟩
  obtain ⟨r, e, h⟩ := forUp_invariant (LoopState c (counter m)) h0 (count := c.is)
    fun k r _ hk h => loopState_step (by omega) h
  rw [Nat.zero_add] at h
  refine ⟨r, e, h.wf, h.written, fun x hx => ?_, fun hp x hx => ?_⟩
  · rw [← wrapCW_counter h.wf h.written hx]
    refine wrapCW_eq_of_modEq _ ((h.congr x hx).trans ?_)
    rw [partialSum_full _ _ _ hx]; rfl
  · rw [h.exact hp x hx, partialSum_full _ _ _ hx]; rfl

/-- A transform whose magnitudes add up to at most the greatest counter never wraps (R95). -/
theorem fwhtLoop_within_bound (hw : m.wf c) (ha : AllWritten c m) (hb : absSum c m ≤ 2 ^ (c.cw - 1) - 1) :
    ∃ r, fwhtLoop c ⟨m, false⟩ = .ok r ∧ r.pend = false := by
  have h0 : LoopState c (counter m) 0 ⟨m, false⟩ ∧ (⟨m, false⟩ : HistRun).pend = false :=
    ⟨⟨hw, ha, fun x _ => by rw [partialSum_zero], fun _ x _ => by rw [partialSum_zero]⟩, rfl⟩
  obtain ⟨r, e, h⟩ := forUp_invariant (fun k r => LoopState c (counter m) k r ∧ r.pend = false) h0 (count := c.is)
    fun k r _ hk h => by
      have hk : k < c.is := by omega
      obtain ⟨r', e, -, -, -, hp⟩ := fwhtPass_spec hk h.1.wf h.1.written
      obtain ⟨r1, e1, h1⟩ := loopState_step hk h.1
      rw [e] at e1
      cases e1
      refine ⟨r', e, h1, ?_⟩
      have fits : ∀ x, x < c.hsize → ¬ Wraps c (partialSum (counter m) (k + 1) x) := by
        intro x hx hwr
        have := abs_le.mp ((abs_partialSum_le (counter m) (by omega : k + 1 ≤ c.is) hx).trans hb)
        rcases hwr with h2 | h2 <;> omega
      have : ¬ r'.pend = true := by
        rw [hp]
        rintro (h2 | ⟨x, hx, hxb, h2⟩)
        · rw [h.2] at h2; cases h2
        · have hy : x + 2 ^ k < c.hsize := add_two_pow_lt hxb hk hx
          rw [h.1.exact h.2 x hx, h.1.exact h.2 _ hy, ← partialSum_succ_clear _ hxb, ← partialSum_succ_set _ hxb] at h2
          rcases h2 with h2 | h2
          · exact fits x hx h2
          · exact fits _ hy h2
      simpa using this
  exact ⟨r, e, h.2⟩

/-! ### Unwritten counters -/

/-- Where some counter is unwritten the first pass meets one (R38, R89). -/
theorem fwhtLoop_unwritten (hw : m.wf c) (h : ¬ AllWritten c m) :
    ∃ i, i < c.hsize ∧ fwhtLoop c ⟨m, false⟩ = .error (.unwrittenCounter i) := by
  obtain ⟨j, hj, hu⟩ : ∃ j, j < c.hsize ∧ m.read j = none := by
    unfold AllWritten at h; push Not at h; exact h
  have hi : 0 < c.is := c.is_pos
  -- before index n the pass has written only counters of pairs below n, so counter j is still unwritten
  let P : Nat → HistRun → Prop := fun n r => r.mem.wf c ∧ n ≤ lowIndex 0 j ∧ r.mem.read j = none
  have hlow : lowIndex 0 j < c.hsize := Nat.lt_of_le_of_lt (lowIndex_le 0 j) hj
  have hpass : ∃ e, forUp (butterfly c 0) c.hsize 0 ⟨m, false⟩ = .error e ∧ ∃ i, i < c.hsize ∧ e = .unwrittenCounter i := by
    refine forUp_error P (fun e => ∃ i, i < c.hsize ∧ e = .unwrittenCounter i) (r := ⟨m, false⟩) ⟨hw, Nat.zero_le _, hu⟩ ?_ ?_
    · rintro x r - hx ⟨hwf, hle, hr⟩
      have hxs : x < c.hsize := by omega
      cases hb : x.testBit 0 with
      | true =>
        refine .inl ⟨r, butterfly_set 0 hb r, hwf, ?_, hr⟩
        have : lowIndex 0 j ≠ x := fun e => by have := lowIndex_testBit 0 j; rw [e, hb] at this; cases this
        omega
      | false =>
        have hys : x + 2 ^ 0 < c.hsize := add_two_pow_lt hb hi hxs
        cases hp : r.mem.read x with
        | none =>
          obtain ⟨i, hi', e⟩ := butterfly_unwritten hb hi hxs (.inl hp)
          exact .inr ⟨_, e, i, hi', rfl⟩
        | some p =>
          cases hq : r.mem.read (x + 2 ^ 0) with
          | none =>
            obtain ⟨i, hi', e⟩ := butterfly_unwritten hb hi hxs (.inr hq)
            exact .inr ⟨_, e, i, hi', rfl⟩
          | some q =>
            have n1 : j ≠ x := by rintro rfl; rw [hr] at hp; cases hp
            have n2 : j ≠ x + 2 ^ 0 := by rintro rfl; rw [hr] at hq; cases hq
            have n3 : lowIndex 0 j ≠ x := fun e => by
              rcases eq_of_lowIndex e with ⟨h1, _⟩ | ⟨h1, _⟩
              · exact n1 h1
              · exact n2 h1
            refine .inl ⟨_, butterfly_clear hb hi hxs hp hq, ?_, by omega, ?_⟩
            · exact Memory.wf_write_wrap (Memory.wf_write_wrap hwf _ hxs) _ hys
            · rw [Memory.read_write_other (Memory.wf_write_wrap hwf _ hxs) _ hys hj n2,
                Memory.read_write_other hwf _ hxs hj n1]
              exact hr
    · rintro r ⟨-, hle, -⟩
      omega
  obtain ⟨e, he, i, hi', rfl⟩ := hpass
  refine ⟨i, hi', ?_⟩
  unfold fwhtLoop
  obtain ⟨k, hk⟩ : ∃ k, c.is = k + 1 := ⟨c.is - 1, by omega⟩
  rw [hk]
  simp only [forUp, fwhtPass, he]

/-! ### The order of passes -/

/-- The partner's bit does not move another bit. -/
theorem add_two_pow_comm {x i j : Nat} (hij : i ≠ j) (hi : x.testBit i = false) (hj : x.testBit j = false) :
    (x + 2 ^ i).testBit j = false ∧ (x + 2 ^ j).testBit i = false := by
  rw [testBit_add_two_pow hi, testBit_add_two_pow hj, if_neg (Ne.symm hij), if_neg hij]
  exact ⟨hj, hi⟩

theorem passValue_modEq (i : Nat) (g : Nat → Int) {x : Nat} (hx : x.testBit i = false) :
    passValue c i g x ≡ g x + g (x + 2 ^ i) [ZMOD 2 ^ c.cw] ∧
    passValue c i g (x + 2 ^ i) ≡ g x - g (x + 2 ^ i) [ZMOD 2 ^ c.cw] := by
  rw [passValue_clear i g hx, passValue_set i g hx]
  exact ⟨wrapCW_modEq _ _, wrapCW_modEq _ _⟩

/-- Two passes give the same counters in either order (R99): each acts on a bit of its own. -/
theorem passValue_comm {i j : Nat} (hij : i ≠ j) (g : Nat → Int) (z : Nat) :
    passValue c i (passValue c j g) z = passValue c j (passValue c i g) z := by
  -- z is one of the four indices over a base clear in both bits
  obtain ⟨x, hxi, hxj, hz⟩ : ∃ x, x.testBit i = false ∧ x.testBit j = false ∧
      (z = x ∨ z = x + 2 ^ i ∨ z = x + 2 ^ j ∨ z = x + 2 ^ i + 2 ^ j) := by
    have drop : ∀ z : Nat, ∀ k, ∃ x, x.testBit k = false ∧ (z = x ∨ z = x + 2 ^ k) := by
      intro z k
      cases hb : z.testBit k with
      | false => exact ⟨z, hb, .inl rfl⟩
      | true => obtain ⟨x, hx, rfl⟩ := exists_partner hb; exact ⟨x, hx, .inr rfl⟩
    obtain ⟨y, hy, hzy⟩ := drop z j
    obtain ⟨x, hx, hyx⟩ := drop y i
    have hxj : x.testBit j = false := by
      rcases hyx with rfl | rfl
      · exact hy
      · rw [testBit_add_two_pow hx, if_neg (Ne.symm hij)] at hy; exact hy
    refine ⟨x, hx, hxj, ?_⟩
    rcases hyx with rfl | rfl <;> rcases hzy with rfl | rfl <;> simp
  obtain ⟨hij1, hij2⟩ := add_two_pow_comm hij hxi hxj
  have comm4 : x + 2 ^ j + 2 ^ i = x + 2 ^ i + 2 ^ j := by omega
  have ci := fun (h : Nat → Int) {y : Nat} (hy : y.testBit i = false) => passValue_modEq (c := c) i h hy
  have cj := fun (h : Nat → Int) {y : Nat} (hy : y.testBit j = false) => passValue_modEq (c := c) j h hy
  have w : ∀ {a b : Int}, a ≡ b [ZMOD 2 ^ c.cw] → wrapCW c.cw a = wrapCW c.cw b := fun h => wrapCW_eq_of_modEq _ h
  rcases hz with rfl | rfl | rfl | rfl
  · rw [passValue_clear i (passValue c j g) hxi, passValue_clear j (passValue c i g) hxj]
    refine w (((cj g hxj).1.add (cj g hij1).1).trans (((ci g hxi).1.add (ci g hij2).1).trans ?_).symm)
    rw [comm4]; exact congrArg (· % 2 ^ c.cw) (by ring)
  · rw [passValue_set i (passValue c j g) hxi, passValue_clear j (passValue c i g) hij1]
    have h2 := (ci g hij2).2
    rw [comm4] at h2
    refine w (((cj g hxj).1.sub (cj g hij1).1).trans (((ci g hxi).2.add h2).trans ?_).symm)
    exact congrArg (· % 2 ^ c.cw) (by ring)
  · rw [passValue_clear i (passValue c j g) hij2, passValue_set j (passValue c i g) hxj, comm4]
    refine w (((cj g hxj).2.add (cj g hij1).2).trans (((ci g hxi).1.sub (ci g hij2).1).trans ?_).symm)
    rw [comm4]; exact congrArg (· % 2 ^ c.cw) (by ring)
  · rw [passValue_set j (passValue c i g) hij1, ← comm4, passValue_set i (passValue c j g) hij2, comm4]
    have h2 := (ci g hij2).2
    rw [comm4] at h2
    refine w (((cj g hxj).2.sub (cj g hij1).2).trans (((ci g hxi).2.sub h2).trans ?_).symm)
    exact congrArg (· % 2 ^ c.cw) (by ring)

/-! ### Passes one by one -/

theorem runPasses_append (c : Config) (l l' : List Nat) (r : HistRun) :
    runPasses c (l ++ l') r =
      (match runPasses c l r with | .error e => .error e | .ok r' => runPasses c l' r') := by
  induction l generalizing r with
  | nil => rfl
  | cons i l ih => simp only [List.cons_append, runPasses]; cases fwhtPass c i r with
    | error e => rfl
    | ok r' => exact ih r'

/-- The loop of R89 is the passes in ascending order (R91). -/
theorem forUp_eq_runPasses (c : Config) (n k : Nat) (r : HistRun) :
    forUp (fwhtPass c) n k r = runPasses c (List.range' k n) r := by
  induction n generalizing k r with
  | zero => rfl
  | succ n ih =>
    rw [List.range'_succ, forUp, runPasses]
    cases fwhtPass c k r <;> simp [ih]

/-- The first k passes on written counters complete; the pending overflow flag is set exactly when an output of one of them wraps. -/
theorem runPasses_prefix (hw : m.wf c) (ha : AllWritten c m) (k : Nat) (hk : k ≤ c.is) :
    ∃ r, runPasses c (List.range k) ⟨m, false⟩ = .ok r ∧ LoopState c (counter m) k r ∧
     (r.pend = true ↔ ∃ i r x, i < k ∧ runPasses c (List.range i) ⟨m, false⟩ = .ok r ∧
          x < c.hsize ∧ x.testBit i = false ∧
          (Wraps c (counter r.mem x + counter r.mem (x + 2 ^ i)) ∨
            Wraps c (counter r.mem x - counter r.mem (x + 2 ^ i)))) := by
  induction k with
  | zero => exact ⟨_, rfl, ⟨hw, ha, fun x _ => by rw [partialSum_zero], fun _ x _ => by rw [partialSum_zero]⟩, by simp⟩
  | succ k ih =>
    obtain ⟨r, e, hl, hp⟩ := ih (by omega)
    obtain ⟨r', e', hl'⟩ := loopState_step (by omega) hl
    obtain ⟨r'', e'', -, -, -, hp'⟩ := fwhtPass_spec (show k < c.is by omega) hl.wf hl.written
    rw [e'] at e''; cases e''
    refine ⟨r', by rw [List.range_succ, runPasses_append, e]; simp [runPasses, e'], hl', ?_⟩
    rw [hp', hp]
    constructor
    · rintro (⟨i, r0, x, hi, h⟩ | ⟨x, h⟩)
      · exact ⟨i, r0, x, by omega, h⟩
      · exact ⟨k, r, x, by omega, e, h⟩
    · rintro ⟨i, r0, x, hi, h1, h⟩
      by_cases hik : i = k
      · subst hik; rw [e] at h1; cases h1; exact .inr ⟨x, h⟩
      · exact .inl ⟨i, r0, x, by omega, h1, h⟩

end Sys2Proof.Machine
end

