-- ==== Sys2Proof/Laws/Histogram.lean ====
section
/-! SUPPORT. The histogram commands (R81 to R88): the read-modify-write of a sample, HWR's value and overflow as a wrap, what a sample
command leaves, and sequences of samples. -/

namespace Sys2Proof

open Sys2Proof.Machine

variable {c : Config} {m : Memory}

/-! ### One counter -/

/-- A sample on a written counter (R83). -/
theorem accumulate_ok {i : Nat} {v : Int} (d : Int) (hi : i < c.hsize) (hr : m.read i = some v) :
    accumulate c m i d = .ok ⟨m.write c.hsize i (wrapCW c.cw (v + d)), decide (wrapCW c.cw (v + d) ≠ v + d)⟩ := by
  unfold accumulate
  rw [histRead_of_read hi hr]
  simp only [storeWrapped_of_lt _ _ hi, Bool.false_or]

/-- A sample on an unwritten counter is a model fault (R38). -/
theorem accumulate_unwritten {i : Nat} (d : Int) (hi : i < c.hsize) (hr : m.read i = none) :
    accumulate c m i d = .error (.unwrittenCounter i) := by
  unfold accumulate
  rw [histRead_of_unwritten hi hr]

theorem accumulate_next {i : Nat} {d : Int} {r : HistRun} (h : accumulate c m i d = .ok r) :
    ∃ v, i < c.hsize ∧ m.read i = some v ∧
      r = ⟨m.write c.hsize i (wrapCW c.cw (v + d)), decide (wrapCW c.cw (v + d) ≠ v + d)⟩ := by
  cases hr : histRead c m i with
  | error e => simp [accumulate, hr] at h
  | ok v =>
    obtain ⟨hi, hv⟩ := histRead_eq_ok_iff.mp hr
    rw [accumulate_ok d hi hv] at h
    cases h
    exact ⟨v, hi, hv, rfl⟩

/-- The low CW bits of B as a signed number are B wrapped (R84). -/
theorem hwrValue_eq (c : Config) (b : Word) : hwrValue c b = wrapCW c.cw b.toInt := by
  have h1 : hwrValue c b = Int.bmod (b.toNat : Int) (2 ^ c.cw) := by
    unfold hwrValue
    rw [BitVec.toInt_eq_toNat_bmod, BitVec.toNat_setWidth]
    push_cast
    exact_mod_cast Int.emod_bmod (x := (b.toNat : Int)) (n := 2 ^ c.cw)
  rw [h1]
  refine wrapCW_eq_of_modEq c.cw ?_
  have h2 : b.toInt ≡ (b.toNat : Int) [ZMOD 2 ^ 64] := by
    rw [BitVec.toInt_eq_toNat_bmod]
    exact wrapCW_modEq 64 _
  exact (h2.of_dvd (pow_dvd_pow 2 c.cw_le)).symm

/-- B fits in CW signed bits exactly when extending its low CW bits gives B back (R84). -/
theorem hwrOverflows_iff (c : Config) (b : Word) : hwrOverflows c b = true ↔ Wraps c b.toInt := by
  unfold hwrOverflows
  rw [decide_eq_true_eq, ← wraps_iff, decide_eq_true_eq, ← hwrValue_eq]
  unfold hwrValue
  rw [not_iff_not, ← BitVec.toInt_inj, BitVec.toInt_signExtend_of_le c.cw_le]

theorem sampleDelta_eq (v : Int) (r : Bool) : v + sampleDelta r = if r then v - 1 else v + 1 := by
  cases r <;> simp [sampleDelta]
  ring

/-! ### Canonical form -/

theorem accumulate_wf (h : m.wf c) {i : Nat} {d : Int} {r : HistRun} (hr : accumulate c m i d = .ok r) : r.mem.wf c := by
  obtain ⟨v, hi, -, rfl⟩ := accumulate_next hr
  exact Memory.wf_write_wrap h _ hi

/-- Every command keeps HIST in canonical form (R32, R81; log 4). -/
theorem exec_next_hist_wf {s t : State} (i : Instr) (hw : s.hist.wf s.cfg) (h : exec i s = .next t) : t.hist.wf s.cfg := by
  by_cases hin : i ∉ [Instr.hclr, .hacc, .hwr, .samp, .fwht]
  · obtain ⟨_, _, _, _, _, _, _, hh, _⟩ := exec_next_frame i h
    rw [hh hin]; exact hw
  · obtain ⟨f, hf⟩ := exec_next_flight i h
    simp only [List.mem_cons, List.not_mem_nil, or_false, not_not] at hin
    rcases hin with rfl | rfl | rfl | rfl | rfl
    · rw [exec, execHclr_eq hf] at h; cases h; exact Memory.wf_cleared _
    · obtain ⟨_, _, _, hr, rfl⟩ := execHacc_next h; exact accumulate_wf hw hr
    · obtain ⟨g, _, hi, rfl⟩ := execHwr_next h
      show (s.hist.write _ _ (hwrValue _ _)).wf _
      rw [hwrValue_eq]; exact Memory.wf_write_wrap hw _ hi
    · obtain ⟨_, _, ⟨_, _, rfl⟩ | ⟨_, _, _, _, hr, rfl⟩⟩ := execSamp_next h
      · exact hw
      · exact accumulate_wf hw hr
    · obtain ⟨_, r, _, hr, rfl⟩ := execFwht_next h
      by_cases ha : AllWritten s.cfg s.hist
      · obtain ⟨r', hr', hw', _⟩ := fwhtLoop_spec hw ha
        rw [hr] at hr'; cases hr'; exact hw'
      · obtain ⟨_, _, he⟩ := fwhtLoop_unwritten hw ha
        rw [hr] at he; cases he

/-! ### Sample commands -/

/-- What a sample asks of the histogram: the label and the response it adds, or nothing when its word is rejected. -/
def Sample.target (c : Config) (T : Nat) (x : Sample) : Option Nat :=
  if x.decoded then (direct c (field x.a.toNat 0 c.ql) T).map Prod.fst else some (field x.a.toNat 0 c.is)

theorem Sample.target_lt {T : Nat} {x : Sample} {lab : Nat} (h : x.target c T = some lab) : lab < c.hsize := by
  unfold Sample.target at h
  split at h
  · obtain ⟨⟨l, d⟩, hd, rfl⟩ := Option.map_eq_some_iff.mp h
    obtain ⟨-, rfl, -⟩ := (direct_some_iff c _ T).mp hd
    exact directLabel_lt c _
  · cases h; exact field_lt _ _ _

/-- HIST after a sample (R83, R86). -/
def Sample.histAfter (c : Config) (T : Nat) (x : Sample) (m : Memory) : Memory :=
  match x.target c T with
  | none => m
  | some lab => m.write c.hsize lab (wrapCW c.cw (counter m lab + sampleDelta (x.b.getLsbD 0)))

/-- How much a sample adds to DISCARD (R86). -/
def Sample.discards (c : Config) (T : Nat) (x : Sample) : Word := if (x.target c T).isNone then 1 else 0

/-- What every sample finds in HIST and leaves there. -/
structure SampleInv (s : State) : Prop where
  wf : s.hist.wf s.cfg
  written : AllWritten s.cfg s.hist

/-- A sample command where every counter is written completes; what it leaves (R83, R86). Only a SAMP needs a table. -/
theorem sample_spec {s : State} (h : SampleInv s) (x : Sample) (hr : x.decoded = true → TableReady s) :
    ∃ t, exec x.instr (x.accepted s) = .next t ∧ SampleInv t ∧ (TableReady s → TableReady t) ∧ t.cfg = s.cfg ∧
      t.thresh = s.thresh ∧
      t.hist = x.histAfter s.cfg s.thresh.toNat s.hist ∧ t.discard = s.discard + x.discards s.cfg s.thresh.toNat ∧
      (t.ovf = true ↔ s.ovf = true ∨ ∃ lab, x.target s.cfg s.thresh.toNat = some lab ∧
        Wraps s.cfg (counter s.hist lab + sampleDelta (x.b.getLsbD 0))) := by
  obtain ⟨hw, ha⟩ := h
  have hfl : (x.accepted s).flight = some { op := x.instr.opcode, a := x.a, b := x.b, thr := s.thresh } := rfl
  have done : ∀ lab, lab < s.cfg.hsize →
      (s.hist.write s.cfg.hsize lab (wrapCW s.cfg.cw (counter s.hist lab + sampleDelta (x.b.getLsbD 0)))).wf s.cfg ∧
      AllWritten s.cfg (s.hist.write s.cfg.hsize lab (wrapCW s.cfg.cw (counter s.hist lab + sampleDelta (x.b.getLsbD 0)))) :=
    fun lab hl => ⟨Memory.wf_write_wrap hw _ hl, allWritten_write hw ha _ hl⟩
  cases hd : x.decoded with
  | false =>
    have htgt : x.target s.cfg s.thresh.toNat = some (field x.a.toNat 0 s.cfg.is) := by simp [Sample.target, hd]
    have hl := Sample.target_lt htgt
    have e := execHacc_eq hfl (accumulate_ok (sampleDelta (x.b.getLsbD 0)) hl (read_eq_counter ha hl))
    have hi : x.instr = .hacc := by simp [Sample.instr, hd]
    rw [hi, exec]
    refine ⟨_, e, ⟨(done _ hl).1, (done _ hl).2⟩, id, rfl, rfl, ?_, ?_, ?_⟩
    · simp [Sample.histAfter, htgt]; rfl
    · simp [Sample.discards, htgt]; rfl
    · simp only [Bool.or_eq_true, wraps_iff, htgt, Option.some.injEq, exists_eq_left']; rfl
  | true =>
    replace hr := hr hd
    have hi : x.instr = .samp := by simp [Sample.instr, hd]
    rw [hi, exec]
    cases hdir : direct s.cfg (field x.a.toNat 0 s.cfg.ql) s.thresh.toNat with
    | none =>
      have htgt : x.target s.cfg s.thresh.toNat = none := by simp [Sample.target, hd, hdir]
      obtain ⟨k, -, hdec⟩ := tableDecode_of_direct_none _ _ _ hdir
      have e := execSamp_reject hfl (run := countUpTo s.cfg (field x.a.toNat 0 s.cfg.ql) (k + 1)) (by
        show tableDecode s.cfg s.table _ _ = _
        rw [hr.2]; exact hdec)
      refine ⟨_, e, ⟨hw, ha⟩, id, rfl, rfl, ?_, ?_, ?_⟩
      · simp [Sample.histAfter, htgt]; rfl
      · simp [Sample.discards, htgt]; rfl
      · simp [htgt]; rfl
    | some p =>
      obtain ⟨lab, d⟩ := p
      have htgt : x.target s.cfg s.thresh.toNat = some lab := by simp [Sample.target, hd, hdir]
      have hl := Sample.target_lt htgt
      have hdec := tableDecode_of_direct_some _ _ _ hdir
      have e := execSamp_accept hfl (lab := lab) (run := d) (by
        show tableDecode s.cfg s.table _ _ = _
        rw [hr.2]; exact hdec) (accumulate_ok (sampleDelta (x.b.getLsbD 0)) hl (read_eq_counter ha hl))
      refine ⟨_, e, ⟨(done _ hl).1, (done _ hl).2⟩, id, rfl, rfl, ?_, ?_, ?_⟩
      · simp [Sample.histAfter, htgt]; rfl
      · simp [Sample.discards, htgt]; rfl
      · simp only [Bool.or_eq_true, wraps_iff, htgt, Option.some.injEq, exists_eq_left']; rfl

theorem Sample.histAfter_wf {T : Nat} (x : Sample) (hw : m.wf c) (ha : AllWritten c m) :
    (x.histAfter c T m).wf c ∧ AllWritten c (x.histAfter c T m) := by
  unfold Sample.histAfter
  cases h : x.target c T with
  | none => exact ⟨hw, ha⟩
  | some lab =>
    have hl := Sample.target_lt h
    exact ⟨Memory.wf_write_wrap hw _ hl, allWritten_write hw ha _ hl⟩

/-- The counters after a sample. -/
theorem Sample.counter_histAfter {T : Nat} (x : Sample) (hw : m.wf c) {i : Nat} (hi : i < c.hsize) :
    counter (x.histAfter c T m) i =
      if x.target c T = some i then wrapCW c.cw (counter m i + sampleDelta (x.b.getLsbD 0)) else counter m i := by
  unfold Sample.histAfter
  cases h : x.target c T with
  | none => simp
  | some lab =>
    simp only [Option.some.injEq]
    rw [counter_write hw _ (Sample.target_lt h) hi]
    by_cases e : i = lab
    · subst e; simp
    · simp [e, Ne.symm e]

/-- Two samples leave the same HIST in either order (R87). -/
theorem Sample.histAfter_comm {T : Nat} (x y : Sample) (hw : m.wf c) (ha : AllWritten c m) :
    y.histAfter c T (x.histAfter c T m) = x.histAfter c T (y.histAfter c T m) := by
  have hx := x.histAfter_wf (T := T) hw ha
  have hy := y.histAfter_wf (T := T) hw ha
  have hyx := y.histAfter_wf (T := T) hx.1 hx.2
  have hxy := x.histAfter_wf (T := T) hy.1 hy.2
  refine Memory.ext_of_counters hyx.1 hxy.1 hyx.2 hxy.2 fun i hi => ?_
  rw [y.counter_histAfter hx.1 hi, x.counter_histAfter hw hi, x.counter_histAfter hy.1 hi, y.counter_histAfter hw hi]
  by_cases h1 : x.target c T = some i <;> by_cases h2 : y.target c T = some i <;> simp only [h1, h2, if_true, if_false]
  refine wrapCW_eq_of_modEq _ (((wrapCW_modEq _ _).add_right _).trans (?_ : _ ≡ _ [ZMOD _]))
  refine (((wrapCW_modEq _ _).add_right _).trans (congrArg (· % 2 ^ c.cw) ?_)).symm
  ring

/-- Samples in sequence leave what their effects in sequence leave. A sequence without a SAMP needs no table. -/
theorem runSamples_spec (l : List Sample) {s : State} (h : SampleInv s) (hr : ∀ x ∈ l, x.decoded = true → TableReady s) :
    ∃ t, runSamples l s = .next t ∧ SampleInv t ∧ t.cfg = s.cfg ∧ t.thresh = s.thresh ∧
      t.hist = l.foldl (fun m x => x.histAfter s.cfg s.thresh.toNat m) s.hist ∧
      t.discard = s.discard + (l.map (Sample.discards s.cfg s.thresh.toNat)).sum := by
  induction l generalizing s with
  | nil => exact ⟨s, rfl, h, rfl, rfl, rfl, by simp⟩
  | cons x rest ih =>
    obtain ⟨t, e, ht, hkeep, hc, hthr, hh, hd, -⟩ := sample_spec h x (hr x List.mem_cons_self)
    obtain ⟨u, e', hu, hc', hthr', hh', hd'⟩ := ih ht fun y hy hdy => hkeep (hr y (List.mem_cons_of_mem _ hy) hdy)
    refine ⟨u, ?_, hu, hc'.trans hc, hthr'.trans hthr, ?_, ?_⟩
    · simp only [runSamples, e]; exact e'
    · rw [hh', hc, hthr, hh]; rfl
    · rw [hd', hd, hc, hthr, List.map_cons, List.sum_cons, BitVec.add_assoc]

/-- The HIST that a permuted list of samples leaves (R87). -/
theorem foldl_histAfter_perm {T : Nat} {l l' : List Sample} (hp : l.Perm l') (hw : m.wf c) (ha : AllWritten c m) :
    l.foldl (fun m x => x.histAfter c T m) m = l'.foldl (fun m x => x.histAfter c T m) m := by
  induction hp generalizing m with
  | nil => rfl
  | cons x _ ih => exact ih (x.histAfter_wf hw ha).1 (x.histAfter_wf hw ha).2
  | swap x y l => simp only [List.foldl_cons]; rw [x.histAfter_comm y hw ha]
  | trans _ _ ih1 ih2 => exact (ih1 hw ha).trans (ih2 hw ha)

end Sys2Proof
end

