-- ==== Sys2Proof/Laws/PerInstr.lean ====
section
/-! SUPPORT. What holds of every command as syntax, one lemma per constructor. -/

namespace Sys2Proof.Laws.RoundTrip

open Sys2Proof

/-- A command is well formed, and its word decodes to it with RSV zero and OP its own (R51, R56, R58). -/
def Statement (i : Instr) : Prop :=
  i.wf = true ∧ decode (encode i) = .ok i ∧ rsvField (encode i) = 0 ∧ opField (encode i) = i.opcode

theorem nop : Statement .nop := ⟨rfl, rfl, rfl, rfl⟩

theorem par : Statement .par := ⟨rfl, rfl, rfl, rfl⟩

theorem popc : Statement .popc := ⟨rfl, rfl, rfl, rfl⟩

theorem tblbuild : Statement .tblbuild := ⟨rfl, rfl, rfl, rfl⟩

theorem tblrd : Statement .tblrd := ⟨rfl, rfl, rfl, rfl⟩

theorem dec : Statement .dec := ⟨rfl, rfl, rfl, rfl⟩

theorem proj : Statement .proj := ⟨rfl, rfl, rfl, rfl⟩

theorem projp : Statement .projp := ⟨rfl, rfl, rfl, rfl⟩

theorem hclr : Statement .hclr := ⟨rfl, rfl, rfl, rfl⟩

theorem hacc : Statement .hacc := ⟨rfl, rfl, rfl, rfl⟩

theorem hwr : Statement .hwr := ⟨rfl, rfl, rfl, rfl⟩

theorem hrd : Statement .hrd := ⟨rfl, rfl, rfl, rfl⟩

theorem samp : Statement .samp := ⟨rfl, rfl, rfl, rfl⟩

theorem fwht : Statement .fwht := ⟨rfl, rfl, rfl, rfl⟩

end Sys2Proof.Laws.RoundTrip
end

