-- ==== Sys2Proof/Laws/Step.lean ====
section
/-! SUPPORT. What a step can do (R45): one lemma per kind of event, and the inversion of a step that answers a state. -/

namespace Sys2Proof.Machine

open Sys2Proof

variable {s t : State}

/-! ### Host transactions -/

/-- A transaction is well formed on the register port exactly when it is aligned, whole and in the window (R36, R41). -/
theorem read_wf_iff (o w : Nat) : (Access.read o w).wf = true ↔ o % 8 = 0 ∧ o < 64 ∧ w = 64 := by
  simp only [Access.wf, aligned, wholeWord, inWindow, Bool.and_eq_true, beq_iff_eq, decide_eq_true_eq]
  tauto

theorem write_wf_iff (o w : Nat) (v : Word) : (Access.write o w v).wf = true ↔ o % 8 = 0 ∧ o < 64 ∧ w = 64 := by
  simp only [Access.wf, aligned, wholeWord, inWindow, Bool.and_eq_true, beq_iff_eq, decide_eq_true_eq]
  tauto

theorem hostAccess_next {x : Access} (h : hostAccess x s = .next t) : x.wf = true ∧ t = perform x s := by
  unfold hostAccess at h
  split at h
  · rename_i hw; cases h; exact ⟨hw, rfl⟩
  · cases h

/-- A host transaction leaves everything but the answer, or is a register write followed by no answer (R42). -/
theorem perform_cases (x : Access) (s : State) :
    (∃ rep, perform x s = { s with reply := rep }) ∨
    (∃ r w, perform x s = { writeReg r w s with reply := .nothing }) := by
  cases x with
  | read o w => exact .inl ⟨_, rfl⟩
  | busRead a n => exact .inl ⟨_, rfl⟩
  | write o w v => exact .inr ⟨_, _, rfl⟩
  | busWrite a bs => exact .inr ⟨_, _, rfl⟩

theorem resetEdge_next {d : Option Access} (h : resetEdge d s = .next t) : ∃ rep, t = { resetBlock s with reply := rep } := by
  cases d with
  | none => cases h; exact ⟨s.reply, rfl⟩
  | some x =>
    simp only [resetEdge] at h
    split at h
    · cases h; exact ⟨_, rfl⟩
    · cases h

/-! ### The engine's turn -/

theorem engineTurn_next (h : engineTurn s = .next t) :
    (s.flight = none ∧ t = s) ∨ (∃ f i, s.flight = some f ∧ decodeOp f.op = some i ∧ exec i s = .next t) := by
  unfold engineTurn at h
  cases hf : s.flight with
  | none => rw [hf] at h; cases h; exact .inl ⟨rfl, rfl⟩
  | some f =>
    rw [hf] at h
    simp only at h
    cases hd : decodeOp f.op with
    | none => rw [hd] at h; cases h
    | some i => rw [hd] at h; exact .inr ⟨f, i, rfl, hd, h⟩

/-! ### A step -/

theorem step_ovf (h : s.ovf = true) : step s = .fault .counterOverflow := by
  simp [step, modelFaultOf, h]

theorem step_nil (h : s.ovf = false) (hi : s.inputs = []) : step s = engineTurn s := by
  simp [step, modelFaultOf, h, hi]

theorem step_cons {e : Event} {rest : List Event} (h : s.ovf = false) (hi : s.inputs = e :: rest) :
    step s = runEvent e { s with inputs := rest } := by
  simp [step, modelFaultOf, h, hi]

/-- What a step that answers a state did: nothing but take an idle turn, complete a command, answer a read, write a register, or
reset. `u` is the state with the event taken off the order. -/
theorem step_next_cases (h : step s = .next t) :
    s.ovf = false ∧ ∃ es, let u : State := { s with inputs := es }
      (u.flight = none ∧ t = u) ∨
      (∃ f i, u.flight = some f ∧ decodeOp f.op = some i ∧ exec i u = .next t) ∨
      (∃ rep, t = { u with reply := rep }) ∨
      (∃ r w, t = { writeReg r w u with reply := .nothing }) ∨
      (∃ rep, t = { resetBlock u with reply := rep }) := by
  have ho : s.ovf = false := by
    cases ho : s.ovf with
    | false => rfl
    | true => rw [step_ovf ho] at h; cases h
  refine ⟨ho, ?_⟩
  cases hi : s.inputs with
  | nil =>
    rw [step_nil ho hi] at h
    refine ⟨s.inputs, ?_⟩
    rcases engineTurn_next h with h | h
    · exact .inl h
    · exact .inr (.inl h)
  | cons e rest =>
    rw [step_cons ho hi] at h
    refine ⟨rest, ?_⟩
    cases e with
    | engine =>
      rcases engineTurn_next h with h | h
      · exact .inl h
      · exact .inr (.inl h)
    | host x =>
      obtain ⟨-, rfl⟩ := hostAccess_next h
      rcases perform_cases x { s with inputs := rest } with h | h
      · exact .inr (.inr (.inl h))
      · exact .inr (.inr (.inr (.inl h)))
    | rst d => exact .inr (.inr (.inr (.inr (resetEdge_next h))))

end Sys2Proof.Machine
end

