-- ==== Sys2Proof/Tests/Slice0.lean ====
section
/-! SUPPORT. The model's own tests. Expected values come from spec/95_test_vectors.md (the vector's name stands with each test) or from
the encoding tables of spec/30_encoding.md. Then, for every claim with hypotheses, a state and operands that meet them. -/

namespace Sys2Proof.Tests

open Sys2Proof Sys2Proof.Machine

/-! ### Small builds and states -/

/-- CFG-E of the vectors: even RF. -/
def cfgE : Config := ⟨⟨8, 4, 1, 16, .unanimity, .batch, .little⟩, rfl⟩

/-- CFG-2 of the vectors, with DRULE = REF_LITERAL. -/
def cfg2 : Config := ⟨⟨8, 2, 2, 16, .refLiteral, .batch, .little⟩, rfl⟩

/-- CFG-S with TSCOPE = WORD. -/
def cfgSW : Config := ⟨⟨12, 3, 2, 16, .unanimity, .word, .little⟩, rfl⟩

/-- A reset state with a command in flight, THRESH = T. -/
def flying (c : Config) (i : Instr) (a b : Word) (T : BitVec 16) : State :=
  { State.resetOf c with thresh := T, flight := some { op := i.opcode, a := a, b := b, thr := T } }

/-- The same with TABLE built and the listed counters in a zeroed HIST. -/
def ready (c : Config) (i : Instr) (a b : Word) (T : BitVec 16) (cells : List (Nat × Int)) : State :=
  { flying c i a b T with table := buildTable c T.toNat, tblv := true, hist := ⟨true, cells⟩ }

/-- A field of the state a command ends in. -/
def after {α : Type} (o : Host.Outcome State Fault Refusal) (f : State → α) : Option α :=
  match o with
  | .next t => some (f t)
  | .fault _ => none
  | .refused _ => none

/-- The fault a command ends in. -/
def faultOf (o : Host.Outcome State Fault Refusal) : Option Fault :=
  match o with
  | .fault e => some e
  | .next _ => none
  | .refused _ => none

/-- The refusal a step ends in. -/
def refusalIn (o : Host.Outcome State Fault Refusal) : Option Refusal :=
  match o with
  | .refused e => some e
  | .next _ => none
  | .fault _ => none

/-! ### Well-formedness: an ill-formed term for each check -/

theorem test_legal_builds :
    Config.reference.toParams.legal = true ∧ Config.cfgS.toParams.legal = true ∧ Config.cfgT.toParams.legal = true := by decide

/-- QL = 65 (R7). -/
theorem test_refuses_ql : (⟨65, 5, 1, 16, .unanimity, .batch, .little⟩ : Params).qlOk = false := by decide

/-- RF does not divide QL (R7). -/
theorem test_refuses_rf : (⟨12, 5, 1, 16, .unanimity, .batch, .little⟩ : Params).rfOk = false := by decide

/-- IS = 31 (R7). -/
theorem test_refuses_is : (⟨62, 2, 1, 16, .unanimity, .batch, .little⟩ : Params).isOk = false := by decide

/-- TF does not divide IS (R7, C3). -/
theorem test_refuses_tf : (⟨60, 3, 3, 32, .unanimity, .batch, .little⟩ : Params).tfOk = false := by decide

/-- TB = 30 (R7). -/
theorem test_refuses_tb : (⟨60, 3, 10, 32, .unanimity, .batch, .little⟩ : Params).tbOk = false := by decide

/-- CW = 1 and CW = 65 (R7). -/
theorem test_refuses_cw :
    (⟨12, 3, 2, 1, .unanimity, .batch, .little⟩ : Params).cwOk = false ∧
      (⟨12, 3, 2, 65, .unanimity, .batch, .little⟩ : Params).cwOk = false := by decide

/-- E25: a 32-bit access, a misaligned one, and one past the window are ill formed (R41). -/
theorem test_refuses_accesses :
    (Access.read 0x20 32).wf = false ∧ (Access.read 0x04 64).wf = false ∧ (Access.write 0x40 64 0).wf = false ∧
      (Access.read 0x38 64).wf = true := by decide

/-- A bridged access of seven bytes, one off alignment, and one past the window are ill formed (R36, R40, R41). -/
theorem test_refuses_bus :
    (Access.busRead lfcBase 7).wf = false ∧ (Access.busRead (lfcBase + 4) 8).wf = false ∧
      (Access.busRead (lfcBase + 64) 8).wf = false ∧ (Access.busWrite lfcBase []).wf = false ∧
      (Access.busRead (lfcBase + 56) 8).wf = true := by
  simp [Access.wf, onBus, aligned]

/-! ### Decoding: every word of R58 written out -/

theorem test_decode_words :
    decode 0x0000000000000000#64 = .ok .nop ∧ decode 0x0000000000000001#64 = .ok .par ∧
    decode 0x0000000000000002#64 = .ok .popc ∧ decode 0x0000000000000010#64 = .ok .tblbuild ∧
    decode 0x0000000000000011#64 = .ok .tblrd ∧ decode 0x0000000000000012#64 = .ok .dec ∧
    decode 0x0000000000000013#64 = .ok .proj ∧ decode 0x0000000000000014#64 = .ok .projp ∧
    decode 0x0000000000000020#64 = .ok .hclr ∧ decode 0x0000000000000021#64 = .ok .hacc ∧
    decode 0x0000000000000022#64 = .ok .hwr ∧ decode 0x0000000000000023#64 = .ok .hrd ∧
    decode 0x0000000000000024#64 = .ok .samp ∧ decode 0x0000000000000030#64 = .ok .fwht := by decide

theorem test_encode_words :
    encode .popc = 0x02#64 ∧ encode .projp = 0x14#64 ∧ encode .samp = 0x24#64 ∧ encode .fwht = 0x30#64 := by decide

/-- E5, E6, E7, and the last OP. -/
theorem test_decode_illegal :
    decode 0x03#64 = .error .unknownOp ∧ decode 0x101#64 = .error .reservedBits ∧
    decode 0x8000000000000012#64 = .error .reservedBits ∧ decode 0xFF#64 = .error .unknownOp := by decide

theorem test_table_word : decodeTableWord 64 0x24 = some .samp ∧ decodeTableWord 64 (2 ^ 63 + 0x12) = none := by decide

/-! ### The parity unit -/

/-- Vectors of NOP: STATUS stays 0x10, RES stays. -/
theorem test_nop :
    after (exec .nop { ready Config.cfgS .nop 0 0 1 [] with res := 6 }) (fun t => (statusWord t, t.res)) = some (0x10, 6) := by decide

/-- Q1, Q3. -/
theorem test_par :
    after (exec .par (flying Config.cfgS .par 0x7FF 0xFFF 0)) State.res = some 1 ∧
    after (exec .par (flying Config.cfgS .par 0xFFFF000000000001 0xFFFFFFFFFFFFFFFF 0)) State.res = some 1 := by decide

/-- Q2, Q6. -/
theorem test_popc :
    after (exec .popc (flying Config.cfgS .popc 0xFFF 0x0F0 0)) State.res = some 4 ∧
    after (exec .popc (flying Config.cfgS .popc 0xFFF 0xFFF 0)) State.res = some 0xC := by decide

/-! ### The decoder -/

/-- R74's example: entries 9 and 63 under THRESH = 1. -/
theorem test_tblbuild :
    after (exec .tblbuild (flying Config.cfgS .tblbuild 0 0 1)) (fun t => (t.tblv, t.table[9]?, t.table[63]?)) =
      some (true, some ⟨0, 2, true⟩, some ⟨3, 0, false⟩) := by decide

/-- DV2: e = 27 and e = 24. -/
theorem test_tblrd :
    after (exec .tblrd (ready Config.cfgS .tblrd 27 0 1 [])) (fun t => (t.res, t.rej)) = some (0x8000000200000003, false) ∧
    after (exec .tblrd (ready Config.cfgS .tblrd 24 0 1 [])) State.res = some 0x0000000100000002 := by decide

/-- DV3d under BATCH T = 1 and under WORD T = 1. -/
theorem test_dec :
    after (exec .dec (ready Config.cfgS .dec 0xEC1 0 1 [])) (fun t => (t.res, t.rej)) = some (0x000000020000000C, false) ∧
    after (exec .dec (ready cfgSW .dec 0xEC1 0 1 [])) (fun t => (t.res, t.rej)) = some (0x8000000200000000, true) := by decide

/-- DV5 (even RF, ties) and DV6 (RF = 2, REF_LITERAL). -/
theorem test_dec_rules :
    after (exec .dec (ready cfgE .dec 0x3C 0 2 [])) State.res = some 0x0000000200000000 ∧
    after (exec .dec (ready cfg2 .dec 0xFF 0 0 [])) State.res = some 0x8000000200000000 := by decide

/-- Section 3.6: 0x009 and 0x5B6. -/
theorem test_proj :
    after (exec .proj (ready Config.cfgS .proj 0x009 0 1 [])) (fun t => (t.res, t.rej)) = some (0x0000000200000000, false) ∧
    after (exec .proj (ready Config.cfgS .proj 0x5B6 0 1 [])) State.res = some 0x0000000400000007 := by decide

/-- Section 3.6: 0xEC1 and 0x088, without a table. -/
theorem test_projp :
    after (exec .projp (flying Config.cfgS .projp 0xEC1 0 0)) State.res = some 9 ∧
    after (exec .projp (flying Config.cfgS .projp 0x088 0 0)) State.res = some 6 := by decide

/-! ### The histogram -/

/-- H1. -/
theorem test_hclr :
    after (exec .hclr (flying Config.cfgS .hclr 0 0 0)) (fun t => (t.hist.read 0, t.hist.read 15, t.ovf)) =
      some (some 0, some 0, false) := by decide

/-- H2, H6a. -/
theorem test_hacc :
    after (exec .hacc (ready Config.cfgS .hacc 5 1 0 [])) (fun t => t.hist.read 5) = some (some (-1)) ∧
    after (exec .hacc (ready Config.cfgS .hacc 2 0 0 [(2, 32767)])) (fun t => (t.hist.read 2, t.ovf)) =
      some (some (-32768), true) := by decide

/-- H6c, H6d. -/
theorem test_hwr :
    after (exec .hwr (flying Config.cfgS .hwr 4 0x8000 0)) (fun t => (t.hist.read 4, t.ovf)) = some (some (-32768), true) ∧
    after (exec .hwr (flying Config.cfgS .hwr 4 0xFFFFFFFFFFFF8000 0)) (fun t => (t.hist.read 4, t.ovf)) =
      some (some (-32768), false) := by decide

/-- H5, H9. -/
theorem test_hrd :
    after (exec .hrd (ready Config.cfgS .hrd 1 0 0 [(1, -7)])) State.res = some 0xFFFFFFFFFFFFFFF9 ∧
    faultOf (exec .hrd (flying Config.cfgS .hrd 0 0 0)) = some (.unwrittenCounter 0) := by decide

/-- H7, steps 1 and 3. -/
theorem test_samp :
    after (exec .samp (ready Config.cfgS .samp 0x009 1 1 [])) (fun t => (t.res, t.rej, t.hist.read 0, t.discard)) =
      some (0x8000000200000000, true, some 0, 1) ∧
    after (exec .samp (ready Config.cfgS .samp 0x1F0 1 1 [(6, 1)])) (fun t => (t.res, t.rej, t.hist.read 6, t.discard)) =
      some (0x0000000100000006, false, some 0, 0) := by decide

/-! ### The transform -/

/-- W3, W8. -/
theorem test_fwht :
    after (exec .fwht (ready Config.cfgT .fwht 0 0 0 [(0, 3), (1, -7), (2, 2), (3, 5)])) (fun t => (t.hist.cells, t.ovf)) =
      some ([(0, 3), (1, 7), (2, -11), (3, 13)], false) ∧
    after (exec .fwht (ready Config.cfgT .fwht 0 0 0 [(0, 32767), (1, 1)])) (fun t => (t.hist.cells, t.ovf)) =
      some ([(0, -32768), (1, 32766), (2, -32768), (3, 32766)], true) := by decide

/-- H9. -/
theorem test_fwht_unwritten :
    faultOf (exec .fwht (flying Config.cfgT .fwht 0 0 0)) = some (.unwrittenCounter 0) := by decide

/-! ### Issue, errors and registers -/

/-- E1, E5, E6, E7, E8. -/
theorem test_issue_errors :
    statusWord (issue 0x12 (State.resetOf Config.cfgS)) = 0x302 ∧
    statusWord (issue 0x03 (State.resetOf Config.cfgS)) = 0x102 ∧
    statusWord (issue 0x101 (State.resetOf Config.cfgS)) = 0x102 ∧
    statusWord (issue 0x8000000000000012 (State.resetOf Config.cfgS)) = 0x102 ∧
    statusWord (issue 0x11 { State.resetOf Config.cfgS with a := 0x40 }) = 0x302 := by decide

/-- E2: with ERR = 1 a CMD write is ignored. -/
theorem test_issue_ignored :
    issue 0x01 { State.resetOf Config.cfgS with err := some .noTable } = { State.resetOf Config.cfgS with err := some .noTable } := by
  decide

/-- E9, E11, E12, and the largest indices that pass. -/
theorem test_issue_index :
    statusWord (issue 0x11 { State.resetOf Config.cfgS with a := 0x40, tblv := true }) = 0x412 ∧
    statusWord (issue 0x21 { State.resetOf Config.cfgS with a := 0x10 }) = 0x402 ∧
    statusWord (issue 0x22 { State.resetOf Config.cfgS with a := 0x10 }) = 0x402 ∧
    statusWord (issue 0x23 { State.resetOf Config.cfgS with a := 0x0F }) = 0x001 ∧
    statusWord (issue 0x11 { State.resetOf Config.cfgS with a := 0x3F, tblv := true }) = 0x011 := by decide

/-- E13: a CMD write while busy, and the completion after it. -/
theorem test_issue_busy :
    statusWord (issue 0x00 (ready Config.cfgT .fwht 0 0 0 [])) = 0x212 + 1 ∧
    after (exec .fwht (issue 0x00 (ready Config.cfgT .fwht 0 0 0 []))) statusWord = some 0x212 := by decide

/-- E14, E15, E16. -/
theorem test_writes_busy :
    (let t := writeReg .ctrl 5 (ready Config.cfgS .nop 0 0 1 [])
     (statusWord t, t.thresh) = (0x213, 1)) ∧
    (let t := writeReg .discard 0 { flying Config.cfgS .nop 0 0 0 with discard := 9 }
     (statusWord t, t.discard) = (0x203, 9)) ∧
    (let t := writeReg .a 7 (flying Config.cfgS .nop 1 0 0)
     (statusWord t, t.a, t.flight.map Flight.a) = (0x1, 7, some 1)) := by decide

/-- E17, E18. -/
theorem test_writes_idle :
    (let t := writeReg .ctrl 1 { State.resetOf Config.cfgS with thresh := 1, tblv := true }
     (statusWord t, t.thresh) = (0x0, 1)) ∧
    (let t := writeReg .ctrl 2 { State.resetOf Config.cfgS with err := some .noTable }
     (statusWord t, t.thresh) = (0x302, 2)) := by decide

/-- E3, E19, E20, E21. -/
theorem test_status_writes :
    statusWord (writeReg .status 0x2 { State.resetOf Config.cfgS with err := some .noTable }) = 0x0 ∧
    statusWord (writeReg .status 0x4 { State.resetOf Config.cfgS with err := some .noTable, ovf := true }) = 0x302 ∧
    statusWord (writeReg .status 0x6 { State.resetOf Config.cfgS with err := some .noTable, ovf := true }) = 0x0 ∧
    statusWord (writeReg .status 0xFFFFFFFFFFFFFFF9 { State.resetOf Config.cfgS with tblv := true }) = 0x10 := by decide

/-- E22, E23, E24, and the ID of CFG-E and CFG-2. -/
theorem test_register_access :
    readReg .id (writeReg .id 0 (State.resetOf Config.cfgS)) = 0x010000100402030C ∧
    readReg .cmd (State.resetOf Config.cfgS) = 0 ∧
    readReg .res (writeReg .res 0 { State.resetOf Config.cfgS with res := 6 }) = 6 ∧
    idWord cfgE = 0x0100001002010408 ∧ idWord cfg2 = 0x0100021004020208 := by decide

/-- E25: a step refuses a misaligned access. -/
theorem test_step_refuses :
    refusalIn (step { State.reset with inputs := [.host (.read 0x04 64)] }) = some (.badAccess 0x04 64) := by decide

/-- R118: a reset edge during a FWHT. -/
theorem test_reset_edge :
    after (step { ready Config.cfgT .fwht 0 0 0 [(0, 1)] with inputs := [.rst (some (.read 0x10 64))] })
      (fun t => (statusWord t, t.hist.read 0, t.reply)) = some (0, none, .word 0) := by decide

/-- R40: the bytes of a bridged register. -/
theorem test_bridge_bytes :
    toBytes .little 0x0102030405060708 = [8, 7, 6, 5, 4, 3, 2, 1] ∧ toBytes .big 0x0102030405060708 = [1, 2, 3, 4, 5, 6, 7, 8] ∧
    ofBytes .big [1, 2, 3, 4, 5, 6, 7, 8] = 0x0102030405060708 := by decide

/-- A placed word is what the next step runs. -/
theorem test_fetch_word :
    after (step (State.reset.withFetchWord 64 0x20)) (fun t => t.hist.read 7) = some (some 0) ∧
    after (step (State.reset.withFetchWord 64 0x03)) statusWord = some 0x102 := by decide

/-- R61: `run PAR` is the CMD write and a poll; R121's first line reads ID. -/
theorem test_script :
    expand (.run .par 0) = [.host (.write 0x18 64 1), .engine, .host (.read 0x10 64)] ∧
    ((bootScript 1 0).flatMap expand).head? = some (.host (.read 0x00 64)) := by decide

/-! ### Witnesses: for every claim with hypotheses, a state and operands that meet them, at the boundary of each clause -/

/-- The state in which a SAMP of CFG-S accepts label 6, its counter at 1 (vector H7). -/
def sampState : State := ready Config.cfgS .samp 0x1F0 1 1 [(6, 1)]

/-- The state in which a SAMP of CFG-S rejects (vector H7). -/
def sampReject : State := ready Config.cfgS .samp 0x009 1 1 []

/-- CFG-T with the histogram of vector W3 and FWHT in flight. -/
def fwhtState : State := ready Config.cfgT .fwht 0 0 0 [(0, 3), (1, -7), (2, 2), (3, 5)]

theorem allWritten_zeroed (c : Config) (cells : List (Nat × Int)) : AllWritten c ⟨true, cells⟩ := by
  intro i _
  rw [Memory.read_zeroed]
  exact fun h => by cases h

theorem ready_inv {c : Config} {i : Instr} {a b : Word} {T : BitVec 16} {cells : List (Nat × Int)}
    (hw : (⟨true, cells⟩ : Memory).wf c) (hx : indexOk c i.idxLimit a = true) : Inv (ready c i a b T cells) :=
  ⟨hw, fun _ => rfl, fun f hf => by
    cases hf
    exact ⟨rfl, i, by cases i <;> rfl, fun _ => rfl, hx⟩⟩

theorem witness_ResetEdgeResetsTheBlock :
    let s := { fwhtState with inputs := [.rst (some (.read 0x38 64))] }
    s.ovf = false ∧ s.inputs = .rst (some (.read 0x38 64)) :: [] ∧ (Access.read 0x38 64).wf = true ∧
      (Access.busRead (lfcBase + 56) 8).wf = true :=
  ⟨rfl, rfl, rfl, test_refuses_bus.2.2.2.2⟩

theorem witness_EveryStepKeepsTheInvariant : Inv sampState ∧ ∃ t, step sampState = .next t :=
  ⟨ready_inv (by decide) rfl, _, rfl⟩

theorem witness_StepRunsTheCommandInFlight :
    let s := { sampState with inputs := [.engine] }
    let idle := { State.reset with inputs := [.engine] }
    s.ovf = false ∧ s.inputs = [.engine] ∧ s.flight = some ⟨0x24, 0x1F0, 1, 1⟩ ∧ decodeOp 0x24 = some .samp ∧
      sampState.inputs = [] ∧ idle.ovf = false ∧ idle.inputs = [.engine] ∧ idle.flight = none ∧ State.reset.inputs = [] := by
  decide

theorem witness_StepPerformsHostTransactions :
    let s := { State.reset with inputs := [.host (.read 0x38 64)] }
    let s' := { State.reset with inputs := [.host (.write 0x40 64 5)] }
    s.ovf = false ∧ s.inputs = [.host (.read 0x38 64)] ∧ 0x38 % 8 = 0 ∧ 0x38 < 64 ∧
      s'.inputs = [.host (.write 0x40 64 5)] ∧ 64 ≤ 0x40 := by
  decide

theorem witness_OverflowStateHasNoSuccessor :
    ModelFault { State.reset with ovf := true } ∧ step { State.reset with ovf := true } = .fault .counterOverflow := ⟨rfl, rfl⟩

theorem witness_NoStepChangesTheBuild : ∃ t, step sampState = .next t := ⟨_, rfl⟩

theorem witness_DecodeAndEncodeAgree : decode 0x30#64 = .ok .fwht := rfl

theorem witness_IllegalWordsAreNeverExecuted :
    [0x03#64, 0x0F#64, 0x15#64, 0x1F#64, 0x25#64, 0x2F#64, 0x31#64, 0xFF#64].map decode = List.replicate 8 (.error .unknownOp) ∧
      decode 0x100#64 = .error .reservedBits ∧
      [0x02#64, 0x10#64, 0x14#64, 0x20#64, 0x24#64, 0x30#64].map decode =
        [.ok .popc, .ok .tblbuild, .ok .projp, .ok .hclr, .ok .samp, .ok .fwht] ∧
      Idle State.reset :=
  ⟨rfl, rfl, rfl, rfl, rfl⟩

theorem witness_StatusWordLayout :
    statusWord { sampReject with err := some .badIndex, ovf := true, rej := true } = 0x41F := by decide

theorem witness_IdWordLayout : ∃ t, Completes .samp sampState t := ⟨_, rfl⟩

/-- The boundary indices of check 5: 15 and 16 for a label, 63 and 64 for an entry (CFG-S). -/
theorem witness_CmdWriteChecksInOrder :
    Idle (State.resetOf Config.cfgS) ∧ sampState.err = none ∧ sampState.flight ≠ none ∧
      ({ State.reset with err := some .busy } : State).err ≠ none ∧ decode 0x03#64 = .error .unknownOp ∧
      decode 0x12#64 = .ok .dec ∧ Instr.dec ∈ [Instr.tblrd, .dec, .proj, .samp] ∧ (State.resetOf Config.cfgS).tblv = false ∧
      Instr.hrd ∈ [Instr.hacc, .hwr, .hrd] ∧ 2 ^ Config.cfgS.is ≤ (0x10#64).toNat ∧ (0x0F#64).toNat < 2 ^ Config.cfgS.is ∧
      2 ^ Config.cfgS.tb ≤ (0x40#64).toNat ∧ (0x3F#64).toNat < 2 ^ Config.cfgS.tb := by
  unfold Idle; decide

theorem witness_AcceptanceFillsTheRecord :
    (State.resetOf Config.cfgS).flight = none ∧ (issue 0x20 (State.resetOf Config.cfgS)).flight ≠ none ∧
      sampState.flight = some ⟨0x24, 0x1F0, 1, 1⟩ ∧ sampState.err = none := by decide

theorem witness_FailedCmdWriteChangesOnlyTheError :
    ({ State.reset with err := some .busy } : State).err = some .busy ∧ State.reset.err = none ∧
      (issue 0x12 State.reset).flight = State.reset.flight := by decide

theorem witness_FirstErrorIsKept :
    State.reset.err = none ∧ ({ State.reset with err := some .busy } : State).err ≠ none ∧
      (writeReg .ctrl 5 sampState).err = some .busy ∧ (writeReg .cmd 0x12 State.reset).err = some .noTable ∧
      ∃ t, Completes .samp sampState t :=
  ⟨rfl, by decide, rfl, rfl, _, rfl⟩

theorem witness_WritesWhileBusy : sampState.flight ≠ none ∧ State.reset.flight = none := by decide

theorem witness_StatusWriteClears :
    let s := ready Config.cfgS .hacc 2 0 0 [(2, 32767)]
    s.ovf = false ∧ ∃ u, Completes .hacc s u ∧ u.ovf = true :=
  ⟨rfl, _, rfl, rfl⟩

theorem witness_OperandRegistersAreTheHosts : ∃ t, Completes .samp sampState t := ⟨_, rfl⟩

/-- THRESH = TF under BATCH, THRESH = IS under WORD. -/
theorem witness_ThresholdRegister :
    State.reset.flight = none ∧ sampState.flight ≠ none ∧ Config.cfgS.tscope = .batch ∧ Config.cfgS.tf ≤ 2 ∧
      cfgSW.tscope = .word ∧ cfgSW.is ≤ 4 := by decide

theorem witness_DiscardCounter :
    (∃ t, Completes .samp sampReject t ∧ t.rej = true) ∧ (∃ t, Completes .samp sampState t ∧ t.rej = false) ∧
      (∃ t, Completes .fwht fwhtState t) ∧ State.reset.flight = none ∧ sampState.flight ≠ none :=
  ⟨⟨_, rfl, rfl⟩, ⟨_, rfl, rfl⟩, ⟨_, rfl⟩, rfl, by decide⟩

theorem witness_CompletionEndsTheCommand :
    (∃ t, Completes .samp { sampState with ovf := true } t) ∧ State.reset.flight = none := ⟨⟨_, rfl⟩, rfl⟩

theorem witness_OnlyResultCommandsWriteRes :
    Instr.fwht ∉ [Instr.par, .popc, .tblrd, .dec, .proj, .projp, .hrd, .samp] ∧ ∃ t, Completes .fwht fwhtState t :=
  ⟨by decide, _, rfl⟩

theorem witness_OnlyDecAndSampWriteRej :
    Inv sampReject ∧ sampReject.tblv = true ∧ sampReject.flight = some ⟨0x24, 0x009, 1, 1⟩ ∧
      (∃ t, Completes .samp sampReject t ∧ t.rej = true) ∧ Inv sampState ∧ (∃ t, Completes .samp sampState t ∧ t.rej = false) ∧
      ∃ t, Completes .fwht fwhtState t :=
  ⟨ready_inv (by decide) rfl, rfl, rfl, ⟨_, rfl, rfl⟩, ready_inv (by decide) rfl, ⟨_, rfl, rfl⟩, _, rfl⟩

theorem witness_OverflowIsSticky :
    (∃ t, Completes .nop { ready Config.cfgS .nop 0 0 0 [] with ovf := true } t) ∧
      Instr.nop ∉ [Instr.hacc, .hwr, .samp, .fwht] ∧ ({ State.reset with ovf := true } : State).ovf = true :=
  ⟨⟨_, rfl⟩, by decide, rfl⟩

theorem witness_TableValidFlag :
    (∃ t, Completes .tblbuild (flying Config.cfgT .tblbuild 0 0 1) t) ∧ (∃ t, Completes .samp sampState t) :=
  ⟨⟨_, rfl⟩, _, rfl⟩

theorem witness_OnlyTheNamedCommandsWriteTheMemories :
    (∃ t, Completes .dec (ready Config.cfgS .dec 0xEC1 0 1 []) t) ∧ Instr.dec ∉ [Instr.hclr, .hacc, .hwr, .samp, .fwht] :=
  ⟨⟨_, rfl⟩, by decide⟩

theorem witness_NopOnlyCompletes : (flying Config.cfgS .nop 0 0 0).flight = some ⟨0x00, 0, 0, 0⟩ := rfl

theorem witness_ParAndPopcResults : (flying Config.cfgS .par 0x7FF 0xFFF 0).flight = some ⟨0x01, 0x7FF, 0xFFF, 0⟩ := rfl

/-- Two words that agree in their low QL bits and differ above. -/
theorem witness_ParityUnitLaws : (0xFFFF000000000001#64).toNat % 2 ^ Config.cfgS.ql = (0x001#64).toNat % 2 ^ Config.cfgS.ql := by decide

/-- CFG-2 is the exception of R79; CFG-E has equal splits. -/
theorem witness_DisagreementLaw :
    cfg2.drule = .refLiteral ∧ cfg2.rf = 2 ∧ ¬ (cfgE.drule = .refLiteral ∧ cfgE.rf = 2) ∧ 2 * 2 = cfgE.rf ∧ 2 * 1 = cfg2.rf := by
  decide

theorem witness_TblbuildFillsTheTable :
    (flying Config.cfgS .tblbuild 0 0 2).flight = some ⟨0x10, 0, 0, 2⟩ ∧ Config.cfgS.tf ≤ (2#16).toNat ∧ 63 < 2 ^ Config.cfgS.tb := by
  decide

theorem witness_TblrdShowsOneEntry :
    let s := ready Config.cfgS .tblrd 63 0 1 []
    s.flight = some ⟨0x11, 63, 0, 1⟩ ∧ TableReady s ∧ (63#64).toNat < 2 ^ Config.cfgS.tb :=
  ⟨rfl, ⟨rfl, rfl⟩, by decide⟩

/-- 0xEC1: under BATCH and T = 0 batch 0 triggers; under WORD and T = 1 batch 1 is the first; under BATCH and T = 1 none is. -/
theorem witness_TableDecodeStopsAtTheFirstTrigger :
    Triggers Config.cfgS 0xEC1 0 0 ∧ (Triggers cfgSW 0xEC1 1 1 ∧ ¬ Triggers cfgSW 0xEC1 1 0) ∧
      (¬ Triggers Config.cfgS 0xEC1 1 0 ∧ ¬ Triggers Config.cfgS 0xEC1 1 1) ∧ cfgSW.nb = 2 ∧
      1 < (entry Config.cfgS (batch Config.cfgS 0x009 0) 1).dcnt := by
  simp only [Triggers, Config.cfgS, cfgSW]; decide

theorem witness_TableAndDirectMethodsAgree :
    direct Config.cfgS 0xEC1 0 = none ∧ direct Config.cfgS 0xEC1 1 = some (0xC, 2) ∧ direct cfgSW 0xEC1 1 = none := by decide

theorem witness_DecodeResultFieldsFit :
    tableDecode Config.cfgS (buildTable Config.cfgS 1) 0xFFF 1 = .ok (.accept 15 0) ∧
      tableDecode Config.cfgS (buildTable Config.cfgS 1) 0x5B6 1 = .ok (.reject 2) ∧ 2 ^ 30 - 1 < 2 ^ 30 ∧ 30 ≤ 30 := by
  refine ⟨rfl, rfl, ?_, ?_⟩ <;> decide

theorem witness_DecDecidesTheWord :
    let s := ready Config.cfgS .dec 0xEC1 0 1 []
    let s' := ready Config.cfgS .dec 0x009 0 1 []
    s.flight = some ⟨0x12, 0xEC1, 0, 1⟩ ∧ TableReady s ∧ s.thresh = 1 ∧
      direct Config.cfgS (0xEC1 % 2 ^ 12) 1 = some (0xC, 2) ∧ TableReady s' ∧ direct Config.cfgS (0x009 % 2 ^ 12) 1 = none :=
  ⟨rfl, ⟨rfl, rfl⟩, rfl, rfl, ⟨rfl, rfl⟩, rfl⟩

theorem witness_ProjIsTheMajorityLabel :
    let s := ready Config.cfgS .proj 0xEC1 0 1 []
    s.flight = some ⟨0x13, 0xEC1, 0, 1⟩ ∧ TableReady s ∧ s.thresh = 1 ∧ ∃ t, Completes .dec s t ∧ t.rej = false :=
  ⟨rfl, ⟨rfl, rfl⟩, rfl, _, rfl, rfl⟩

theorem witness_ProjpIsTheParityLabel : (flying Config.cfgS .projp 0x088 0 0).flight = some ⟨0x14, 0x088, 0, 0⟩ := rfl

/-- 0xE38 is the clean codeword of label 0xA (DV3c). -/
theorem witness_CleanCodewordParity :
    ∀ b, b < 4 → 0xE38 / 2 ^ (b * 3) % 2 ^ 3 = (if (0xA).testBit b then 2 ^ 3 - 1 else 0) := by decide

/-- The ends of the counter's range, and one past each (CW = 16). -/
theorem witness_WrapIsTwosComplement :
    wrapCW 16 32767 = 32767 ∧ wrapCW 16 32768 = -32768 ∧ wrapCW 16 (-32768) = -32768 ∧ wrapCW 16 (-32769) = 32767 ∧
      15 < Config.cfgS.hsize ∧ sampState.hist.wf Config.cfgS := by decide

/-- The last of four counters is written, and HIST becomes `zeroed`. -/
theorem witness_HistReadsWhatWasWritten :
    (⟨false, [(0, 1), (1, 0), (2, 5)]⟩ : Memory).wf Config.cfgT ∧ 3 < Config.cfgT.hsize ∧
      counterMin 16 ≤ -32768 ∧ (32767 : Int) ≤ counterMax 16 ∧
      (⟨false, [(0, 1), (1, 0), (2, 5)]⟩ : Memory).write 4 3 (-32768) = ⟨true, [(0, 1), (2, 5), (3, -32768)]⟩ := by decide

theorem witness_HclrZeroesEveryCounter :
    let s := flying Config.cfgS .hclr 0 0 0
    s.flight = some ⟨0x20, 0, 0, 0⟩ ∧ s.hist.wf Config.cfgS ∧ 15 < Config.cfgS.hsize := by decide

theorem witness_HaccAddsOneSample :
    let s := ready Config.cfgS .hacc 15 1 0 [(15, -32768)]
    let s' := flying Config.cfgS .hacc 15 1 0
    s.flight = some ⟨0x21, 15, 1, 0⟩ ∧ s.hist.wf Config.cfgS ∧ (15#64).toNat < 2 ^ Config.cfgS.is ∧
      s.hist.read 15 = some (-32768) ∧ s'.hist.wf Config.cfgS ∧ s'.hist.read 15 = none := by decide

theorem witness_HwrWritesOneCounter :
    let s := flying Config.cfgS .hwr 15 0x8000 0
    s.flight = some ⟨0x22, 15, 0x8000, 0⟩ ∧ s.hist.wf Config.cfgS ∧ (15#64).toNat < 2 ^ Config.cfgS.is := by decide

theorem witness_HrdReadsOneCounter :
    let s := ready Config.cfgS .hrd 15 0 0 [(15, -7)]
    let s' := flying Config.cfgS .hrd 15 0 0
    s.flight = some ⟨0x23, 15, 0, 0⟩ ∧ s.hist.wf Config.cfgS ∧ (15#64).toNat < 2 ^ Config.cfgS.is ∧
      s.hist.read 15 = some (-7) ∧ s'.hist.wf Config.cfgS ∧ s'.hist.read 15 = none := by decide

theorem witness_SampDiscardsOrAccumulates :
    let s' := { sampState with hist := Memory.unwritten }
    sampState.flight = some ⟨0x24, 0x1F0, 1, 1⟩ ∧ sampState.hist.wf Config.cfgS ∧ TableReady sampState ∧ sampState.thresh = 1 ∧
      direct Config.cfgS (0x1F0 % 2 ^ 12) 1 = some (6, 1) ∧ sampState.hist.read 6 = some 1 ∧
      sampReject.flight = some ⟨0x24, 0x009, 1, 1⟩ ∧ TableReady sampReject ∧ direct Config.cfgS (0x009 % 2 ^ 12) 1 = none ∧
      s'.hist.wf Config.cfgS ∧ s'.hist.read 6 = none :=
  ⟨rfl, by decide, ⟨rfl, rfl⟩, rfl, rfl, rfl, rfl, ⟨rfl, rfl⟩, rfl, by decide, rfl⟩

theorem witness_CountersStayWritten :
    let s := flying Config.cfgS .hwr 15 7 0
    15 < Config.cfgS.hsize ∧ s.hist.wf Config.cfgS ∧ s.hist.read 15 = none ∧
      (∃ t, Completes .hwr s t ∧ t.hist.read 15 = some 7 ∧ t.hist.read 14 = none) ∧ sampState.hist.read 6 = some 1 :=
  ⟨by decide, by decide, rfl, ⟨_, rfl, rfl, rfl⟩, rfl⟩

theorem witness_SampleOrderDoesNotMatter :
    let l : List Sample := [⟨true, 0x1F0, 1⟩, ⟨false, 15, 0⟩]
    sampState.hist.wf Config.cfgS ∧ AllWritten Config.cfgS sampState.hist ∧ (∀ x ∈ l, x.decoded = true → TableReady sampState) ∧
      (∀ x ∈ l, x.decoded = false → x.a.toNat < 2 ^ Config.cfgS.is) ∧ l.Perm [⟨false, 15, 0⟩, ⟨true, 0x1F0, 1⟩] :=
  ⟨by decide, allWritten_zeroed _ _, fun _ _ _ => ⟨rfl, rfl⟩, by decide, List.Perm.swap _ _ _⟩

/-- The same claim's second form: HACC alone, with TBLV = 0. -/
theorem witness_SampleOrderDoesNotMatter_hacc :
    let s := { State.resetOf Config.cfgS with hist := Memory.cleared }
    let l : List Sample := [⟨false, 0, 1⟩, ⟨false, 15, 0⟩]
    s.tblv = false ∧ s.hist.wf Config.cfgS ∧ AllWritten Config.cfgS s.hist ∧ (∀ x ∈ l, x.decoded = true → TableReady s) ∧
      (∀ x ∈ l, x.decoded = false → x.a.toNat < 2 ^ Config.cfgS.is) ∧ l.Perm [⟨false, 15, 0⟩, ⟨false, 0, 1⟩] :=
  ⟨rfl, by decide, allWritten_zeroed _ _, by simp, by decide, List.Perm.swap _ _ _⟩

theorem witness_SampleCountsAddUp :
    let s := ready Config.cfgS .nop 0 0 1 []
    let l : List Sample := [⟨true, 0x009, 1⟩, ⟨true, 0x1F8, 0⟩, ⟨true, 0x1F0, 1⟩]
    s.hist = Memory.cleared ∧ TableReady s ∧ (∀ x ∈ l, x.decoded = true) ∧ ∃ t, runSamples l s = .next t ∧ t.ovf = false :=
  ⟨rfl, ⟨rfl, rfl⟩, by decide, _, rfl, rfl⟩

theorem witness_PassReplacesPairsBySumAndDifference :
    1 < Config.cfgT.is ∧ fwhtState.hist.wf Config.cfgT ∧ AllWritten Config.cfgT fwhtState.hist ∧ (1 : Nat).testBit 1 = false :=
  ⟨by decide, by decide, allWritten_zeroed _ _, by decide⟩

theorem witness_FwhtIsTheWalshHadamardSum :
    fwhtState.flight = some ⟨0x30, 0, 0, 0⟩ ∧ fwhtState.hist.wf Config.cfgT ∧ AllWritten Config.cfgT fwhtState.hist ∧
      (flying Config.cfgT .fwht 0 0 0).hist.wf Config.cfgT ∧ ¬ AllWritten Config.cfgT Memory.unwritten :=
  ⟨rfl, by decide, allWritten_zeroed _ _, by decide, fun h => h 0 (by decide) rfl⟩

/-- Magnitudes that add up to exactly 2^15 - 1. -/
theorem witness_OneTransformWithinTheBoundNeverWraps :
    let s := ready Config.cfgT .fwht 0 0 0 [(0, 32766), (3, -1)]
    s.hist.wf Config.cfgT ∧ AllWritten Config.cfgT s.hist ∧ absSum Config.cfgT s.hist ≤ 2 ^ (Config.cfgT.cw - 1) - 1 ∧
      ∃ t, Completes .fwht s t :=
  ⟨by decide, allWritten_zeroed _ _, by decide, _, rfl⟩

theorem witness_TwoTransformsMultiplyByN :
    fwhtState.hist.wf Config.cfgT ∧ AllWritten Config.cfgT fwhtState.hist ∧
      ∃ t, Completes .fwht fwhtState t ∧ ∃ u, Completes .fwht { t with flight := some ⟨0x30, 0, 0, 0⟩ } u ∧ u.ovf = false :=
  ⟨by decide, allWritten_zeroed _ _, _, rfl, _, rfl, rfl⟩

theorem witness_TransformSumAndParseval :
    fwhtState.hist.wf Config.cfgT ∧ AllWritten Config.cfgT fwhtState.hist ∧ ∃ t, Completes .fwht fwhtState t ∧ t.ovf = false :=
  ⟨by decide, allWritten_zeroed _ _, _, rfl, rfl⟩

theorem witness_PassOrderDoesNotMatter :
    fwhtState.hist.wf Config.cfgT ∧ AllWritten Config.cfgT fwhtState.hist ∧ [1, 0].Perm (List.range Config.cfgT.is) :=
  ⟨by decide, allWritten_zeroed _ _, List.Perm.swap _ _ _⟩

theorem witness_BridgeByteOrder : 0x38 % 8 = 0 ∧ 0x38 < 64 ∧ 7 < 8 ∧ ([1, 2, 3, 4, 5, 6, 7, 8] : List Byte).length = 8 := by decide

end Sys2Proof.Tests
end

section
/-! SUPPORT. What a completion leaves and sets, field by field (R54, R58), and what it does not depend on: the latched error, OVF, A and B. -/

namespace Sys2Proof.Machine

open Sys2Proof

variable {i : Instr} {s t : State}

/-! ### One field of a completed command -/

theorem exec_next_cfg (h : exec i s = .next t) : t.cfg = s.cfg := by
  obtain ⟨_, ht, -⟩ := exec_next_frame i h
  rw [ht]

theorem exec_next_err (h : exec i s = .next t) : t.err = s.err := by
  obtain ⟨_, ht, -⟩ := exec_next_frame i h
  rw [ht]

theorem exec_next_a (h : exec i s = .next t) : t.a = s.a := by
  obtain ⟨_, ht, -⟩ := exec_next_frame i h
  rw [ht]

theorem exec_next_b (h : exec i s = .next t) : t.b = s.b := by
  obtain ⟨_, ht, -⟩ := exec_next_frame i h
  rw [ht]

theorem exec_next_flight_none (h : exec i s = .next t) : t.flight = none := by
  obtain ⟨_, ht, -⟩ := exec_next_frame i h
  rw [ht]

theorem exec_next_res (h : exec i s = .next t)
    (hi : i ∉ [Instr.par, .popc, .tblrd, .dec, .proj, .projp, .hrd, .samp]) : t.res = s.res := by
  obtain ⟨_, -, hres, -⟩ := exec_next_frame i h
  exact hres hi

theorem exec_next_rej (h : exec i s = .next t) (hdec : i ≠ .dec) (hsamp : i ≠ .samp) : t.rej = s.rej := by
  obtain ⟨_, -, -, hrej, -⟩ := exec_next_frame i h
  exact hrej hdec hsamp

theorem exec_next_tblv (h : exec i s = .next t) : t.tblv = (s.tblv || decide (i = .tblbuild)) := by
  obtain ⟨_, -, -, -, htblv, -⟩ := exec_next_frame i h
  exact htblv

theorem exec_next_discard (h : exec i s = .next t) (hi : i ≠ .samp) : t.discard = s.discard := by
  obtain ⟨_, -, -, -, -, -, hdiscard, -⟩ := exec_next_frame i h
  exact hdiscard hi

/-- OVF takes the pending overflow flag, which only the commands that store counters can set (R28, R81). -/
theorem exec_next_ovf (h : exec i s = .next t) :
    ∃ p : Bool, t.ovf = (s.ovf || p) ∧ (i ∉ [Instr.hacc, .hwr, .samp, .fwht] → p = false) := by
  obtain ⟨p, ht, -, -, -, -, -, -, hp⟩ := exec_next_frame i h
  exact ⟨p, congrArg State.ovf ht, hp⟩

/-! ### What a completion does not depend on -/

/-- The state with another latched error, OVF, A and B: what STATUS, A and B writes reach while a command is in flight (R16, R17, R23). -/
def State.withHostFields (s : State) (e : Option ErrCode) (o : Bool) (a b : Word) : State :=
  { s with err := e, ovf := o, a := a, b := b }

/-- A STATUS write in terms of the fields it may clear (R23). -/
theorem writeStatus_eq_withHostFields (w : Word) (s : State) :
    writeStatus w s =
      s.withHostFields (if w.getLsbD 1 then none else s.err) (if w.getLsbD 2 then false else s.ovf) s.a s.b :=
  writeStatus_eq w s

/-- Other values of the latched error, OVF, A and B pass through the completion of i that takes s to t, which puts the same pending
overflow flag to OVF. -/
def PassesHostFields (i : Instr) (s t : State) : Prop :=
  ∃ p : Bool, t.ovf = (s.ovf || p) ∧
    ∀ e o a b, exec i (s.withHostFields e o a b) = .next (t.withHostFields e (o || p) a b)

theorem PassesHostFields.of_ovf_unchanged (hovf : t.ovf = s.ovf)
    (h : ∀ e o a b, exec i (s.withHostFields e o a b) = .next (t.withHostFields e o a b)) : PassesHostFields i s t :=
  ⟨false, by rw [hovf, Bool.or_false], fun e o a b => by rw [h, Bool.or_false]⟩

/-- A completion works from the record, not from what the host may write meanwhile (R16, R17, R20, R54). -/
theorem exec_passesHostFields (h : exec i s = .next t) : PassesHostFields i s t := by
  obtain ⟨f, hf⟩ := exec_next_flight i h
  cases i with
  | nop =>
    rw [exec, execNop_eq hf] at h; cases h
    exact .of_ovf_unchanged rfl fun e o a b => execNop_eq (s := s.withHostFields e o a b) hf
  | par =>
    rw [exec, execPar_eq hf] at h; cases h
    exact .of_ovf_unchanged rfl fun e o a b => execPar_eq (s := s.withHostFields e o a b) hf
  | popc =>
    rw [exec, execPopc_eq hf] at h; cases h
    exact .of_ovf_unchanged rfl fun e o a b => execPopc_eq (s := s.withHostFields e o a b) hf
  | tblbuild =>
    rw [exec, execTblbuild_eq hf] at h; cases h
    exact .of_ovf_unchanged rfl fun e o a b => execTblbuild_eq (s := s.withHostFields e o a b) hf
  | tblrd =>
    obtain ⟨f, x, hf, hx, rfl⟩ := execTblrd_next h
    exact .of_ovf_unchanged rfl fun e o a b => execTblrd_eq (s := s.withHostFields e o a b) hf hx
  | dec =>
    obtain ⟨f, v, hf, hv, rfl⟩ := execDec_next h
    exact .of_ovf_unchanged rfl fun e o a b => execDec_eq (s := s.withHostFields e o a b) hf hv
  | proj =>
    obtain ⟨f, v, hf, hv, rfl⟩ := execProj_next h
    exact .of_ovf_unchanged rfl fun e o a b => execProj_eq (s := s.withHostFields e o a b) hf hv
  | projp =>
    rw [exec, execProjp_eq hf] at h; cases h
    exact .of_ovf_unchanged rfl fun e o a b => execProjp_eq (s := s.withHostFields e o a b) hf
  | hclr =>
    rw [exec, execHclr_eq hf] at h; cases h
    exact .of_ovf_unchanged rfl fun e o a b => execHclr_eq (s := s.withHostFields e o a b) hf
  | hacc =>
    obtain ⟨f, r, hf, hr, rfl⟩ := execHacc_next h
    exact ⟨r.pend, rfl, fun e o a b => execHacc_eq (s := s.withHostFields e o a b) hf hr⟩
  | hwr =>
    obtain ⟨f, hf, hi, rfl⟩ := execHwr_next h
    exact ⟨hwrOverflows s.cfg f.b, rfl, fun e o a b => execHwr_eq (s := s.withHostFields e o a b) hf hi⟩
  | hrd =>
    obtain ⟨f, v, hf, hv, rfl⟩ := execHrd_next h
    exact .of_ovf_unchanged rfl fun e o a b => execHrd_eq (s := s.withHostFields e o a b) hf hv
  | samp =>
    obtain ⟨f, hf, ⟨run, hv, rfl⟩ | ⟨lab, run, r, hv, hr, rfl⟩⟩ := execSamp_next h
    · exact .of_ovf_unchanged rfl fun e o a b => execSamp_reject (s := s.withHostFields e o a b) hf hv
    · exact ⟨r.pend, rfl, fun e o a b => execSamp_accept (s := s.withHostFields e o a b) hf hv hr⟩
  | fwht =>
    obtain ⟨f, r, hf, hr, rfl⟩ := execFwht_next h
    exact ⟨r.pend, rfl, fun e o a b => execFwht_eq (s := s.withHostFields e o a b) hf hr⟩

end Sys2Proof.Machine
end

section
/-! SUPPORT. The register port and the decoder, as the register claims need them: OVF and TBLV after a port write, fields of a packed word,
the verdict of DEC and SAMP, and the thresholds that reject nothing. -/

namespace Sys2Proof.Machine

open Sys2Proof

/-! ### OVF and TBLV after a port write -/

/-- Only a STATUS write with bit 2 set reaches OVF (R23, R28). -/
theorem writeReg_ovf (r : Reg) (w : Word) (s : State) :
    (writeReg r w s).ovf = if r = .status ∧ w.getLsbD 2 = true then false else s.ovf := by
  cases r with
  | status => simp [writeReg, writeStatus_eq]
  | cmd => rw [writeReg, issue_frame]; simp
  | ctrl => simp only [writeReg, writeCtrl]; split <;> simp
  | discard => simp only [writeReg, writeDiscard]; split <;> simp
  | id => simp [writeReg]
  | a => simp [writeReg]
  | b => simp [writeReg]
  | res => simp [writeReg]

/-- Only an accepted CTRL write reaches TBLV (R25, R29). -/
theorem writeReg_tblv (r : Reg) (w : Word) (s : State) :
    (writeReg r w s).tblv = if r = .ctrl ∧ s.flight = none then false else s.tblv := by
  cases r with
  | ctrl =>
    by_cases hf : s.flight = none
    · simp [writeReg, writeCtrl_idle hf, hf]
    · simp [writeReg, writeCtrl_busy hf, hf]
  | cmd => rw [writeReg, issue_frame]; simp
  | discard => simp only [writeReg, writeDiscard]; split <;> simp
  | status => simp [writeReg, writeStatus_eq]
  | id => simp [writeReg]
  | a => simp [writeReg]
  | b => simp [writeReg]
  | res => simp [writeReg]

/-! ### Fields of packed words -/

/-- A bit field of a word, from the field of its number (R10). -/
theorem extractLsb'_eq_ofNat {w : Word} {lo len x : Nat} (h : field w.toNat lo len = x % 2 ^ len) :
    w.extractLsb' lo len = BitVec.ofNat len x := by
  apply BitVec.eq_of_toNat_eq
  rw [BitVec.extractLsb'_toNat, BitVec.toNat_ofNat, ← h, field, Nat.shiftRight_eq_div_pow]

/-- The build parameters and codes in ID, each in its own field, with the reserved bits 0 (R24). -/
theorem idWord_fields (c : Config) :
    field (idWord c).toNat 0 8 = c.ql % 2 ^ 8 ∧ field (idWord c).toNat 8 8 = c.rf % 2 ^ 8 ∧
    field (idWord c).toNat 16 8 = c.tf % 2 ^ 8 ∧ field (idWord c).toNat 24 8 = c.is % 2 ^ 8 ∧
    field (idWord c).toNat 32 8 = c.cw % 2 ^ 8 ∧ field (idWord c).toNat 40 2 = drulecode c.drule % 2 ^ 2 ∧
    field (idWord c).toNat 42 1 = tscopeCode c.tscope % 2 ^ 1 ∧ field (idWord c).toNat 43 13 = 0 % 2 ^ 13 ∧
    field (idWord c).toNat 56 8 = 1 % 2 ^ 8 := by
  have hql := c.ql_le
  have hrf := c.rf_le
  have htf : c.tf ≤ 30 := c.tf_le.trans c.is_le
  have his := c.is_le
  have hcw := c.cw_le
  have hd : drulecode c.drule < 4 := by cases c.drule <;> decide
  have ht : tscopeCode c.tscope < 2 := by cases c.tscope <;> decide
  simp only [idWord_toNat, field]
  refine ⟨?_, ?_, ?_, ?_, ?_, ?_, ?_, ?_, ?_⟩ <;> omega

/-- Bit 63 of a decode result is its REJ field, when the other fields keep to their widths (R73). -/
theorem packResult_getLsbD_63 (rej : Bool) {d l : Nat} (hd : d < 2 ^ 16) (hl : l < 2 ^ 32) :
    (packResult rej d l).getLsbD 63 = rej := by
  rw [← BitVec.testBit_toNat, packResult_toNat rej hd hl, Nat.testBit_eq_decide_div_mod_eq]
  cases rej with
  | false => exact decide_eq_false (by simp only [Bool.toNat_false]; omega)
  | true => exact decide_eq_true (by simp only [Bool.toNat_true]; omega)

/-! ### Verdicts -/

theorem Verdict.rej_iff (v : Verdict) : v.rej = true ↔ ∃ run, v = .reject run := by
  cases v <;> simp [Verdict.rej]

/-- Over a built table bit 63 of a verdict's word is the verdict (R27, R73, R80). -/
theorem tableDecode_word_getLsbD_63 {c : Config} {m T : Nat} {v : Verdict}
    (h : tableDecode c (buildTable c T) m T = .ok v) : v.word.getLsbD 63 = v.rej := by
  have hcount : directCount c m ≤ 30 := (directCount_le c m).trans c.is_le
  obtain ⟨v', hv', hcases⟩ := tableDecode_ok c m T
  obtain rfl : v' = v := Except.ok.inj (hv'.symm.trans h)
  rcases hcases with ⟨lab, d, hdirect, rfl⟩ | ⟨-, k, hk, rfl⟩
  · obtain ⟨-, rfl, rfl⟩ := (direct_some_iff c m T).mp hdirect
    have hlabel : directLabel c m < 2 ^ 32 :=
      (directLabel_lt c m).trans_le (Nat.pow_le_pow_right (by decide) (c.is_le.trans (by decide)))
    exact packResult_getLsbD_63 false (by omega) hlabel
  · have hrun : countUpTo c m (k + 1) ≤ directCount c m := countUpTo_le_direct c m hk
    exact packResult_getLsbD_63 true (by omega) (by decide)

/-- DEC and SAMP put the verdict of the decoder on the latched word into RES and REJ (R76, R86). -/
theorem exec_next_verdict {i : Instr} {s t : State} {f : Flight} (hi : i = .dec ∨ i = .samp) (hf : s.flight = some f)
    (h : exec i s = .next t) :
    ∃ v, tableDecode s.cfg s.table (opM s.cfg f) (opT f) = .ok v ∧ t.res = v.word ∧ t.rej = v.rej := by
  rcases hi with rfl | rfl
  · obtain ⟨g, v, hg, hv, rfl⟩ := execDec_next h
    obtain rfl : g = f := Option.some.inj (hg.symm.trans hf)
    exact ⟨v, hv, rfl, rfl⟩
  · obtain ⟨g, hg, ⟨run, hv, rfl⟩ | ⟨lab, run, r, hv, -, rfl⟩⟩ := execSamp_next h
    · obtain rfl : g = f := Option.some.inj (hg.symm.trans hf)
      exact ⟨.reject run, hv, rfl, rfl⟩
    · obtain rfl : g = f := Option.some.inj (hg.symm.trans hf)
      exact ⟨.accept lab run, hv, rfl, rfl⟩

/-- SAMP counts a reject in DISCARD and leaves DISCARD alone on an accept (R31, R86). -/
theorem execSamp_next_discard {s t : State} (h : execSamp s = .next t) :
    t.discard = if t.rej then s.discard + 1 else s.discard := by
  obtain ⟨f, -, ⟨run, -, rfl⟩ | ⟨lab, run, r, -, -, rfl⟩⟩ := execSamp_next h
  · rfl
  · rfl

/-- No batch triggers a reject under a threshold that no count exceeds (R25). -/
theorem trigger_eq_false_of_le {c : Config} {m T k : Nat} (hk : k < c.nb) (hbatch : c.tscope = .batch → c.tf ≤ T)
    (hword : c.tscope = .word → c.is ≤ T) : trigger c m T k = false := by
  unfold trigger
  cases hscope : c.tscope with
  | batch =>
    have hcount : batchCount c m k ≤ c.tf := countBits_le _ _
    exact decide_eq_false (not_lt.mpr (hcount.trans (hbatch hscope)))
  | word =>
    have hcount : countUpTo c m (k + 1) ≤ c.is := (countUpTo_le_direct c m hk).trans (directCount_le c m)
    exact decide_eq_false (not_lt.mpr (hcount.trans (hword hscope)))

end Sys2Proof.Machine
end

section
/-! The claims about the registers and the flags of STATUS (R16 to R31). -/

namespace Sys2Proof.Machine

open Sys2Proof

/-- Settles O14: the fields come from ID's number; no port write and no completion touches the build, which is all that ID shows. -/
theorem idWordLayout : Obligations.IdWordLayout := by
  refine ⟨fun c => ?_, by decide, by decide, by decide, fun r v s => ?_, fun i s t h => ?_⟩
  · obtain ⟨hql, hrf, htf, his, hcw, hdrule, htscope, hreserved, hversion⟩ := idWord_fields c
    refine ⟨extractLsb'_eq_ofNat hql, extractLsb'_eq_ofNat hrf, extractLsb'_eq_ofNat htf, extractLsb'_eq_ofNat his,
      extractLsb'_eq_ofNat hcw, ?_, ?_, extractLsb'_eq_ofNat hreserved, extractLsb'_eq_ofNat hversion⟩
    · rw [extractLsb'_eq_ofNat hdrule]
      cases c.drule <;> rfl
    · rw [extractLsb'_eq_ofNat htscope]
      cases c.tscope <;> rfl
  · obtain ⟨hcfg, -⟩ := writeReg_frame r v s
    exact congrArg idWord hcfg
  · exact congrArg idWord (exec_next_cfg h)

/-- Settles O20: a completion passes the fields that STATUS writes clear through, so it commutes with the write but for OVF, where the
pending overflow flag comes last. -/
theorem statusWriteClears : Obligations.StatusWriteClears := by
  refine ⟨fun s v => writeStatus_eq v s, fun i s u v h => ?_⟩
  obtain ⟨p, hovf, hexec⟩ := exec_passesHostFields h
  have hflight : u.flight = none := exec_next_flight_none h
  refine ⟨_, (congrArg (exec i) (writeStatus_eq_withHostFields v s)).trans (hexec _ _ _ _), rfl, rfl, rfl, rfl, rfl, rfl,
    hflight, fun hs hu => ?_⟩
  have hp : p = true := by simpa [hs, hu] using hovf.symm
  simp [State.withHostFields, hp]

/-- Settles O21: a completion works from the record, and A and B pass through it. -/
theorem operandRegistersAreTheHosts : Obligations.OperandRegistersAreTheHosts := by
  refine ⟨fun s v => ⟨rfl, rfl, rfl, rfl⟩, fun i s t v w h => ⟨exec_next_a h, exec_next_b h, ?_⟩, fun c => ⟨rfl, rfl⟩⟩
  obtain ⟨p, hovf, hexec⟩ := exec_passesHostFields h
  exact (hexec s.err s.ovf v w).trans (by rw [← hovf, ← exec_next_err h]; rfl)

/-- Settles O22: under a threshold that no count exceeds no batch triggers. -/
theorem thresholdRegister : Obligations.ThresholdRegister := by
  refine ⟨fun s v => ⟨rfl, writeCtrl_idle, writeCtrl_busy⟩, fun c => rfl, fun c m T hbatch hword => ?_⟩
  exact ⟨_, _, tableDecode_accept c m T fun k hk => trigger_eq_false_of_le hk hbatch hword⟩

/-- Settles O23: of the commands only SAMP reaches DISCARD, on a reject. -/
theorem discardCounter : Obligations.DiscardCounter := by
  refine ⟨fun s t h => ?_, fun i s t hi h => exec_next_discard h hi, fun s v => ⟨writeDiscard_idle, writeDiscard_busy⟩,
    fun c => rfl⟩
  have hdiscard := execSamp_next_discard h
  refine ⟨fun hrej => ?_, fun hrej => ?_⟩
  · rw [hdiscard, if_pos hrej]
    exact BitVec.toNat_add s.discard 1
  · simpa [hrej] using hdiscard

/-- Settles O25, from the frame of every command and of every port write. -/
theorem onlyResultCommandsWriteRes : Obligations.OnlyResultCommandsWriteRes := by
  refine ⟨fun i s t hi h => exec_next_res h hi, fun r v s => ?_, fun c => rfl⟩
  obtain ⟨-, hres, -⟩ := writeReg_frame r v s
  exact hres

/-- Settles O26: TBLV = 1 makes TABLE the one built with the latched threshold, so the verdict's word keeps its fields apart. -/
theorem onlyDecAndSampWriteRej : Obligations.OnlyDecAndSampWriteRej := by
  refine ⟨fun i s t f hinv htblv hf hi h => ?_, fun i s t hdec hsamp h => exec_next_rej h hdec hsamp, fun r v s => ?_,
    fun c => rfl⟩
  · obtain ⟨v, hv, hres, hrej⟩ := exec_next_verdict hi hf h
    have hthr : f.thr = s.thresh := (hinv.flight f hf).thr
    have htable : s.table = buildTable s.cfg f.thr.toNat := by rw [hinv.table htblv, hthr]
    rw [opM, field_zero_lo, opT] at hv
    refine ⟨?_, ?_⟩
    · rw [htable] at hv
      rw [hres, hrej, tableDecode_word_getLsbD_63 hv]
    · rw [hrej, hv, v.rej_iff]
      simp only [Except.ok.injEq]
  · obtain ⟨-, -, hrej, -⟩ := writeReg_frame r v s
    exact hrej

/-- Settles O27: a completion only joins the pending overflow flag to OVF, and a step from a state that has it faults. -/
theorem overflowIsSticky : Obligations.OverflowIsSticky := by
  refine ⟨fun i s t h => ?_, writeReg_ovf, finish_ovf, resetBlock_ovf, fun s hs t h => ?_⟩
  · obtain ⟨p, hovf, hp⟩ := exec_next_ovf h
    exact ⟨fun hs => by rw [hovf, hs, Bool.true_or], fun hi => by rw [hovf, hp hi, Bool.or_false]⟩
  · rw [step_ovf hs] at h
    cases h

/-- Settles O28, from the value of TBLV after every command and after every port write. -/
theorem tableValidFlag : Obligations.TableValidFlag := by
  refine ⟨fun s t h => ?_, fun i s t hi h => ?_, writeReg_tblv, resetBlock_tblv⟩
  · rw [exec_next_tblv h, decide_eq_true rfl, Bool.or_true]
  · rw [exec_next_tblv h, decide_eq_false hi, Bool.or_false]

end Sys2Proof.Machine
end

section
/-! SUPPORT. The byte order of a bridged register (R40): the bits each byte of the window holds, that its eight bytes make up the register,
and which bridged transactions are well formed. -/

namespace Sys2Proof.Machine

open Sys2Proof

/-! ### The bytes of a register -/

/-- Every bit of a register lies in one byte of its window, in either order (R40). -/
theorem exists_byteLsb_add (e : Endian) {j : Nat} (hj : j < 64) : ∃ k i, k < 8 ∧ i < 8 ∧ j = byteLsb e k + i := by
  cases e with
  | little => exact ⟨j / 8, j % 8, by omega, by omega, by simp only [byteLsb]; omega⟩
  | big => exact ⟨7 - j / 8, j % 8, by omega, by omega, by simp only [byteLsb]; omega⟩

/-- A register is determined by the bytes of its window (R40). -/
theorem eq_of_bytes_eq (e : Endian) {w v : Word}
    (h : ∀ k, k < 8 → w.extractLsb' (byteLsb e k) 8 = v.extractLsb' (byteLsb e k) 8) : w = v := by
  refine BitVec.eq_of_getLsbD_eq fun j hj => ?_
  obtain ⟨k, i, hk, hi, rfl⟩ := exists_byteLsb_add e hj
  simpa [BitVec.getLsbD_extractLsb', hi] using congrArg (·.getLsbD i) (h k hk)

@[simp] theorem length_toBytes (e : Endian) (w : Word) : (toBytes e w).length = 8 := by
  simp [toBytes]

theorem toBytes_getElem? (e : Endian) (w : Word) {k : Nat} (hk : k < 8) :
    (toBytes e w)[k]? = some (w.extractLsb' (byteLsb e k) 8) := by
  simp [toBytes, hk]

/-- The bits of a union over a list are the bits of its members. -/
theorem getLsbD_foldl_or (f : Nat → Word) (l : List Nat) (w : Word) (j : Nat) :
    (l.foldl (fun w k => w ||| f k) w).getLsbD j = (w.getLsbD j || l.any fun k => (f k).getLsbD j) := by
  induction l generalizing w with
  | nil => simp
  | cons k l ih => simp [ih, Bool.or_assoc]

/-- A byte put at position k' of the window reaches the bits of position k only when the positions are the same (R40). -/
theorem getLsbD_placedByte (e : Endian) (b : Byte) {k k' i : Nat} (hk : k < 8) (hk' : k' < 8) (hi : i < 8) :
    (b.setWidth 64 <<< byteLsb e k').getLsbD (byteLsb e k + i) = (decide (k' = k) && b.getLsbD i) := by
  have hbit : byteLsb e k + i < 64 := by cases e <;> simp only [byteLsb] <;> omega
  have hi' : i < 64 := hi.trans (by decide)
  rw [BitVec.getLsbD_shiftLeft, BitVec.getLsbD_setWidth, decide_eq_true hbit]
  by_cases h : k' = k
  · subst h
    simp [hi']
  · have hout : byteLsb e k + i < byteLsb e k' ∨ 8 ≤ byteLsb e k + i - byteLsb e k' := by
      cases e <;> simp only [byteLsb] <;> omega
    rcases hout with hlow | hhigh
    · simp [h, hlow]
    · simp [h, BitVec.getLsbD_of_ge b _ hhigh]

/-- The bits of the register that bytes make are those of the placed bytes (R40). -/
theorem getLsbD_ofBytes (e : Endian) (bs : List Byte) (j : Nat) :
    (ofBytes e bs).getLsbD j = (List.range 8).any fun k => ((bs.getD k 0).setWidth 64 <<< byteLsb e k).getLsbD j := by
  have hzero : (0 : Word).getLsbD j = false := BitVec.getLsbD_zero
  rw [ofBytes, getLsbD_foldl_or, hzero, Bool.false_or]

/-- The register that eight bytes make holds byte k in the bits of position k (R40). -/
theorem extractLsb'_ofBytes (e : Endian) (bs : List Byte) {k : Nat} (hk : k < 8) :
    (ofBytes e bs).extractLsb' (byteLsb e k) 8 = bs.getD k 0 := by
  refine BitVec.eq_of_getLsbD_eq fun i hi => ?_
  rw [BitVec.getLsbD_extractLsb', decide_eq_true hi, Bool.true_and, getLsbD_ofBytes, Bool.eq_iff_iff, List.any_eq_true]
  constructor
  · rintro ⟨k', hk', hbit⟩
    rw [getLsbD_placedByte e _ hk (List.mem_range.mp hk') hi, Bool.and_eq_true, decide_eq_true_eq] at hbit
    obtain ⟨rfl, hbit⟩ := hbit
    exact hbit
  · intro hbit
    refine ⟨k, List.mem_range.mpr hk, ?_⟩
    rw [getLsbD_placedByte e _ hk hk hi, decide_eq_true rfl, Bool.true_and, hbit]

/-- What is written over a bridge reads back (R40). -/
theorem ofBytes_toBytes (e : Endian) (w : Word) : ofBytes e (toBytes e w) = w := by
  refine eq_of_bytes_eq e fun k hk => ?_
  rw [extractLsb'_ofBytes e _ hk, List.getD_eq_getElem?_getD, toBytes_getElem? e w hk, Option.getD_some]

theorem toBytes_ofBytes (e : Endian) {bs : List Byte} (h : bs.length = 8) : toBytes e (ofBytes e bs) = bs := by
  refine List.ext_getElem? fun k => ?_
  by_cases hk : k < 8
  · rw [toBytes_getElem? e _ hk, extractLsb'_ofBytes e bs hk, List.getElem?_eq_getElem (h ▸ hk),
      List.getD_eq_getElem bs 0 (h ▸ hk)]
  · rw [List.getElem?_eq_none (by simp; omega), List.getElem?_eq_none (by omega)]

/-! ### Bridged transactions -/

/-- A bus address at offset o from LFC_BASE lies in the window exactly when o does (R36). -/
theorem onBus_lfcBase_add (o : Nat) : onBus (lfcBase + o) = decide (o < 64) := by
  simp [onBus]

/-- A bridged transaction is well formed exactly when its offset is that of a register and it moves eight bytes (R36, R40, R41). -/
theorem busRead_wf_iff (o n : Nat) : (Access.busRead (lfcBase + o) n).wf = true ↔ o % 8 = 0 ∧ o < 64 ∧ n = 8 := by
  simp only [Access.wf, onBus_lfcBase_add, Nat.add_sub_cancel_left, aligned, Bool.and_eq_true, beq_iff_eq, decide_eq_true_eq]
  tauto

theorem busWrite_wf_iff (o : Nat) (bs : List Byte) :
    (Access.busWrite (lfcBase + o) bs).wf = true ↔ o % 8 = 0 ∧ o < 64 ∧ bs.length = 8 :=
  busRead_wf_iff o bs.length

theorem hostAccess_of_wf {x : Access} (h : x.wf = true) (s : State) : hostAccess x s = .next (perform x s) :=
  if_pos h

/-- A bridged write of a register's bytes does what the port write of the register does (R36, R40). -/
theorem perform_busWrite_toBytes (o : Nat) (w : Word) (s : State) :
    perform (.busWrite (lfcBase + o) (toBytes s.cfg.endian w)) s = perform (.write o 64 w) s := by
  simp only [perform, Nat.add_sub_cancel_left, ofBytes_toBytes]

/-- A bridged read answers the bytes of the register at its offset (R36, R40). -/
theorem perform_busRead (o n : Nat) (s : State) :
    perform (.busRead (lfcBase + o) n) s = { s with reply := .bytes (toBytes s.cfg.endian (readReg (regAt o) s)) } := by
  simp only [perform, Nat.add_sub_cancel_left]

end Sys2Proof.Machine
end

section
/-! SUPPORT. Which counters are written after a write, a sample, a transform and a completed command (R38). -/

namespace Sys2Proof.Machine

open Sys2Proof

variable {c : Config} {m : Memory} {i : Instr} {s t : State}

/-- A write makes its own counter written and no other (R38). -/
theorem Memory.read_write_eq_none_iff (h : m.wf c) {k j : Nat} (v : Int) (hk : k < c.hsize) (hj : j < c.hsize) :
    (m.write c.hsize k v).read j = none ↔ j ≠ k ∧ m.read j = none := by
  by_cases hjk : j = k
  · subst hjk
    simp [Memory.read_write_same h]
  · simp [Memory.read_write_other h v hk hj hjk, hjk]

/-- A sample writes only the counter it has read, so it makes none written (R38, R83). -/
theorem accumulate_read_eq_none_iff (h : m.wf c) {k j : Nat} {d : Int} {r : HistRun} (hr : accumulate c m k d = .ok r)
    (hj : j < c.hsize) : r.mem.read j = none ↔ m.read j = none := by
  obtain ⟨v, hk, hv, rfl⟩ := accumulate_next hr
  rw [Memory.read_write_eq_none_iff h _ hk hj]
  refine ⟨And.right, fun hn => ⟨?_, hn⟩⟩
  rintro rfl
  rw [hn] at hv
  cases hv

/-- A transform that completes found every counter written, and leaves every counter written (R38, R89). -/
theorem fwhtLoop_ok_allWritten (h : m.wf c) {r : HistRun} (hr : fwhtLoop c ⟨m, false⟩ = .ok r) :
    AllWritten c m ∧ AllWritten c r.mem := by
  have ha : AllWritten c m := by
    by_contra hna
    obtain ⟨_, _, he⟩ := fwhtLoop_unwritten h hna
    rw [hr] at he
    cases he
  obtain ⟨r', hr', _, ha', _⟩ := fwhtLoop_spec h ha
  rw [hr] at hr'
  cases hr'
  exact ⟨ha, ha'⟩

/-- HCLR leaves every counter written with 0 (R38, R82). -/
theorem execHclr_next_read (h : execHclr s = .next t) (j : Nat) : t.hist.read j = some 0 := by
  obtain ⟨f, _, _, -, he, rfl⟩ := complete_next_iff.mp h
  cases he
  rfl

/-- The counter an HWR writes is the only one that it makes written (R38, R84). -/
theorem execHwr_read_eq_none_iff (hw : s.hist.wf s.cfg) (h : execHwr s = .next t) {j : Nat} (hj : j < s.cfg.hsize) :
    ∃ f, s.flight = some f ∧ (t.hist.read j = none ↔ j ≠ opI s.cfg f ∧ s.hist.read j = none) := by
  obtain ⟨f, hf, hi, rfl⟩ := execHwr_next h
  exact ⟨f, hf, Memory.read_write_eq_none_iff hw _ hi hj⟩

/-- A completed command other than HCLR and HWR leaves the written counters written and the unwritten ones unwritten (R38). -/
theorem exec_next_read_eq_none_iff (hw : s.hist.wf s.cfg) (h : exec i s = .next t) (hhclr : i ≠ .hclr) (hhwr : i ≠ .hwr)
    {j : Nat} (hj : j < s.cfg.hsize) : t.hist.read j = none ↔ s.hist.read j = none := by
  by_cases hin : i ∉ [Instr.hclr, .hacc, .hwr, .samp, .fwht]
  · obtain ⟨_, -, -, -, -, -, -, hhist, -⟩ := exec_next_frame i h
    rw [hhist hin]
  · have hi : i = .hacc ∨ i = .samp ∨ i = .fwht := by
      simp only [List.mem_cons, List.not_mem_nil, or_false, not_not] at hin
      tauto
    rcases hi with rfl | rfl | rfl
    · obtain ⟨_, _, _, hr, rfl⟩ := execHacc_next h
      exact accumulate_read_eq_none_iff hw hr hj
    · obtain ⟨_, _, ⟨_, _, rfl⟩ | ⟨_, _, _, _, hr, rfl⟩⟩ := execSamp_next h
      · exact Iff.rfl
      · exact accumulate_read_eq_none_iff hw hr hj
    · obtain ⟨_, _, _, hr, rfl⟩ := execFwht_next h
      obtain ⟨ha, ha'⟩ := fwhtLoop_ok_allWritten hw hr
      exact iff_of_false (ha' j hj) (ha j hj)

end Sys2Proof.Machine
end

section
/-! The claims about the memories and the bridge (R32 to R41). -/

namespace Sys2Proof.Machine

open Sys2Proof

/-- Settles O51: HCLR writes every counter, HWR its own; every other command reads a counter before it writes it. -/
theorem countersStayWritten : Obligations.CountersStayWritten := by
  refine ⟨fun s j => Memory.read_unwritten j, fun c m j hj => ⟨histRead_of_unwritten hj, fun v => histRead_of_read hj⟩,
    fun i s t j hw h hj => ?_⟩
  by_cases hhclr : i = .hclr
  · subst hhclr
    have hread : t.hist.read j = some 0 := execHclr_next_read h j
    exact ⟨fun _ => by simp [hread], fun _ _ => .inl rfl⟩
  by_cases hhwr : i = .hwr
  · subst hhwr
    obtain ⟨f, hf, hiff⟩ := execHwr_read_eq_none_iff hw h hj
    refine ⟨fun hs ht => hs (hiff.mp ht).2, fun hs ht => .inr ⟨rfl, f, hf, ?_⟩⟩
    rw [← field_zero_lo, ← opI]
    by_contra hne
    exact ht (hiff.mpr ⟨Ne.symm hne, hs⟩)
  · have hiff := exec_next_read_eq_none_iff hw h hhclr hhwr hj
    exact ⟨mt hiff.mp, fun hs ht => absurd (hiff.mpr hs) ht⟩

/-- Settles O60: the eight bytes of the window make up the register in either order, and LFC_BASE drops out of a bridged offset. -/
theorem bridgeByteOrder : Obligations.BridgeByteOrder := by
  refine ⟨fun w k hk => ⟨toBytes_getElem? .little w hk, toBytes_getElem? .big w hk⟩,
    fun e w => ⟨length_toBytes e w, ofBytes_toBytes e w⟩, fun e bs h => toBytes_ofBytes e h, fun s o w ho hlt => ⟨?_, ?_⟩⟩
  · rw [hostAccess_of_wf ((busWrite_wf_iff o _).mpr ⟨ho, hlt, length_toBytes _ w⟩), perform_busWrite_toBytes,
      hostAccess_of_wf ((write_wf_iff o 64 w).mpr ⟨ho, hlt, rfl⟩)]
  · rw [hostAccess_of_wf ((busRead_wf_iff o 8).mpr ⟨ho, hlt, rfl⟩), perform_busRead]

end Sys2Proof.Machine
end

section
/-! SUPPORT. Command words and their issue, as the claims about CMD writes need them: the illegal words by number (R59), the checks of R52 as
columns of the opcode table, what an issue answers at each check, and STATUS.BUSY as a bit. -/

namespace Sys2Proof.Machine

open Sys2Proof

/-! ### Legal and illegal words -/

/-- OP as a number (R51). -/
theorem opField_toNat (w : Word) : (opField w).toNat = w.toNat % 2 ^ 8 := by
  simp [opField, BitVec.extractLsb'_toNat]

/-- A word that decodes is the word of the command it decodes to (R60). -/
theorem eq_encode_of_decode {w : Word} {i : Instr} (h : decode w = .ok i) : w = encode i := by
  obtain ⟨hrsv, hop⟩ := decode_eq_ok.mp h
  obtain ⟨hrsv', hop'⟩ := decode_eq_ok.mp (decode_encode i)
  apply BitVec.eq_of_toNat_eq
  rw [word_of_fields w, word_of_fields (encode i), hrsv, hop, hrsv', hop']

/-- The OP values outside the opcode table (R59). -/
theorem decodeOp_eq_none_iff (op : BitVec 8) :
    decodeOp op = none ↔
      (0x03 ≤ op.toNat ∧ op.toNat ≤ 0x0F) ∨ (0x15 ≤ op.toNat ∧ op.toNat ≤ 0x1F) ∨
      (0x25 ≤ op.toNat ∧ op.toNat ≤ 0x2F) ∨ (0x31 ≤ op.toNat ∧ op.toNat ≤ 0xFF) := by
  revert op
  decide

/-- A word is illegal for a bit of RSV or for an OP outside the opcode table (R51, R59). -/
theorem exists_decode_eq_error_iff (w : Word) :
    (∃ e, decode w = .error e) ↔ 2 ^ 8 ≤ w.toNat ∨ decodeOp (opField w) = none := by
  unfold decode
  by_cases hrsv : rsvField w = 0
  · have hlow : w.toNat < 2 ^ 8 := (rsvField_eq_zero_iff w).mp hrsv
    rw [if_pos hrsv]
    cases decodeOp (opField w) with
    | none => simp
    | some i => simpa using hlow
  · have hhigh : 2 ^ 8 ≤ w.toNat := not_lt.mp (mt (rsvField_eq_zero_iff w).mpr hrsv)
    simp only [if_neg hrsv, hhigh, true_or, iff_true]
    exact ⟨_, rfl⟩

/-- A word that decodes to no command is illegal (R51). -/
theorem exists_decode_eq_error_of_ne_ok {w : Word} (h : ∀ i, decode w ≠ .ok i) : ∃ e, decode w = .error e := by
  cases hd : decode w with
  | error e => exact ⟨e, rfl⟩
  | ok i => exact absurd hd (h i)

/-! ### The checks as columns of the opcode table -/

theorem needsTable_iff (i : Instr) : i.needsTable = true ↔ i ∈ [Instr.tblrd, .dec, .proj, .samp] := by
  cases i <;> decide

/-- Of the commands that read TABLE none has a label index (R58). -/
theorem needsTable_eq_false_of_label {i : Instr} (h : i ∈ [Instr.hacc, .hwr, .hrd]) : i.needsTable = false := by
  revert h
  cases i <;> decide

/-- Check 5 of R52 by command: HACC, HWR and HRD bound A by the labels, TBLRD by the table entries, no other command bounds it. -/
theorem indexOk_idxLimit_iff (c : Config) (i : Instr) (a : Word) :
    indexOk c i.idxLimit a = true ↔
      (i ∈ [Instr.hacc, .hwr, .hrd] → a.toNat < 2 ^ c.is) ∧ (i = .tblrd → a.toNat < 2 ^ c.tb) := by
  cases i <;> simp [Instr.idxLimit, indexOk_label, indexOk_batch]

/-! ### The outcome of an issue -/

theorem issue_of_err {w : Word} {s : State} (h : s.err ≠ none) : issue w s = s := by
  simp [issue, State.hasErr, Option.isSome_iff_ne_none.mpr h]

theorem issue_of_busy {w : Word} {s : State} (herr : s.err = none) (hf : s.flight ≠ none) :
    issue w s = { s with err := some .busy } := by
  simp [issue, State.hasErr, State.busy, herr, Option.isSome_iff_ne_none.mpr hf, latchError]

theorem issue_of_illegal {w : Word} {s : State} {e : Illegal} (hidle : Idle s) (hd : decode w = .error e) :
    issue w s = { s with err := some .illegalCmd } := by
  obtain ⟨herr, hf⟩ := hidle
  simp [issue, State.hasErr, State.busy, herr, hf, hd, latchError]

/-- An illegal word is never put in flight (R52, R59). -/
theorem issue_flight_of_illegal {w : Word} {s : State} {e : Illegal} (hd : decode w = .error e) :
    (issue w s).flight = s.flight := by
  rcases issue_cases w s with ⟨-, h⟩ | ⟨-, _, h, -⟩ | ⟨-, -, i, hok, -⟩
  · rw [h]
  · rw [h]
  · rw [hd] at hok
    cases hok

/-- A legal word at an idle block: checks 4 and 5 of R52, and acceptance when neither applies (R53). -/
theorem issue_of_legal {w : Word} {s : State} {i : Instr} (hidle : Idle s) (hd : decode w = .ok i) :
    issue w s =
      if i.needsTable && !s.tblv then { s with err := some .noTable }
      else if indexOk s.cfg i.idxLimit s.a then accept (opField w) s
      else { s with err := some .badIndex } := by
  obtain ⟨herr, hf⟩ := hidle
  simp [issue, State.hasErr, State.busy, herr, hf, hd, latchError]

theorem issue_of_noTable {w : Word} {s : State} {i : Instr} (hidle : Idle s) (hd : decode w = .ok i)
    (hneeds : i.needsTable = true) (htblv : s.tblv = false) : issue w s = { s with err := some .noTable } := by
  simp [issue_of_legal hidle hd, hneeds, htblv]

theorem issue_of_badIndex {w : Word} {s : State} {i : Instr} (hidle : Idle s) (hd : decode w = .ok i)
    (htable : i.needsTable = true → s.tblv = true) (hindex : ¬ indexOk s.cfg i.idxLimit s.a = true) :
    issue w s = { s with err := some .badIndex } := by
  have hpass : (i.needsTable && !s.tblv) = false := by simpa using htable
  simp [issue_of_legal hidle hd, hpass, hindex]

theorem issue_of_accepted {w : Word} {s : State} {i : Instr} (hidle : Idle s) (hd : decode w = .ok i)
    (htable : i.needsTable = true → s.tblv = true) (hindex : indexOk s.cfg i.idxLimit s.a = true) :
    issue w s = accept (opField w) s := by
  have hpass : (i.needsTable && !s.tblv) = false := by simpa using htable
  simp [issue_of_legal hidle hd, hpass, hindex]

/-- STATUS.BUSY says that a command is in flight (R22, R30). -/
theorem statusWord_getLsbD_zero (s : State) : (statusWord s).getLsbD 0 = s.flight.isSome := by
  have hbusy : s.busy = s.flight.isSome := rfl
  rw [← hbusy, ← BitVec.testBit_toNat, statusWord, BitVec.toNat_ofNat, Nat.testBit_zero]
  cases s.busy with
  | false => exact decide_eq_false (by simp only [Bool.toNat_false]; omega)
  | true => exact decide_eq_true (by simp only [Bool.toNat_true]; omega)

end Sys2Proof.Machine
end

section
/-! The claims about the command word and its issue (R51 to R53, R59). -/

namespace Sys2Proof.Machine

open Sys2Proof

/-- Settles O10: RSV by the size of the word, OP by the rows of the opcode table; only a legal word passes the checks of R52. -/
theorem illegalWordsAreNeverExecuted : Obligations.IllegalWordsAreNeverExecuted := by
  refine fun w => ⟨?_, fun e s hd => ⟨issue_flight_of_illegal hd, fun hidle => issue_of_illegal hidle hd⟩⟩
  rw [exists_decode_eq_error_iff, decodeOp_eq_none_iff, opField_toNat]

/-- Settles O15: one lemma per outcome of an issue, with checks 4 and 5 read off the columns of the opcode table. -/
theorem cmdWriteChecksInOrder : Obligations.CmdWriteChecksInOrder := by
  refine fun w s => ⟨issue_of_err, issue_of_busy, fun hidle hne => ?_, fun i hidle hd => ⟨?_, ?_, ?_, ?_⟩⟩
  · obtain ⟨e, hd⟩ := exists_decode_eq_error_of_ne_ok hne
    exact issue_of_illegal hidle hd
  · exact fun hi htblv => issue_of_noTable hidle hd ((needsTable_iff i).mpr hi) htblv
  · intro hi hhigh
    have htable : i.needsTable = true → s.tblv = true := by simp [needsTable_eq_false_of_label hi]
    refine issue_of_badIndex hidle hd htable fun hindex => ?_
    obtain ⟨hlabel, -⟩ := (indexOk_idxLimit_iff s.cfg i s.a).mp hindex
    exact absurd (hlabel hi) (not_lt.mpr hhigh)
  · intro hi htblv hhigh
    refine issue_of_badIndex hidle hd (fun _ => htblv) fun hindex => ?_
    obtain ⟨-, hentry⟩ := (indexOk_idxLimit_iff s.cfg i s.a).mp hindex
    exact absurd (hentry hi) (not_lt.mpr hhigh)
  · intro htable hlabel hentry
    exact issue_of_accepted hidle hd (fun hn => htable ((needsTable_iff i).mp hn))
      ((indexOk_idxLimit_iff s.cfg i s.a).mpr ⟨hlabel, hentry⟩)

/-- Settles O16: of the outcomes of an issue only acceptance touches the record, and it needs an idle block. -/
theorem acceptanceFillsTheRecord : Obligations.AcceptanceFillsTheRecord := by
  refine ⟨fun w s hf hne => ?_, fun w s f hf => ?_⟩
  · rcases issue_cases w s with ⟨-, h⟩ | ⟨-, _, h, -⟩ | ⟨-, -, _, -, -, -, h⟩
    · exact absurd (by rw [h, hf]) hne
    · exact absurd (by rw [h, hf]) hne
    · refine ⟨h, ?_⟩
      rw [statusWord_getLsbD_zero, h, accept_flight, Option.isSome_some]
  · have hbusy : s.flight ≠ none := by simp [hf]
    refine ⟨?_, fun herr => by rw [issue_of_busy herr hbusy]⟩
    by_cases herr : s.err = none
    · rw [issue_of_busy herr hbusy, hf]
    · rw [issue_of_err herr, hf]

end Sys2Proof.Machine
end

section
/-! SUPPORT. The parity unit (R64 to R66): the issue of a command that no check beyond the first three of R52 concerns, the operands' common
bits, and parity under exclusive or. -/

namespace Sys2Proof.Machine

open Sys2Proof

/-! ### Issue by the word -/

/-- What a CMD write of a legal word does, from the columns of R58 for its command (R52, R53). -/
theorem issuedAs_of_decode {w : Word} {i : Instr} (hd : decode w = .ok i) :
    IssuedAs w fun s =>
      if i.needsTable && !s.tblv then some .noTable
      else if indexOk s.cfg i.idxLimit s.a then none else some .badIndex :=
  eq_encode_of_decode hd ▸ issuedAs_encode i

/-- A command that reads no table and takes no index passes checks 4 and 5 (R52, R58). -/
theorem issuedAs_noCheck_of_decode {w : Word} {i : Instr} (hd : decode w = .ok i) (hneeds : i.needsTable = false)
    (hindex : i.idxLimit = .none) : IssuedAs w noCheck := by
  have h := issuedAs_of_decode hd
  simp only [hneeds, hindex, indexOk_none, Bool.false_and, Bool.false_eq_true, if_false, if_true] at h
  exact h

/-! ### Bits and counts -/

/-- A field of an exclusive or is the exclusive or of the fields (R10). -/
theorem field_xor (v w lo len : Nat) : field (v ^^^ w) lo len = field v lo len ^^^ field w lo len := by
  simp only [field, Nat.xor_div_two_pow, Nat.xor_mod_two_pow]

/-- The population count as the number of bit positions that hold a 1 (R11). -/
theorem popcount_eq_filter (n v : Nat) : popcount n v = ((List.range n).filter v.testBit).length := by
  rw [popcount_eq_sum, ← countBits_eq_sum, countBits_eq_filter]

/-- Parity is linear over GF(2) (R11, R66). -/
theorem parity_xor (n v w : Nat) : parity n (v ^^^ w) = parity n v ^^^ parity n w := by
  have hbit := Nat.xor_mod_two_pow (a := popcount n v) (b := popcount n w) (n := 1)
  rw [pow_one] at hbit
  rw [parity, popcount_xor_mod_two, ← Nat.xor_mod_two_eq, hbit, parity, parity]

/-! ### The operands of form AB -/

/-- The common bits of the operands of PAR and POPC are those of A and B as latched, up to QL (R56, R64, R65). -/
theorem popcount_opU_and_opV (c : Config) (f : Flight) :
    popcount c.ql (opU c f &&& opV c f) =
      ((List.range c.ql).filter fun j => f.a.getLsbD j && f.b.getLsbD j).length := by
  rw [popcount_eq_filter]
  congr 1
  refine List.filter_congr fun j hj => ?_
  have hlt : j < c.ql := List.mem_range.mp hj
  simp [opU, opV, testBit_field, hlt, BitVec.testBit_toNat]

/-- The operands' common bits are linear in A (R56, R66). -/
theorem opU_and_opV_xor (c : Config) (k : BitVec 8) (T : BitVec 16) (a d b : Word) :
    opU c ⟨k, a ^^^ d, b, T⟩ &&& opV c ⟨k, a ^^^ d, b, T⟩ =
      (opU c ⟨k, a, b, T⟩ &&& opV c ⟨k, a, b, T⟩) ^^^ (opU c ⟨k, d, b, T⟩ &&& opV c ⟨k, d, b, T⟩) := by
  simp only [opU, opV, BitVec.toNat_xor, field_xor, Nat.and_xor_distrib_right]

/-! ### The words PAR and POPC give -/

/-- The word of POPC holds the count whole, as QL is at most 64 (R65). -/
theorem popcWord_toNat (c : Config) (f : Flight) : (popcWord c f).toNat = popcount c.ql (opU c f &&& opV c f) := by
  have hcount := popcount_le c.ql (opU c f &&& opV c f)
  have hql := c.ql_le
  rw [popcWord, BitVec.toNat_ofNat]
  exact Nat.mod_eq_of_lt (by omega)

/-- The word of PAR holds one bit (R64). -/
theorem parWord_toNat (c : Config) (f : Flight) : (parWord c f).toNat = popcount c.ql (opU c f &&& opV c f) % 2 := by
  rw [parWord, parity, BitVec.toNat_ofNat]
  omega

/-- Swapping A and B swaps the two operands (R56, R66). -/
theorem parWord_comm (c : Config) (k : BitVec 8) (T : BitVec 16) (a b : Word) :
    parWord c ⟨k, a, b, T⟩ = parWord c ⟨k, b, a, T⟩ :=
  congrArg (fun v => BitVec.ofNat 64 (parity c.ql v)) (Nat.and_comm _ _)

theorem parWord_xor (c : Config) (k : BitVec 8) (T : BitVec 16) (a d b : Word) :
    parWord c ⟨k, a ^^^ d, b, T⟩ = parWord c ⟨k, a, b, T⟩ ^^^ parWord c ⟨k, d, b, T⟩ := by
  rw [parWord, opU_and_opV_xor, parity_xor, BitVec.ofNat_xor, parWord, parWord]

/-- The operands are the low QL bits of A and B, so no other bit counts (R56, R66). -/
theorem parWord_congr (c : Config) (k : BitVec 8) (T : BitVec 16) {a a' b b' : Word}
    (ha : a.toNat % 2 ^ c.ql = a'.toNat % 2 ^ c.ql) (hb : b.toNat % 2 ^ c.ql = b'.toNat % 2 ^ c.ql) :
    parWord c ⟨k, a, b, T⟩ = parWord c ⟨k, a', b', T⟩ := by
  simp only [parWord, opU, opV, field_zero_lo, ha, hb]

end Sys2Proof.Machine
end

section
/-! The claims about NOP and the parity unit (R63 to R66). -/

namespace Sys2Proof.Machine

open Sys2Proof

/-- Settles O31: the completion's equations, with the operands' common bits counted over A and B as latched. -/
theorem parAndPopcResults : Obligations.ParAndPopcResults := by
  have hpar : decode 0x01#64 = .ok .par := decode_encode .par
  have hpopc : decode 0x02#64 = .ok .popc := decode_encode .popc
  refine ⟨hpar, issuedAs_noCheck_of_decode hpar rfl rfl, hpopc, issuedAs_noCheck_of_decode hpopc rfl rfl, ?_⟩
  intro s f hf
  rw [← popcount_opU_and_opV]
  exact ⟨execPar_eq hf, execPopc_eq hf, popcount_le _ _⟩

/-- Settles O32: the two words count the same common bits, which are symmetric in the operands and linear in A, as parity is. -/
theorem parityUnitLaws : Obligations.ParityUnitLaws := by
  refine fun c k T a b d => ⟨?_, parWord_comm c k T a b, parWord_xor c k T a d b, fun a' b' => parWord_congr c k T⟩
  rw [parWord_toNat, popcWord_toNat]

/-- Settles O30: NOP's effect is the state as it is, so its completion clears the record alone. -/
theorem nopOnlyCompletes : Obligations.NopOnlyCompletes := by
  have hnop : decode 0x00#64 = .ok .nop := decode_encode .nop
  exact ⟨hnop, issuedAs_noCheck_of_decode hnop rfl rfl, fun _ _ hf => execNop_eq hf⟩

end Sys2Proof.Machine
end

section
/-! SUPPORT. The decoder, as its claims need it: the issue of a command that reads TABLE, the rules of disagreement one by one, what triggers
a reject in the words of R71, and the fields of a decode result. -/

namespace Sys2Proof.Machine

open Sys2Proof

/-! ### Issue of a command that reads TABLE -/

/-- A command that reads TABLE and takes no index can fail check 4 of R52 alone. -/
theorem issuedAs_tableCheck_of_decode {w : Word} {i : Instr} (hd : decode w = .ok i) (hneeds : i.needsTable = true)
    (hindex : i.idxLimit = .none) : IssuedAs w tableCheck := by
  convert issuedAs_of_decode hd using 2 with s
  cases htblv : s.tblv with
  | false => simp [tableCheck, htblv, hneeds]
  | true => simp [tableCheck, htblv, hindex]

/-- A command that reads TABLE at an index of its own can fail checks 4 and 5 of R52, in that order. -/
theorem issuedAs_entryCheck_of_decode {w : Word} {i : Instr} (hd : decode w = .ok i) (hneeds : i.needsTable = true)
    (hindex : i.idxLimit = .batch) : IssuedAs w entryCheck := by
  convert issuedAs_of_decode hd using 2 with s
  cases htblv : s.tblv with
  | false => simp [entryCheck, htblv, hneeds]
  | true => simp [entryCheck, htblv, hindex, indexOk_batch]

/-! ### Disagreement by DRULE -/

theorem dis_of_unanimity {c : Config} (h : c.drule = .unanimity) (n : Nat) : dis c n = (n != 0 && n != c.rf) := by
  simp [dis, h, bne, beq_eq_decide]

theorem dis_of_strictMajority {c : Config} (h : c.drule = .strictMajority) (n : Nat) : dis c n = (2 * n == c.rf) := by
  simp [dis, h, beq_eq_decide]

theorem dis_of_refLiteral {c : Config} (h : c.drule = .refLiteral) (n : Nat) : dis c n = (n == 2) := by
  simp [dis, h, beq_eq_decide]

/-! ### Entries and triggers -/

/-- No entry rejects under a threshold of TF or more (R74). -/
theorem entry_rej_eq_false_of_le {c : Config} {T : Nat} (h : c.tf ≤ T) (e : Nat) : (entry c e T).rej = false :=
  decide_eq_false (not_lt.mpr ((entry_dcnt_le c T e).trans h))

/-- What triggers a reject at batch k, in the words of R71. -/
theorem trigger_iff_triggers (c : Config) (m T k : Nat) : trigger c m T k = true ↔ Triggers c m T k := by
  unfold trigger Triggers
  cases c.tscope with
  | batch => simp only [decide_eq_true_eq, entry_batch_dcnt]
  | word => simp only [decide_eq_true_eq, runUpTo_eq]

theorem trigger_eq_false_iff (c : Config) (m T k : Nat) : trigger c m T k = false ↔ ¬ Triggers c m T k := by
  rw [← trigger_iff_triggers, Bool.not_eq_true]

/-- The count after the last batch is the word's (R71, R72). -/
theorem runUpTo_last (c : Config) (m : Nat) : runUpTo c m (c.nb - 1) = directCount c m := by
  rw [runUpTo_eq, Nat.sub_add_cancel c.nb_pos, countUpTo_nb]

/-- Label bit k·TF + j of the word is bit j of the entry of batch k (R67). -/
theorem directLabel_testBit_batch (c : Config) (m T : Nat) {k j : Nat} (hk : k < c.nb) (hj : j < c.tf) :
    (directLabel c m).testBit (k * c.tf + j) = (entry c (batch c m k) T).label.testBit j := by
  have hlt : k * c.tf + j < c.is := by
    calc k * c.tf + j < (k + 1) * c.tf := by rw [Nat.succ_mul]; omega
      _ ≤ c.nb * c.tf := Nat.mul_le_mul_right _ hk
      _ = c.is := c.nb_mul_tf
  rw [entry_batch_label, directLabel, testBit_labelBits, testBit_labelBits]
  simp only [hlt, hj]

/-! ### Verdicts, and the fields of a decode result -/

/-- A verdict over a built table: the majority label with the word's count, or a reject with the count up to a batch (R71, R72). -/
theorem tableDecode_ok_cases {c : Config} {m T : Nat} {v : Verdict} (h : tableDecode c (buildTable c T) m T = .ok v) :
    v = .accept (directLabel c m) (directCount c m) ∨ ∃ k, k < c.nb ∧ v = .reject (countUpTo c m (k + 1)) := by
  obtain ⟨v', hv', hcases⟩ := tableDecode_ok c m T
  obtain rfl : v' = v := Except.ok.inj (hv'.symm.trans h)
  rcases hcases with ⟨lab, d, hdirect, rfl⟩ | ⟨-, hreject⟩
  · obtain ⟨-, rfl, rfl⟩ := (direct_some_iff c m T).mp hdirect
    exact .inl rfl
  · exact .inr hreject

/-- The fields of a decode result stay apart (R73). -/
theorem packResult_fields (rej : Bool) {d l : Nat} (hd : d < 2 ^ 16) (hl : l < 2 ^ 32) :
    (packResult rej d l).extractLsb' 0 32 = BitVec.ofNat 32 l ∧ (packResult rej d l).extractLsb' 32 16 = BitVec.ofNat 16 d ∧
    (packResult rej d l).extractLsb' 48 15 = BitVec.ofNat 15 0 ∧ (packResult rej d l).getLsbD 63 = rej := by
  have hword := packResult_toNat rej hd hl
  have hrej := rej.toNat_le
  refine ⟨extractLsb'_eq_ofNat ?_, extractLsb'_eq_ofNat ?_, extractLsb'_eq_ofNat ?_, packResult_getLsbD_63 rej hd hl⟩ <;>
    (rw [hword, field]; omega)

/-- The word of an accept, by the formula of R73. -/
theorem Verdict.word_accept (lab run : Nat) :
    (Verdict.accept lab run).word = (BitVec.ofNat 64 run <<< 32) ||| BitVec.ofNat 64 lab := by
  simp [Verdict.word, packResult]

/-- The word of a reject, by the formula of R73. -/
theorem Verdict.word_reject (run : Nat) :
    (Verdict.reject run).word = (1#64 <<< 63) ||| (BitVec.ofNat 64 run <<< 32) := by
  simp [Verdict.word, packResult]

/-! ### PROJ and PROJP, and their operand -/

/-- The measurement word is the low QL bits of A as latched (R56). -/
theorem opM_eq (c : Config) (f : Flight) : opM c f = f.a.toNat % 2 ^ c.ql := field_zero_lo _ _

/-- PROJ with a valid table, whatever threshold was latched (R77). -/
theorem execProj_of_tableReady {s : State} {f : Flight} (hf : s.flight = some f) (hready : TableReady s) :
    execProj s = .next { s with
      res := (Verdict.accept (directLabel s.cfg (opM s.cfg f)) (directCount s.cfg (opM s.cfg f))).word, flight := none } := by
  obtain ⟨-, htable⟩ := hready
  exact execProj_eq hf (htable ▸ projWalk_direct s.cfg (opM s.cfg f) s.thresh.toNat)

/-- Bit b of PROJP's word is the parity of block b, and the bits above the label are 0 (R78). -/
theorem parityLabel_getLsbD (c : Config) (m : Nat) {b : Nat} (hb : b < 64) :
    (BitVec.ofNat 64 (parityLabel c m)).getLsbD b = (decide (b < c.is) && parity c.rf (field m (b * c.rf) c.rf) == 1) := by
  simp only [BitVec.getLsbD_ofNat, hb, decide_true, Bool.true_and, parityLabel, testBit_labelBits]

end Sys2Proof.Machine
end

section
/-! The claims about the decoder (R67 to R80). -/

namespace Sys2Proof.Machine

open Sys2Proof

/-- Settles O33: the label bit by bit, the count as a filter, and the disagreement of a sub-block under each DRULE. -/
theorem tableEntryContents : Obligations.TableEntryContents := by
  refine fun c e T => ⟨fun j => ?_, ?_, ?_⟩
  · rw [entry_label, testBit_labelBits]
    rfl
  · rw [entry_dcnt, countBits_eq_filter]
    cases hrule : c.drule with
    | unanimity => simp only [dis_of_unanimity hrule]; rfl
    | strictMajority => simp only [dis_of_strictMajority hrule]; rfl
    | refLiteral => simp only [dis_of_refLiteral hrule]; rfl
  · rw [entry_rej, decide_eq_true_iff]

/-- Settles O34: each DRULE's law of disagreement at 0, at RF and at half of RF, which is not 0. -/
theorem disagreementLaw : Obligations.DisagreementLaw := by
  intro c
  have hrf := c.rf_pos
  refine ⟨fun hne => ?_, fun n hn hrule => ?_, fun n hn hrule => ?_, fun hrule hrf2 => ?_⟩
  · cases hrule : c.drule with
    | unanimity => simp [dis_of_unanimity hrule]
    | strictMajority => simp [dis_of_strictMajority hrule]; omega
    | refLiteral => simpa [dis_of_refLiteral hrule, hrule] using hne
  · cases hrule' : c.drule with
    | unanimity => simp [dis_of_unanimity hrule']; omega
    | strictMajority => simpa [dis_of_strictMajority hrule'] using hn
    | refLiteral => exact absurd hrule' hrule
  · rw [dis_of_refLiteral hrule, beq_iff_eq]
    omega
  · rw [dis_of_refLiteral hrule, beq_iff_eq, hrf2]

/-- Settles O35: the completion's equation leaves the built table, which is read back by length and by index. -/
theorem tblbuildFillsTheTable : Obligations.TblbuildFillsTheTable := by
  have hdec : decode 0x10#64 = .ok .tblbuild := decode_encode .tblbuild
  refine ⟨hdec, issuedAs_noCheck_of_decode hdec rfl rfl, fun s f hf => ⟨_, execTblbuild_eq hf, rfl, ?_, ?_, ?_⟩⟩
  · exact length_buildTable s.cfg _
  · exact fun e he => getElem?_buildTable s.cfg _ he
  · intro hT x hx
    obtain ⟨e, -, rfl⟩ := mem_buildTable s.cfg _ hx
    exact entry_rej_eq_false_of_le hT e

/-- Settles O36: an index in range is the whole of A, and a built table holds its entry there. -/
theorem tblrdShowsOneEntry : Obligations.TblrdShowsOneEntry := by
  have hdec : decode 0x11#64 = .ok .tblrd := decode_encode .tblrd
  refine ⟨hdec, issuedAs_entryCheck_of_decode hdec rfl rfl, ?_⟩
  rintro s f hf ⟨-, htable⟩ ha
  refine execTblrd_eq hf ?_
  rw [opE_of_lt s.cfg f ha, htable, tabRead_buildTable s.cfg _ ha]

/-- Settles O37: the walk in closed form, with its triggers and counts in the words of R71. -/
theorem tableDecodeStopsAtTheFirstTrigger : Obligations.TableDecodeStopsAtTheFirstTrigger := by
  refine fun c m T => ⟨fun k hk htrig hbefore => ?_, fun hnone => ?_, fun k hk hreject => ?_⟩
  · rw [runUpTo_eq]
    exact tableDecode_reject c m T hk ((trigger_iff_triggers c m T k).mpr htrig) fun j hj =>
      (trigger_eq_false_iff c m T j).mpr (hbefore j hj)
  · refine ⟨directLabel c m, ?_, fun k j hk hj => directLabel_testBit_batch c m T hk hj⟩
    rw [runUpTo_last]
    exact tableDecode_accept c m T fun k hk => (trigger_eq_false_iff c m T k).mpr (hnone k hk)
  · rw [entry_batch_dcnt] at hreject
    rw [runUpTo_eq]
    exact hreject.trans_le (batchCount_le c m k)

/-- Settles O38: both outcomes of the direct method carry over to the walk, and the direct method's parts are labels and counts over blocks. -/
theorem tableAndDirectMethodsAgree : Obligations.TableAndDirectMethodsAgree := by
  intro c m T
  have hcount : directCount c m = ((List.range c.is).filter fun b => dis c (blockCount c m b)).length :=
    countBits_eq_filter _ _
  refine ⟨fun hnone => ?_, fun lab d => tableDecode_of_direct_some c m T, fun b => testBit_labelBits _ _ b,
    fun lab d hsome => ?_, hcount, ?_⟩
  · obtain ⟨k, hk, hdecode⟩ := tableDecode_of_direct_none c m T hnone
    exact ⟨_, hdecode, countUpTo_le_direct c m hk⟩
  · obtain ⟨-, rfl, rfl⟩ := (direct_some_iff c m T).mp hsome
    exact ⟨rfl, hcount⟩
  · rw [direct_none_iff, directRejects]
    cases c.tscope with
    | batch => simp only [List.any_eq_true, List.mem_range, decide_eq_true_eq, batchCount, countBits_eq_filter]; rfl
    | word => rw [decide_eq_true_iff, hcount]; rfl

/-- Settles O39: the bounds come from the direct method's label and count, and within them the fields of a packed word do not meet. -/
theorem decodeResultFieldsFit : Obligations.DecodeResultFieldsFit := by
  refine ⟨fun c m T v hv => ?_, fun c m => ⟨directLabel_lt c m, parityLabel_lt c m, directCount_le c m⟩,
    fun lab run hlab hrun => ⟨packResult_fields false (by omega) (by omega), packResult_fields true (by omega) (by decide)⟩⟩
  rcases tableDecode_ok_cases hv with rfl | ⟨k, hk, rfl⟩
  · refine ⟨?_, nofun⟩
    rintro _ _ ⟨⟩
    exact ⟨directLabel_lt c m, directCount_le c m⟩
  · refine ⟨nofun, ?_⟩
    rintro _ ⟨⟩
    exact (countUpTo_le_direct c m hk).trans (directCount_le c m)

/-- Settles O40: TABLE is built under the latched threshold, so the walk over it follows the direct method's verdict. -/
theorem decDecidesTheWord : Obligations.DecDecidesTheWord := by
  have hdec : decode 0x12#64 = .ok .dec := decode_encode .dec
  refine ⟨hdec, issuedAs_tableCheck_of_decode hdec rfl rfl, ?_⟩
  rintro s f hf ⟨-, htable⟩ hthr
  rw [← hthr] at htable
  simp only [← opM_eq, ← Verdict.word_accept, ← Verdict.word_reject]
  refine ⟨fun lab d hsome => ?_, fun hnone => ?_⟩
  · have haccept := tableDecode_of_direct_some s.cfg (opM s.cfg f) f.thr.toNat hsome
    rw [← htable] at haccept
    exact execDec_eq hf haccept
  · obtain ⟨k, hk, hreject⟩ := tableDecode_of_direct_none s.cfg (opM s.cfg f) f.thr.toNat hnone
    rw [← htable] at hreject
    exact ⟨_, countUpTo_le_direct s.cfg _ hk, hreject, execDec_eq hf hreject⟩

/-- Settles O41: PROJ's walk gives the direct label and count under any threshold, which is the verdict of a DEC that accepts. -/
theorem projIsTheMajorityLabel : Obligations.ProjIsTheMajorityLabel := by
  have hdec : decode 0x13#64 = .ok .proj := decode_encode .proj
  refine ⟨hdec, issuedAs_tableCheck_of_decode hdec rfl rfl, fun s f hf hready => ?_⟩
  have hproj : exec .proj s = _ := execProj_of_tableReady hf hready
  refine ⟨by rw [hproj, Verdict.word_accept, opM_eq], fun t hthr hcompletes hrej => ?_⟩
  obtain ⟨g, v, hg, hv, rfl⟩ := execDec_next hcompletes
  obtain rfl : g = f := Option.some.inj (hg.symm.trans hf)
  obtain ⟨-, htable⟩ := hready
  rw [htable, ← hthr] at hv
  rcases tableDecode_ok_cases hv with rfl | ⟨k, -, rfl⟩
  · exact hproj
  · cases hrej

/-- Settles O42: the completion's equation, and the word's bits as the parities of the blocks. -/
theorem projpIsTheParityLabel : Obligations.ProjpIsTheParityLabel := by
  have hdec : decode 0x14#64 = .ok .projp := decode_encode .projp
  refine ⟨hdec, issuedAs_noCheck_of_decode hdec rfl rfl, fun s f hf => ⟨_, execProjp_eq hf, rfl, fun b hb => ?_⟩⟩
  rw [← opM_eq]
  exact parityLabel_getLsbD s.cfg (opM s.cfg f) hb

end Sys2Proof.Machine
end

section
/-! SUPPORT. The histogram commands (R81 to R86), as their claims need them: the issue of a command that takes a label, the loop of writes
of 0, what a sample does to one counter, the model faults of an unwritten counter, and a counter's value in a 64-bit word. -/

namespace Sys2Proof.Machine

open Sys2Proof

variable {c : Config} {m : Memory} {s : State} {f : Flight}

/-! ### Issue of a command that takes a label -/

/-- A command that reads no table and takes a label can fail check 5 of R52 alone. -/
theorem issuedAs_labelCheck_of_decode {w : Word} {i : Instr} (hd : decode w = .ok i) (hneeds : i.needsTable = false)
    (hindex : i.idxLimit = .label) : IssuedAs w labelCheck := by
  convert issuedAs_of_decode hd using 2 with s
  simp [labelCheck, hneeds, hindex, indexOk_label]

/-! ### Counters set to 0 -/

theorem Memory.wf_write_zero (h : m.wf c) {i : Nat} (hi : i < c.hsize) : (m.write c.hsize i 0).wf c := by
  have hzero : wrapCW c.cw 0 = 0 := Int.zero_bmod
  simpa only [hzero] using Memory.wf_write_wrap h 0 hi

/-- Writing 0 to the first n counters in turn keeps the canonical form and leaves each of them 0 (R82). -/
theorem foldl_write_zero (h : m.wf c) {n : Nat} (hn : n ≤ c.hsize) :
    ((List.range n).foldl (fun m i => m.write c.hsize i 0) m).wf c ∧
      ∀ j, j < n → ((List.range n).foldl (fun m i => m.write c.hsize i 0) m).read j = some 0 := by
  induction n with
  | zero => exact ⟨h, nofun⟩
  | succ n ih =>
    obtain ⟨hwf, hread⟩ := ih (by omega)
    simp only [List.range_succ, List.foldl_append, List.foldl_cons, List.foldl_nil]
    refine ⟨Memory.wf_write_zero hwf hn, fun j hj => ?_⟩
    by_cases hjn : j = n
    · rw [hjn, Memory.read_write_same hwf]
    · rw [Memory.read_write_other hwf 0 hn (by omega) hjn]
      exact hread j (by omega)

/-- The loop of 2^IS writes of 0 leaves what HCLR leaves (R82). -/
theorem foldl_write_zero_eq_cleared (h : m.wf c) :
    (List.range c.hsize).foldl (fun m i => m.write c.hsize i 0) m = Memory.cleared := by
  obtain ⟨hwf, hread⟩ := foldl_write_zero h le_rfl
  exact Memory.ext_of_reads hwf (Memory.wf_cleared c) fun j hj => by rw [hread j hj, Memory.read_cleared]

/-! ### One sample -/

/-- A sample on a written counter: its new value, the other counters, and the pending overflow flag (R83). -/
theorem accumulate_sampleDelta (h : m.wf c) {i : Nat} {v : Int} (r : Bool) (hi : i < c.hsize) (hv : m.read i = some v) :
    ∃ q, accumulate c m i (sampleDelta r) = .ok q ∧ q.mem.read i = some (wrapCW c.cw (if r then v - 1 else v + 1)) ∧
      (∀ j, j < c.hsize → j ≠ i → q.mem.read j = m.read j) ∧ (q.pend = true ↔ Wraps c (if r then v - 1 else v + 1)) := by
  rw [← sampleDelta_eq]
  exact ⟨_, accumulate_ok _ hi hv, Memory.read_write_same h _, fun j hj hji => Memory.read_write_other h _ hi hj hji,
    wraps_iff _⟩

/-! ### Unwritten counters -/

theorem execHacc_of_unwritten (hf : s.flight = some f) (hr : s.hist.read (opI s.cfg f) = none) :
    execHacc s = .fault (.unwrittenCounter (opI s.cfg f)) :=
  complete_error hf (by simp only [accumulate_unwritten _ (opI_lt s.cfg f) hr])

theorem execHrd_of_unwritten (hf : s.flight = some f) (hr : s.hist.read (opI s.cfg f) = none) :
    execHrd s = .fault (.unwrittenCounter (opI s.cfg f)) :=
  complete_error hf (by simp only [histRead_of_unwritten (opI_lt s.cfg f) hr])

theorem execSamp_of_unwritten (hf : s.flight = some f) {lab run : Nat}
    (hv : tableDecode s.cfg s.table (opM s.cfg f) (opT f) = .ok (.accept lab run)) (hlab : lab < s.cfg.hsize)
    (hr : s.hist.read lab = none) : execSamp s = .fault (.unwrittenCounter lab) :=
  complete_error hf (by simp only [hv, accumulate_unwritten _ hlab hr])

/-! ### A counter in a 64-bit word -/

/-- A counter has at most 64 bits, so RES holds its value (R7, R85). -/
theorem toInt_ofInt_of_read (h : m.wf c) {i : Nat} {v : Int} (hr : m.read i = some v) : (BitVec.ofInt 64 v).toInt = v := by
  obtain ⟨hlow, hhigh⟩ := Memory.read_range h hr
  have hpow : (2 : Int) ^ (c.cw - 1) ≤ 2 ^ (64 - 1) :=
    pow_le_pow_right₀ (by decide) (Nat.sub_le_sub_right c.cw_le 1)
  rw [BitVec.toInt_ofInt]
  exact wrapCW_of_fits 64 (by decide) v (by omega) (by omega)

end Sys2Proof.Machine
end

section
/-! SUPPORT. Sequences of SAMP commands (R88): what a sample adds to each counter, the counters after a sequence that does not overflow, and
the numbers of accepted and rejected samples. -/

namespace Sys2Proof

open Sys2Proof.Machine

variable {c : Config} {m : Memory} {T : Nat} {l : List Sample}

/-! ### Counters without overflow -/

/-- What a sample adds to counter i: +1 or -1 when i is its label, else nothing (R57, R83, R86). -/
def Sample.adds (c : Config) (T : Nat) (x : Sample) (i : Nat) : Int :=
  if x.target c T = some i then sampleDelta (x.b.getLsbD 0) else 0

/-- A sample that does not overflow adds to the counters what it adds, unwrapped. -/
theorem Sample.counter_histAfter_of_not_wraps (x : Sample) (hw : m.wf c)
    (hfit : ∀ lab, x.target c T = some lab → ¬ Wraps c (counter m lab + sampleDelta (x.b.getLsbD 0))) {i : Nat}
    (hi : i < c.hsize) : counter (x.histAfter c T m) i = counter m i + x.adds c T i := by
  rw [x.counter_histAfter hw hi, Sample.adds]
  split
  · rename_i htarget
    exact wrapCW_of_not_wraps (hfit i htarget)
  · rw [add_zero]

/-- Samples may follow HCLR at once: it leaves every counter written (R38, R82). -/
theorem sampleInv_of_cleared {s : State} (h : s.hist = Memory.cleared) : SampleInv s :=
  ⟨h ▸ Memory.wf_cleared s.cfg, fun i _ => by simp [h]⟩

/-- A sequence that ends with OVF = 0 never overflowed, so each counter has grown by what the samples add to it (R88). -/
theorem runSamples_next_counter {s t : State} (h : SampleInv s) (hr : ∀ x ∈ l, x.decoded = true → TableReady s)
    (hrun : runSamples l s = .next t) (hovf : t.ovf = false) :
    s.ovf = false ∧ ∀ i, i < s.cfg.hsize →
      counter t.hist i = counter s.hist i + (l.map fun x => x.adds s.cfg s.thresh.toNat i).sum := by
  induction l generalizing s with
  | nil =>
    cases hrun
    exact ⟨hovf, fun i _ => by simp⟩
  | cons x rest ih =>
    obtain ⟨u, hexec, hu, hready, hcfg, hthresh, hhist, -, hwrap⟩ := sample_spec h x (hr x List.mem_cons_self)
    rw [runSamples, hexec] at hrun
    obtain ⟨huovf, hcounter⟩ := ih hu (fun y hy hdecoded => hready (hr y (List.mem_cons_of_mem _ hy) hdecoded)) hrun
    obtain ⟨hsovf, hfit⟩ := not_or.mp (mt hwrap.mpr (by simp [huovf]))
    refine ⟨by simpa using hsovf, fun i hi => ?_⟩
    rw [hcounter i (hcfg ▸ hi), hcfg, hthresh, hhist, List.map_cons, List.sum_cons, ← add_assoc,
      x.counter_histAfter_of_not_wraps h.wf (fun lab hlab hw => hfit ⟨lab, hlab, hw⟩) hi]

/-! ### Accepted and rejected samples -/

/-- The label of a SAMP is the direct method's (R72, R86). -/
theorem Sample.target_of_decoded {x : Sample} (h : x.decoded = true) :
    x.target c T = (direct c (field x.a.toNat 0 c.ql) T).map Prod.fst := by
  simp [Sample.target, h]

/-- The SAMPs of a list with label i and response r (R88). -/
theorem acceptedWith_eq_countP_target (h : ∀ x ∈ l, x.decoded = true) (i : Nat) (r : Bool) :
    acceptedWith c T i r l = l.countP fun x => x.target c T == some i && x.b.getLsbD 0 == r :=
  List.countP_congr fun x hx => by rw [Sample.target_of_decoded (h x hx)]

/-- The SAMPs of a list that have no label (R88). -/
theorem rejectedOf_eq_countP_target (h : ∀ x ∈ l, x.decoded = true) :
    rejectedOf c T l = l.countP fun x => (x.target c T).isNone :=
  List.countP_congr fun x hx => by rw [Sample.target_of_decoded (h x hx), Option.isNone_map]

/-- What a list of SAMPs adds to counter i: the samples of its label with response 0 less those with response 1 (R88). -/
theorem sum_adds (h : ∀ x ∈ l, x.decoded = true) (i : Nat) :
    (l.map fun x => x.adds c T i).sum = (acceptedWith c T i false l : Int) - acceptedWith c T i true l := by
  rw [acceptedWith_eq_countP_target h, acceptedWith_eq_countP_target h]
  clear h
  induction l with
  | nil => simp
  | cons x rest ih =>
    rw [List.map_cons, List.sum_cons, ih, List.countP_cons, List.countP_cons, Sample.adds]
    by_cases htarget : x.target c T = some i
    · cases hresponse : x.b.getLsbD 0 with
      | false => simp [htarget, sampleDelta]; ring
      | true => simp [htarget, sampleDelta]; ring
    · simp [htarget]

/-- The SAMPs of a list with label i, whatever the response. -/
theorem acceptedWith_add_acceptedWith (h : ∀ x ∈ l, x.decoded = true) (i : Nat) :
    acceptedWith c T i false l + acceptedWith c T i true l = l.countP fun x => x.target c T == some i := by
  rw [acceptedWith_eq_countP_target h, acceptedWith_eq_countP_target h, add_comm,
    List.countP_eq_countP_filter_add l (fun x => x.target c T == some i) fun x => x.b.getLsbD 0, List.countP_filter, List.countP_filter]
  simp

/-- A sample has one label below 2^IS or none, so the counts over the labels and the count of those without make up the list. -/
theorem sum_countP_target_add (l : List Sample) :
    (∑ i ∈ Finset.range c.hsize, l.countP fun x => x.target c T == some i) + (l.countP fun x => (x.target c T).isNone) =
      l.length := by
  induction l with
  | nil => simp
  | cons x rest ih =>
    simp only [List.countP_cons, List.length_cons, ← ih, Finset.sum_add_distrib]
    cases htarget : x.target c T with
    | none => simp [add_assoc]
    | some lab =>
      have hlab : lab < c.hsize := Sample.target_lt htarget
      simp [hlab, add_right_comm]

/-- The accepted SAMPs, summed over the labels, and the rejected ones make up the list (R88). -/
theorem sum_acceptedWith_add_rejectedOf (h : ∀ x ∈ l, x.decoded = true) :
    (∑ i ∈ Finset.range c.hsize, (acceptedWith c T i false l + acceptedWith c T i true l)) + rejectedOf c T l = l.length := by
  simp only [acceptedWith_add_acceptedWith h, rejectedOf_eq_countP_target h, sum_countP_target_add]

/-- DISCARD grows by the rejected SAMPs (R88). -/
theorem sum_discards (h : ∀ x ∈ l, x.decoded = true) :
    (l.map (Sample.discards c T)).sum = BitVec.ofNat 64 (rejectedOf c T l) := by
  rw [rejectedOf_eq_countP_target h]
  clear h
  induction l with
  | nil => rfl
  | cons x rest ih =>
    rw [List.map_cons, List.sum_cons, ih, List.countP_cons, Sample.discards, BitVec.ofNat_add, add_comm]
    cases x.target c T with
    | none => rfl
    | some lab => rfl

/-- Each counter after HCLR and SAMPs with no overflow, by the responses of the accepted samples of its label (R88). -/
theorem runSamples_next_read_of_cleared {s t : State} (hcleared : s.hist = Memory.cleared) (hready : TableReady s)
    (h : ∀ x ∈ l, x.decoded = true) (hrun : runSamples l s = .next t) (hovf : t.ovf = false) {i : Nat} (hi : i < s.cfg.hsize) :
    t.hist.read i = some
      ((acceptedWith s.cfg s.thresh.toNat i false l : Int) - acceptedWith s.cfg s.thresh.toNat i true l) := by
  have hinv := sampleInv_of_cleared hcleared
  obtain ⟨u, hrun', hu, hcfg, -⟩ := runSamples_spec l hinv fun _ _ _ => hready
  obtain rfl : u = t := Host.Outcome.next.inj (hrun'.symm.trans hrun)
  obtain ⟨-, hcounter⟩ := runSamples_next_counter hinv (fun _ _ _ => hready) hrun hovf
  rw [read_eq_counter hu.written (hcfg ▸ hi), hcounter i hi, sum_adds h, hcleared, counter_of_read (Memory.read_cleared i),
    zero_add]

/-! ### Magnitudes -/

theorem abs_sub_natCast_le (p q : Nat) : |(p : Int) - q| ≤ ((p + q : Nat) : Int) :=
  abs_le.mpr ⟨by omega, by omega⟩

theorem abs_sub_natCast_eq_iff (p q : Nat) : |(p : Int) - q| = ((p + q : Nat) : Int) ↔ p = 0 ∨ q = 0 := by
  rw [abs_eq (Int.natCast_nonneg _)]
  omega

/-- Magnitudes of differences add up to at most the sums, exactly when no difference loses anything (R88). -/
theorem sum_abs_sub_natCast (p q : Nat → Nat) (n : Nat) :
    ∑ i ∈ Finset.range n, |(p i : Int) - q i| ≤ ((∑ i ∈ Finset.range n, (p i + q i) : Nat) : Int) ∧
      (∑ i ∈ Finset.range n, |(p i : Int) - q i| = ((∑ i ∈ Finset.range n, (p i + q i) : Nat) : Int) ↔
        ∀ i, i < n → p i = 0 ∨ q i = 0) := by
  have hle : ∀ i ∈ Finset.range n, |(p i : Int) - q i| ≤ ((p i + q i : Nat) : Int) := fun i _ => abs_sub_natCast_le _ _
  rw [Nat.cast_sum]
  refine ⟨Finset.sum_le_sum hle, ?_⟩
  rw [Finset.sum_eq_sum_iff_of_le hle]
  simp only [Finset.mem_range, abs_sub_natCast_eq_iff]

end Sys2Proof
end

section
/-! The claims about the histogram (R81 to R88). -/

namespace Sys2Proof.Machine

open Sys2Proof

/-- Settles O44: a value in range is its own wrap, and congruent numbers wrap alike, so the range and the congruence fix the value. -/
theorem wrapIsTwosComplement : Obligations.WrapIsTwosComplement := by
  intro c n
  obtain ⟨hlow, hhigh⟩ := wrapCW_range c.cw c.cw_ge n
  refine ⟨hlow, hhigh, wrapCW_modEq c.cw n, fun v hlow' hhigh' hv => ?_, wrapCW_ne_iff c.cw c.cw_ge n, fun i r hi hw => ?_,
    finish_ovf⟩
  · rw [← wrapCW_eq_of_modEq c.cw hv, wrapCW_of_fits c.cw c.cw_ge v hlow' hhigh']
  · refine ⟨_, storeWrapped_of_lt n r hi, Memory.read_write_same hw _, ?_⟩
    rw [Bool.or_eq_true, wraps_iff]

/-- Settles O46: HCLR's data are those of the loop of writes, since the canonical form is fixed by the counters' values. -/
theorem hclrZeroesEveryCounter : Obligations.HclrZeroesEveryCounter := by
  have hdec : decode 0x20#64 = .ok .hclr := decode_encode .hclr
  exact ⟨hdec, issuedAs_noCheck_of_decode hdec rfl rfl, fun s f hf => ⟨_, execHclr_eq hf, rfl, fun i _ => Memory.read_cleared i,
    fun hw => (foldl_write_zero_eq_cleared hw).symm⟩⟩

/-- Settles O47: an index in range is the whole of A, and its counter takes one sample or is found unwritten. -/
theorem haccAddsOneSample : Obligations.HaccAddsOneSample := by
  have hdec : decode 0x21#64 = .ok .hacc := decode_encode .hacc
  refine ⟨hdec, issuedAs_labelCheck_of_decode hdec rfl rfl, fun s f hf hw ha => ?_⟩
  rw [← opI_of_lt s.cfg f ha]
  refine ⟨execHacc_of_unwritten hf, fun v hv => ?_⟩
  obtain ⟨q, hq, hnew, hothers, hpend⟩ := accumulate_sampleDelta hw (opR f) (opI_lt s.cfg f) hv
  refine ⟨_, execHacc_eq hf hq, rfl, hnew, hothers, ?_⟩
  rw [Bool.or_eq_true, hpend]
  rfl

/-- Settles O48: the value HWR stores and its overflow are those of B's wrap. -/
theorem hwrWritesOneCounter : Obligations.HwrWritesOneCounter := by
  have hdec : decode 0x22#64 = .ok .hwr := decode_encode .hwr
  refine ⟨hdec, issuedAs_labelCheck_of_decode hdec rfl rfl, fun s f hf hw ha => ?_⟩
  have hi := opI_lt s.cfg f
  rw [← opI_of_lt s.cfg f ha, ← hwrValue_eq]
  refine ⟨_, execHwr_eq hf hi, rfl, Memory.read_write_same hw _, fun j hj hji => Memory.read_write_other hw _ hi hj hji, ?_⟩
  rw [Bool.or_eq_true, hwrOverflows_iff]

/-- Settles O49: RES takes the counter, which fits in it. -/
theorem hrdReadsOneCounter : Obligations.HrdReadsOneCounter := by
  have hdec : decode 0x23#64 = .ok .hrd := decode_encode .hrd
  refine ⟨hdec, issuedAs_labelCheck_of_decode hdec rfl rfl, fun s f hf hw ha => ?_⟩
  rw [← opI_of_lt s.cfg f ha]
  exact ⟨execHrd_of_unwritten hf, fun v hv =>
    ⟨_, execHrd_eq hf (histRead_of_read (opI_lt s.cfg f) hv), rfl, toInt_ofInt_of_read hw hv⟩⟩

/-- Settles O50: TABLE is built under the latched threshold, so SAMP follows the direct method's verdict: a reject counts in DISCARD, an
accepted label's counter takes one sample or is found unwritten. -/
theorem sampDiscardsOrAccumulates : Obligations.SampDiscardsOrAccumulates := by
  have hdec : decode 0x24#64 = .ok .samp := decode_encode .samp
  refine ⟨hdec, issuedAs_tableCheck_of_decode hdec rfl rfl, ?_⟩
  rintro s f hf hw ⟨-, htable⟩ hthr
  rw [← hthr] at htable
  simp only [← opM_eq, ← Verdict.word_accept, ← Verdict.word_reject]
  have haccept : ∀ lab d, direct s.cfg (opM s.cfg f) f.thr.toNat = some (lab, d) →
      tableDecode s.cfg s.table (opM s.cfg f) (opT f) = .ok (.accept lab d) ∧ lab < s.cfg.hsize := fun lab d hsome => by
    obtain ⟨-, rfl, -⟩ := (direct_some_iff s.cfg _ _).mp hsome
    exact ⟨htable ▸ tableDecode_of_direct_some s.cfg _ _ hsome, directLabel_lt s.cfg _⟩
  refine ⟨fun hnone => ?_, fun lab d hsome hunwritten => ?_, fun lab d v hsome hv => ?_⟩
  · obtain ⟨k, -, hreject⟩ := tableDecode_of_direct_none s.cfg (opM s.cfg f) f.thr.toNat hnone
    rw [← htable] at hreject
    exact ⟨_, hreject, execSamp_reject hf hreject⟩
  · obtain ⟨hverdict, hlab⟩ := haccept lab d hsome
    exact execSamp_of_unwritten hf hverdict hlab hunwritten
  · obtain ⟨hverdict, hlab⟩ := haccept lab d hsome
    obtain ⟨q, hq, hnew, hothers, hpend⟩ := accumulate_sampleDelta hw (opR f) hlab hv
    refine ⟨_, execSamp_accept hf hverdict hq, rfl, hnew, hothers, ?_⟩
    rw [Bool.or_eq_true, hpend]
    rfl

/-- Settles O52: a sequence leaves the samples' effects in turn; on HIST any two of them commute, on DISCARD they are a sum. -/
theorem sampleOrderDoesNotMatter : Obligations.SampleOrderDoesNotMatter := by
  intro s l l' hw ha hready _ hperm
  obtain ⟨t, hrun, -, -, -, hhist, hdiscard⟩ := runSamples_spec l ⟨hw, ha⟩ hready
  obtain ⟨t', hrun', -, -, -, hhist', hdiscard'⟩ :=
    runSamples_spec l' ⟨hw, ha⟩ fun x hx => hready x (hperm.mem_iff.mpr hx)
  refine ⟨t, t', hrun, hrun', ?_, ?_⟩
  · rw [hhist, hhist', foldl_histAfter_perm hperm hw ha]
  · rw [hdiscard, hdiscard', (hperm.map _).sum_eq]

/-- Settles O53: without overflow a counter is the plain sum of what the samples add to it, and the other counts are sums over the list. -/
theorem sampleCountsAddUp : Obligations.SampleCountsAddUp := by
  intro s t l hcleared hready hdecoded hrun hovf p q accepted
  obtain ⟨u, hrun', -, -, -, -, hdiscard⟩ := runSamples_spec l (sampleInv_of_cleared hcleared) fun _ _ _ => hready
  obtain rfl : u = t := Host.Outcome.next.inj (hrun'.symm.trans hrun)
  have hread : ∀ i, i < s.cfg.hsize → u.hist.read i = some ((p i : Int) - q i) :=
    fun i => runSamples_next_read_of_cleared hcleared hready hdecoded hrun hovf
  have habs : absSum s.cfg u.hist = ∑ i ∈ Finset.range s.cfg.hsize, |(p i : Int) - q i| :=
    Finset.sum_congr rfl fun i hi => by rw [counter_of_read (hread i (Finset.mem_range.mp hi))]
  obtain ⟨hle, heq⟩ := sum_abs_sub_natCast p q s.cfg.hsize
  refine ⟨hread, sum_acceptedWith_add_rejectedOf hdecoded, ?_, habs.trans_le hle, by rw [habs]; exact heq⟩
  rw [hdiscard, sum_discards hdecoded]

end Sys2Proof.Machine
end

section
/-! SUPPORT. The transform (R89 to R99), as its claims need it: the sum at index 0, what FWHT leaves in HIST and OVF, and what any list of
passes leaves in the counters. -/

namespace Sys2Proof.Machine

open Sys2Proof

variable {c : Config} {s t : State} {f : Flight}

/-! ### The Walsh-Hadamard sum -/

theorem wht_congr {n : Nat} {g g' : Nat → Int} (h : ∀ y, y < 2 ^ n → g y = g' y) (x : Nat) : wht n g x = wht n g' x :=
  Finset.sum_congr rfl fun y hy => by rw [h y (Finset.mem_range.mp hy)]

/-- At index 0 every sign is positive (R97). -/
theorem wht_at_zero (n : Nat) (g : Nat → Int) : wht n g 0 = ∑ y ∈ Finset.range (2 ^ n), g y :=
  Finset.sum_congr rfl fun y _ => by rw [Nat.zero_and, popcount_zero, pow_zero, mul_one]

/-! ### The command -/

/-- FWHT where some counter is unwritten is a model fault (R38, R89). -/
theorem execFwht_of_unwritten (hf : s.flight = some f) (hw : s.hist.wf s.cfg) (hna : ¬ AllWritten s.cfg s.hist) :
    ∃ i, i < s.cfg.hsize ∧ execFwht s = .fault (.unwrittenCounter i) := by
  obtain ⟨i, hi, he⟩ := fwhtLoop_unwritten hw hna
  exact ⟨i, hi, complete_error hf (by simp only [he])⟩

/-- The loop of FWHT is the passes in ascending order (R91). -/
theorem fwhtLoop_eq_runPasses (c : Config) (r : HistRun) : fwhtLoop c r = runPasses c (List.range c.is) r := by
  rw [List.range_eq_range']
  exact forUp_eq_runPasses c c.is 0 r

/-- What a completed FWHT leaves: HIST stays canonical and written, and when OVF is clear each counter is the Walsh-Hadamard sum itself
(R94). -/
theorem execFwht_next_counter (hw : s.hist.wf s.cfg) (h : execFwht s = .next t) :
    t.cfg = s.cfg ∧ t.hist.wf s.cfg ∧ AllWritten s.cfg t.hist ∧
      (t.ovf = false → s.ovf = false ∧ ∀ x, x < s.cfg.hsize → counter t.hist x = wht s.cfg.is (counter s.hist) x) := by
  obtain ⟨_, r, _, hr, rfl⟩ := execFwht_next h
  obtain ⟨ha, -⟩ := fwhtLoop_ok_allWritten hw hr
  obtain ⟨r', hr', hw', ha', -, hexact⟩ := fwhtLoop_spec hw ha
  obtain rfl : r' = r := Except.ok.inj (hr'.symm.trans hr)
  refine ⟨rfl, hw', ha', fun hovf => ?_⟩
  obtain ⟨hs, hpend⟩ := Bool.or_eq_false_iff.mp hovf
  exact ⟨hs, hexact hpend⟩

/-! ### Passes in any order -/

/-- What the passes of a list put in the counters, from the counters g before them (R90). -/
def passesValue (c : Config) (l : List Nat) (g : Nat → Int) : Nat → Int := l.foldl (fun g i => passValue c i g) g

/-- A pass reads only counters that exist. -/
theorem passValue_congr {i : Nat} (hi : i < c.is) {g g' : Nat → Int} (h : ∀ y, y < c.hsize → g y = g' y) {z : Nat}
    (hz : z < c.hsize) : passValue c i g z = passValue c i g' z := by
  cases hb : z.testBit i with
  | false => rw [passValue_clear i g hb, passValue_clear i g' hb, h z hz, h _ (add_two_pow_lt hb hi hz)]
  | true =>
    obtain ⟨x, hx, rfl⟩ := exists_partner hb
    rw [passValue_set i g hx, passValue_set i g' hx, h _ hz, h x (Nat.lt_of_le_of_lt (Nat.le_add_right _ _) hz)]

theorem passesValue_congr {l : List Nat} (hl : ∀ i ∈ l, i < c.is) {g g' : Nat → Int} (h : ∀ y, y < c.hsize → g y = g' y) {z : Nat}
    (hz : z < c.hsize) : passesValue c l g z = passesValue c l g' z := by
  induction l generalizing g g' with
  | nil => exact h z hz
  | cons i l ih =>
    obtain ⟨hi, hl⟩ := List.forall_mem_cons.mp hl
    exact ih hl fun y hy => passValue_congr hi h hy

/-- Any list of passes on written counters completes, and leaves the passes' values in turn. -/
theorem runPasses_spec {l : List Nat} (hl : ∀ i ∈ l, i < c.is) {r : HistRun} (hw : r.mem.wf c) (ha : AllWritten c r.mem) :
    ∃ r', runPasses c l r = .ok r' ∧ r'.mem.wf c ∧ AllWritten c r'.mem ∧
      ∀ z, z < c.hsize → counter r'.mem z = passesValue c l (counter r.mem) z := by
  induction l generalizing r with
  | nil => exact ⟨r, rfl, hw, ha, fun _ _ => rfl⟩
  | cons i l ih =>
    obtain ⟨hi, hl⟩ := List.forall_mem_cons.mp hl
    obtain ⟨r₁, hpass, hw₁, ha₁, hvalue₁, -⟩ := fwhtPass_spec hi hw ha
    obtain ⟨r', hrest, hw', ha', hvalue⟩ := ih hl hw₁ ha₁
    refine ⟨r', by rw [runPasses, hpass]; exact hrest, hw', ha', fun z hz => ?_⟩
    rw [hvalue z hz]
    exact passesValue_congr hl hvalue₁ hz

/-- Two passes commute, so the order of a list of passes does not matter (R99). -/
theorem passesValue_perm {l l' : List Nat} (h : l.Perm l') (g : Nat → Int) : passesValue c l g = passesValue c l' g := by
  refine h.foldl_eq' (fun i _ j _ g => ?_) g
  by_cases hij : i = j
  · rw [hij]
  · exact funext (passValue_comm (Ne.symm hij) g)

end Sys2Proof.Machine
end

section
/-! The claims about the transform (R89 to R99). -/

namespace Sys2Proof.Machine

open Sys2Proof

/-- Settles O54: the pair of x is x and x + 2^i, and the pass leaves the wrapped sum at the one and the wrapped difference at the other. -/
theorem passReplacesPairsBySumAndDifference : Obligations.PassReplacesPairsBySumAndDifference := by
  intro c i r hi hw ha
  obtain ⟨r', hpass, hw', ha', hvalue, hpend⟩ := fwhtPass_spec hi hw ha
  refine ⟨r', hpass, hw', fun x hx hclear => ?_, hpend⟩
  have hpartner : x + 2 ^ i < c.hsize := add_two_pow_lt hclear hi hx
  rw [read_eq_counter ha' hx, read_eq_counter ha' hpartner, hvalue x hx, hvalue _ hpartner, passValue_clear i _ hclear,
    passValue_set i _ hclear]
  exact ⟨rfl, rfl⟩

/-- Settles O55: the loop leaves the wrapped sums, and its overflow flag is that of the passes run one by one. -/
theorem fwhtIsTheWalshHadamardSum : Obligations.FwhtIsTheWalshHadamardSum := by
  have hdec : decode 0x30#64 = .ok .fwht := decode_encode .fwht
  refine ⟨hdec, issuedAs_noCheck_of_decode hdec rfl rfl, fun s f hf hw => ⟨execFwht_of_unwritten hf hw, fun ha => ?_⟩⟩
  obtain ⟨r, hloop, -, ha', hvalue, hexact⟩ := fwhtLoop_spec hw ha
  obtain ⟨r', hpasses, -, hpend⟩ := runPasses_prefix hw ha s.cfg.is le_rfl
  obtain rfl : r' = r := Except.ok.inj (hpasses.symm.trans ((fwhtLoop_eq_runPasses _ _).symm.trans hloop))
  refine ⟨_, execFwht_eq hf hloop, rfl, fun x hx => ?_, fun hovf x hx => ?_, ?_⟩
  · rw [read_eq_counter ha' hx, hvalue x hx, whtSum_eq]
  · rw [read_eq_counter ha' hx, hexact (Bool.or_eq_false_iff.mp hovf).2 x hx, whtSum_eq]
  · rw [Bool.or_eq_true, hpend]

/-- Settles O57: OVF is sticky, so neither transform wrapped, and the sum of the sums is 2^IS times the counter. -/
theorem twoTransformsMultiplyByN : Obligations.TwoTransformsMultiplyByN := by
  intro s t u f hw _ hfirst hsecond hovf x hx
  obtain ⟨hcfg, hw', -, hsum⟩ := execFwht_next_counter hw hfirst
  obtain ⟨-, -, ha'', hsum'⟩ := execFwht_next_counter (s := { t with flight := some f }) (hcfg.symm ▸ hw') hsecond
  obtain ⟨htovf, hcounter'⟩ := hsum' hovf
  obtain ⟨-, hcounter⟩ := hsum htovf
  simp only [hcfg] at ha'' hcounter'
  rw [read_eq_counter ha'' hx, hcounter' x hx, wht_congr hcounter, wht_wht _ _ x hx]

/-- Settles O58: the sum at index 0 has no negative sign, and Parseval's identity holds of the sums. -/
theorem transformSumAndParseval : Obligations.TransformSumAndParseval := by
  intro s t hw _ h hovf
  obtain ⟨-, -, ha', hsum⟩ := execFwht_next_counter hw h
  obtain ⟨-, hcounter⟩ := hsum hovf
  constructor
  · rw [read_eq_counter ha' s.cfg.hsize_pos, hcounter 0 s.cfg.hsize_pos, wht_at_zero]
    rfl
  · calc ∑ x ∈ Finset.range s.cfg.hsize, counter t.hist x ^ 2
        = ∑ x ∈ Finset.range s.cfg.hsize, wht s.cfg.is (counter s.hist) x ^ 2 :=
          Finset.sum_congr rfl fun x hx => by rw [hcounter x (Finset.mem_range.mp hx)]
      _ = 2 ^ s.cfg.is * ∑ y ∈ Finset.range s.cfg.hsize, counter s.hist y ^ 2 := parseval _ _

/-- Settles O59: the counters after a list of passes depend on the list up to order only, and they fix HIST. -/
theorem passOrderDoesNotMatter : Obligations.PassOrderDoesNotMatter := by
  intro c r l hw ha hperm
  have hrange : ∀ i ∈ List.range c.is, i < c.is := fun i => List.mem_range.mp
  obtain ⟨r', hrun', hw', ha', hvalue'⟩ := runPasses_spec hrange hw ha
  obtain ⟨r'', hrun'', hw'', ha'', hvalue''⟩ := runPasses_spec (fun i hi => hrange i (hperm.mem_iff.mp hi)) hw ha
  refine ⟨fwhtLoop_eq_runPasses c r, r', r'', (fwhtLoop_eq_runPasses c r).trans hrun', hrun'', ?_⟩
  exact Memory.ext_of_counters hw' hw'' ha' ha'' fun i hi => by rw [hvalue' i hi, hvalue'' i hi, passesValue_perm hperm]

end Sys2Proof.Machine
end

section
/-! SUPPORT. The latched error (R101 to R107): `latchError` by what is latched before, and what a port write can do to the error. -/

namespace Sys2Proof.Machine

open Sys2Proof

/-- While an error is latched, `latchError` does nothing, whatever the code (R102). -/
theorem latchError_of_latched (e : ErrCode) {s : State} (h : s.err ≠ none) : latchError e s = s := by
  obtain ⟨d, hd⟩ := Option.ne_none_iff_exists'.mp h
  exact latchError_of_some e d s hd

/-- Clearing forgets what was latched (R107). -/
theorem clearError_latchError (e : ErrCode) (s : State) : clearError (latchError e s) = clearError s := by
  cases h : s.err with
  | none => rw [latchError_of_none e s h]; rfl
  | some d => rw [latchError_of_some e d s h]

/-- Where a port write can latch an error: any code at CMD, and BUSY at CTRL and DISCARD while a command is in flight (R102, R106). -/
def CanLatch (r : Reg) (e : ErrCode) (s : State) : Prop :=
  r = .cmd ∨ e = .busy ∧ s.flight ≠ none ∧ (r = .ctrl ∨ r = .discard)

theorem CanLatch.ne_status {r : Reg} {e : ErrCode} {s : State} (h : CanLatch r e s) : r ≠ .status := by
  rintro rfl
  simp [CanLatch] at h

/-- What a port write can do to the latched error: clear it by bit 1 of STATUS, leave it, or be dropped with `latchError` (R105 to R107). -/
theorem writeReg_err_cases (r : Reg) (v : Word) (s : State) :
    ((r = .status ∧ v.getLsbD 1 = true) ∧ (writeReg r v s).err = none) ∨
    (¬ (r = .status ∧ v.getLsbD 1 = true) ∧ (writeReg r v s).err = s.err) ∨
    ∃ e, CanLatch r e s ∧ writeReg r v s = latchError e s := by
  cases r with
  | status =>
    by_cases hv : v.getLsbD 1 = true
    · exact .inl ⟨⟨rfl, hv⟩, by rw [writeReg, writeStatus_eq, if_pos hv]⟩
    · exact .inr (.inl ⟨fun hclear => hv hclear.2, by rw [writeReg, writeStatus_eq, if_neg hv]⟩)
  | cmd =>
    rcases issue_cases v s with ⟨-, h⟩ | ⟨hs, e, h, -⟩ | ⟨-, -, _, -, -, -, h⟩
    · exact .inr (.inl ⟨by simp, by rw [writeReg, h]⟩)
    · exact .inr (.inr ⟨e, .inl rfl, h.trans (latchError_of_none e s hs).symm⟩)
    · exact .inr (.inl ⟨by simp, by rw [writeReg, h, accept_err]⟩)
  | ctrl =>
    by_cases hf : s.flight = none
    · exact .inr (.inl ⟨by simp, by rw [writeReg, writeCtrl_idle hf]⟩)
    · exact .inr (.inr ⟨.busy, .inr ⟨rfl, hf, .inl rfl⟩, writeCtrl_busy hf⟩)
  | discard =>
    by_cases hf : s.flight = none
    · exact .inr (.inl ⟨by simp, by rw [writeReg, writeDiscard_idle hf]⟩)
    · exact .inr (.inr ⟨.busy, .inr ⟨rfl, hf, .inr rfl⟩, writeDiscard_busy hf⟩)
  | id => exact .inr (.inl ⟨by simp, rfl⟩)
  | a => exact .inr (.inl ⟨by simp, rfl⟩)
  | b => exact .inr (.inl ⟨by simp, rfl⟩)
  | res => exact .inr (.inl ⟨by simp, rfl⟩)

/-- A latched error outlives every port write but a STATUS write with bit 1 set (R101, R107). -/
theorem writeReg_err_of_latched (r : Reg) (v : Word) {s : State} {e : ErrCode} (hs : s.err = some e) :
    (writeReg r v s).err = if r = .status ∧ v.getLsbD 1 = true then none else some e := by
  rcases writeReg_err_cases r v s with ⟨hclear, h⟩ | ⟨hclear, h⟩ | ⟨d, hd, h⟩
  · rw [if_pos hclear, h]
  · rw [if_neg hclear, h, hs]
  · rw [if_neg fun hclear => hd.ne_status hclear.1, h, latchError_of_some d e s hs, hs]

/-- A port write that latches an error is dropped: the error is all it changes (R105, R106). -/
theorem writeReg_of_latches {r : Reg} {v : Word} {s : State} {e : ErrCode} (hs : s.err = none)
    (he : (writeReg r v s).err = some e) : writeReg r v s = latchError e s ∧ CanLatch r e s := by
  rcases writeReg_err_cases r v s with ⟨-, h⟩ | ⟨-, h⟩ | ⟨d, hd, h⟩
  · simp [h] at he
  · simp [h, hs] at he
  · obtain rfl : d = e := by simpa [h, hs] using he
    exact ⟨h, hd⟩

end Sys2Proof.Machine
end

section
/-! The claims about errors (R101, R102, R105, R106). -/

namespace Sys2Proof.Machine

open Sys2Proof

/-- Settles O17: of the outcomes of an issue with no error latched, only acceptance does not latch one, and it puts a record into an
idle block. -/
theorem failedCmdWriteChangesOnlyTheError : Obligations.FailedCmdWriteChangesOnlyTheError := by
  refine fun w s => ⟨fun e he => issue_of_err (by simp [he]), fun hs hflight => ?_⟩
  rcases issue_cases w s with ⟨hne, -⟩ | ⟨-, h⟩ | ⟨-, hidle, _, -, -, -, h⟩
  · exact absurd hs hne
  · exact h
  · simp [h, hidle] at hflight

/-- Settles O18: `latchError` keeps what is latched, and a port write clears the error, leaves it, or is dropped with `latchError`. -/
theorem firstErrorIsKept : Obligations.FirstErrorIsKept := by
  refine ⟨fun s c d => ⟨latchError_of_none c s, latchError_of_latched c, latchError_of_latched d (by simp),
    clearError_latchError c s⟩, fun r v s e => writeReg_err_of_latched r v, fun r v s e => writeReg_of_latches,
    fun i s t => exec_next_err, resetBlock_err⟩

/-- Settles O19: the two guarded writes, idle and busy, with THRESH as bits 15:0; a STATUS write only clears. -/
theorem writesWhileBusy : Obligations.WritesWhileBusy := by
  refine fun s v => ⟨fun hbusy => ⟨writeCtrl_busy hbusy, writeDiscard_busy hbusy⟩,
    fun hidle => ⟨?_, writeDiscard_idle hidle⟩, rfl, rfl, ?_, rfl, rfl⟩
  · rw [← BitVec.setWidth_eq_extractLsb' (by decide)]
    exact writeCtrl_idle hidle
  · rcases writeReg_err_cases .status v s with ⟨-, h⟩ | ⟨-, h⟩ | ⟨_, hlatch, -⟩
    · exact .inr h
    · exact .inl h
    · exact absurd rfl hlatch.ne_status

end Sys2Proof.Machine
end

section
/-! The claim about reset (R118). -/

namespace Sys2Proof.Machine

open Sys2Proof

/-- A reset edge without an ill-formed transaction is the reset action, with the last reply unless a transaction is made then (R118). -/
theorem resetEdge_of_wf {d : Option Access} (hd : ∀ x, d = some x → x.wf = true) (s : State) :
    resetEdge d s = .next { resetBlock s with reply := d.elim s.reply replyUnderReset } := by
  cases d with
  | none => rfl
  | some x => exact if_pos (hd x rfl)

/-- Settles O2: the edge is the reset action, which sets every register to a constant; only the reply depends on the transaction. -/
theorem resetEdgeResetsTheBlock : Obligations.ResetEdgeResetsTheBlock := by
  intro s d rest hovf hinputs hwf
  have hstep : step s = resetEdge d { s with inputs := rest } := step_cons hovf hinputs
  refine ⟨_, hstep.trans (resetEdge_of_wf hwf _), rfl, rfl, rfl, rfl, rfl, rfl, rfl, rfl, rfl, rfl, rfl, rfl, rfl,
    Memory.read_unwritten, ?_, ?_⟩
  · rintro o w rfl
    rfl
  · rintro a n rfl
    rfl

end Sys2Proof.Machine
end

section
/-! SUPPORT. The rest of what a completion leaves, field by field (R54); the machine's invariant under each operation that a step is made of
(R22, R29, R52, R53); and a step by the event it takes (R45). -/

namespace Sys2Proof.Machine

open Sys2Proof

variable {i : Instr} {s t : State}

/-! ### More fields of a completed command -/

theorem exec_next_thresh (h : exec i s = .next t) : t.thresh = s.thresh := by
  obtain ⟨_, ht, -⟩ := exec_next_frame i h
  rw [ht]

theorem exec_next_inputs (h : exec i s = .next t) : t.inputs = s.inputs := by
  obtain ⟨_, ht, -⟩ := exec_next_frame i h
  rw [ht]

theorem exec_next_reply (h : exec i s = .next t) : t.reply = s.reply := by
  obtain ⟨_, ht, -⟩ := exec_next_frame i h
  rw [ht]

theorem exec_next_table (h : exec i s = .next t) (hi : i ≠ .tblbuild) : t.table = s.table := by
  obtain ⟨_, -, -, -, -, htable, -⟩ := exec_next_frame i h
  exact htable hi

theorem exec_next_hist (h : exec i s = .next t) (hi : i ∉ [Instr.hclr, .hacc, .hwr, .samp, .fwht]) : t.hist = s.hist := by
  obtain ⟨_, -, -, -, -, -, -, hhist, -⟩ := exec_next_frame i h
  exact hhist hi

end Sys2Proof.Machine

namespace Sys2Proof

open Sys2Proof.Machine

variable {i : Instr} {s t : State}

/-! ### The invariant -/

/-- An idle block meets the invariant by its memories alone (R20). -/
theorem Inv.of_idle (hhist : s.hist.wf s.cfg) (htable : s.tblv = true → s.table = buildTable s.cfg s.thresh.toNat)
    (hflight : s.flight = none) : Inv s :=
  ⟨hhist, htable, fun f hf => by rw [hflight] at hf; cases hf⟩

/-- The invariant speaks of the build, THRESH, TBLV, the two memories and the record, and of nothing else. -/
theorem Inv.of_unchanged (h : Inv s) (hcfg : t.cfg = s.cfg) (hthresh : t.thresh = s.thresh) (htblv : t.tblv = s.tblv)
    (hhist : t.hist = s.hist) (htable : t.table = s.table) (hflight : t.flight = s.flight) : Inv t where
  hist := by rw [hhist, hcfg]; exact h.hist
  table := by rw [htblv, htable, hcfg, hthresh]; exact h.table
  flight f hf := by
    obtain ⟨hthr, hknown⟩ := h.flight f (hflight ▸ hf)
    exact ⟨by rw [hthr, hthresh], by rw [hcfg, htblv]; exact hknown⟩

theorem latchError_inv (h : Inv s) (e : ErrCode) : Inv (latchError e s) :=
  h.of_unchanged (latchError_cfg e s) (latchError_thresh e s) (latchError_tblv e s) (latchError_hist e s) (latchError_table e s)
    (latchError_flight e s)

/-- What a CMD write accepts has passed the checks that the invariant asks of a record (R52, R53). -/
theorem issue_inv (h : Inv s) (w : Word) : Inv (issue w s) := by
  rcases issue_cases w s with ⟨-, hissue⟩ | ⟨-, _, hissue, -⟩ | ⟨-, -, i, hd, hneeds, hindex, hissue⟩ <;> rw [hissue]
  · exact h
  · exact h.of_unchanged rfl rfl rfl rfl rfl rfl
  · refine ⟨h.hist, h.table, fun f hf => ?_⟩
    cases hf
    exact ⟨rfl, i, decodeOp_of_decode hd, hneeds, hindex⟩

/-- THRESH changes only in an idle block and clears TBLV, so neither a record nor a valid TABLE outlives its threshold (R25, R29). -/
theorem writeReg_inv (h : Inv s) (r : Reg) (w : Word) : Inv (writeReg r w s) := by
  cases r with
  | id => exact h
  | ctrl =>
    by_cases hf : s.flight = none
    · rw [writeReg, writeCtrl_idle hf]
      exact .of_idle h.hist nofun hf
    · rw [writeReg, writeCtrl_busy hf]
      exact latchError_inv h _
  | status =>
    rw [writeReg, writeStatus_eq]
    exact h.of_unchanged rfl rfl rfl rfl rfl rfl
  | cmd => exact issue_inv h w
  | a => exact h.of_unchanged rfl rfl rfl rfl rfl rfl
  | b => exact h.of_unchanged rfl rfl rfl rfl rfl rfl
  | res => exact h
  | discard =>
    by_cases hf : s.flight = none
    · rw [writeReg, writeDiscard_idle hf]
      exact h.of_unchanged rfl rfl rfl rfl rfl rfl
    · rw [writeReg, writeDiscard_busy hf]
      exact latchError_inv h _

/-- TBLBUILD builds under the latched threshold, which is THRESH; no other command reaches TABLE, TBLV or THRESH (R29, R53, R74). -/
theorem exec_next_tableReady (h : Inv s) (hex : exec i s = .next t) (hvalid : t.tblv = true) :
    t.table = buildTable t.cfg t.thresh.toNat := by
  by_cases hi : i = .tblbuild
  · subst hi
    obtain ⟨f, hf⟩ := exec_next_flight _ hex
    rw [exec, execTblbuild_eq hf] at hex
    cases hex
    rw [opT, (h.flight f hf).thr]
  · have htblv : s.tblv = true := by simpa [exec_next_tblv hex, hi] using hvalid
    rw [exec_next_table hex hi, exec_next_cfg hex, exec_next_thresh hex]
    exact h.table htblv

theorem exec_next_inv (h : Inv s) (hex : exec i s = .next t) : Inv t :=
  .of_idle (by rw [exec_next_cfg hex]; exact exec_next_hist_wf i h.hist hex) (exec_next_tableReady h hex) (exec_next_flight_none hex)

theorem resetBlock_inv (s : State) : Inv (resetBlock s) :=
  .of_idle (Memory.wf_unwritten s.cfg) nofun rfl

end Sys2Proof

namespace Sys2Proof.Machine

open Sys2Proof

variable {s : State}

/-! ### A step by the event it takes -/

theorem engineTurn_of_idle (hf : s.flight = none) : engineTurn s = .next s := by
  simp only [engineTurn, hf]

theorem engineTurn_of_flight {f : Flight} {i : Instr} (hf : s.flight = some f) (hop : decodeOp f.op = some i) :
    engineTurn s = exec i s := by
  simp only [engineTurn, hf, hop]

theorem hostAccess_of_not_wf {x : Access} (h : ¬ x.wf = true) (s : State) : hostAccess x s = .refused (refusalOf x) :=
  if_neg h

/-- A transaction of the port is performed when it is aligned, whole and in the window, and refused otherwise (R36, R41). -/
theorem hostAccess_of_wf_iff {x : Access} {o w : Nat} (hwf : x.wf = true ↔ o % 8 = 0 ∧ o < 64 ∧ w = 64) (s : State) :
    (o % 8 = 0 → o < 64 → w = 64 → hostAccess x s = .next (perform x s)) ∧
    (o % 8 ≠ 0 ∨ 64 ≤ o ∨ w ≠ 64 → hostAccess x s = .refused (refusalOf x)) := by
  refine ⟨fun ho hlt hw => hostAccess_of_wf (hwf.mpr ⟨ho, hlt, hw⟩) s, fun hbad => hostAccess_of_not_wf (fun h => ?_) s⟩
  obtain ⟨ho, hlt, hw⟩ := hwf.mp h
  omega

/-- No event ends in the fault of a state with OVF = 1: host transactions and reset edges raise none, and no command raises this one. -/
theorem runEvent_fault {e : Event} {r : Fault} (h : runEvent e s = .fault r) : r ≠ .counterOverflow := by
  cases e with
  | engine => exact engineTurn_fault h
  | host x =>
    rw [runEvent, hostAccess] at h
    split at h <;> cases h
  | rst d =>
    cases d with
    | none => cases h
    | some x =>
      rw [runEvent, resetEdge] at h
      split at h <;> cases h

theorem step_fault_ne_counterOverflow {r : Fault} (hovf : s.ovf = false) (h : step s = .fault r) : r ≠ .counterOverflow := by
  cases hi : s.inputs with
  | nil => exact engineTurn_fault ((step_nil hovf hi).symm.trans h)
  | cons e rest => exact runEvent_fault ((step_cons hovf hi).symm.trans h)

end Sys2Proof.Machine
end

section
/-! The claims about a step and a completion (R13, R14, R22, R28, R29, R32, R33, R41, R54, R108, R117). -/

namespace Sys2Proof.Machine

open Sys2Proof

/-- Settles O4: every way in which a step can answer a state keeps the invariant, and the events and the reply are no part of it. -/
theorem everyStepKeepsTheInvariant : Obligations.EveryStepKeepsTheInvariant := by
  intro s t h hstep
  obtain ⟨-, es, hcases⟩ := step_next_cases hstep
  have hu : Inv { s with inputs := es } := h.of_unchanged rfl rfl rfl rfl rfl rfl
  rcases hcases with ⟨-, rfl⟩ | ⟨_, _, -, -, hex⟩ | ⟨_, rfl⟩ | ⟨r, w, rfl⟩ | ⟨_, rfl⟩
  · exact hu
  · exact exec_next_inv hu hex
  · exact hu.of_unchanged rfl rfl rfl rfl rfl rfl
  · exact (writeReg_inv hu r w).of_unchanged rfl rfl rfl rfl rfl rfl
  · exact (resetBlock_inv _).of_unchanged rfl rfl rfl rfl rfl rfl

/-- Settles O3: at reset the block is idle, TBLV is clear and every counter is unwritten. -/
theorem invariantHoldsAtReset : Obligations.InvariantHoldsAtReset :=
  fun c _ => .of_idle (Memory.wf_unwritten c) nofun rfl

/-- Settles O24, from the frame of every command, one field after another. -/
theorem completionEndsTheCommand : Obligations.CompletionEndsTheCommand := by
  refine fun i s => ⟨fun t h => ?_, exec_idle i⟩
  have hidle : t.flight = none := exec_next_flight_none h
  obtain ⟨p, hovf, -⟩ := exec_next_ovf h
  exact ⟨hidle, by rw [statusWord_getLsbD_zero, hidle]; rfl, exec_next_a h, exec_next_b h, exec_next_thresh h, exec_next_err h,
    exec_next_cfg h, exec_next_inputs h, exec_next_reply h, fun hs => by rw [hovf, hs, Bool.true_or]⟩

/-- Settles O29, from the frame of every command and of every port write. -/
theorem onlyTheNamedCommandsWriteTheMemories : Obligations.OnlyTheNamedCommandsWriteTheMemories := by
  refine ⟨fun i s t h => ⟨exec_next_table h, exec_next_hist h⟩, fun r v s => ?_⟩
  obtain ⟨-, -, -, hhist, htable, -⟩ := writeReg_frame r v s
  exact ⟨htable, hhist⟩

/-- Settles O7: the step looks at OVF before it takes an event, and no event ends in that fault. -/
theorem overflowStateHasNoSuccessor : Obligations.OverflowStateHasNoSuccessor := by
  refine fun s => ⟨step_ovf, fun h => ?_⟩
  by_contra hovf
  exact step_fault_ne_counterOverflow (Bool.eq_false_of_not_eq_true hovf) h rfl

/-- Settles O8: completions, port writes and reset all keep the build. -/
theorem noStepChangesTheBuild : Obligations.NoStepChangesTheBuild := by
  intro s t hstep
  obtain ⟨-, es, hcases⟩ := step_next_cases hstep
  rcases hcases with ⟨-, rfl⟩ | ⟨_, _, -, -, hex⟩ | ⟨_, rfl⟩ | ⟨r, w, rfl⟩ | ⟨_, rfl⟩
  · rfl
  · exact exec_next_cfg (s := { s with inputs := es }) hex
  · rfl
  · exact (writeReg_frame r w { s with inputs := es }).1
  · rfl

/-- Settles O5: an engine event and an empty order both give the engine its turn, busy or idle. -/
theorem stepRunsTheCommandInFlight : Obligations.StepRunsTheCommandInFlight := fun _ _ hovf =>
  ⟨fun _ _ hi hf hop => (step_cons hovf hi).trans (engineTurn_of_flight hf hop),
    fun _ _ hi hf hop => (step_nil hovf hi).trans (engineTurn_of_flight hf hop),
    fun hi hf => (step_cons hovf hi).trans (engineTurn_of_idle hf),
    fun hi hf => (step_nil hovf hi).trans (engineTurn_of_idle hf)⟩

/-- Settles O6: a transaction of the port is well formed exactly when it is aligned, whole and in the window. -/
theorem stepPerformsHostTransactions : Obligations.StepPerformsHostTransactions := by
  refine fun s rest hovf => ⟨fun o w hi => ?_, fun o w v hi => ?_⟩ <;> rw [step_cons hovf hi]
  · exact hostAccess_of_wf_iff (read_wf_iff o w) _
  · exact hostAccess_of_wf_iff (write_wf_iff o w v) _

end Sys2Proof.Machine
end

section
/-! SUPPORT. The round trip of every command (R51, R58, R60), the fields of STATUS (R22), words cut into blocks and what a clean codeword's
blocks leave of another word (R67, R78), and the passes of a transform within the bound (R95). -/

namespace Sys2Proof.Machine

open Sys2Proof

/-! ### Command words -/

/-- The number of a command's word is read back as the opcode table numbers it (R60). -/
theorem decodeTableWord_encode (i : Instr) : decodeTableWord 64 (encode i).toNat = some i := by
  rw [decodeTableWord, if_pos ⟨Nat.le_refl 64, (encode i).isLt⟩, BitVec.ofNat_toNat, BitVec.setWidth_eq, decode_encode]
  rfl

/-- Every command has the round trip of its own lemma. -/
theorem roundTrip_statement (i : Instr) : Laws.RoundTrip.Statement i := by
  cases i with
  | nop => exact Laws.RoundTrip.nop
  | par => exact Laws.RoundTrip.par
  | popc => exact Laws.RoundTrip.popc
  | tblbuild => exact Laws.RoundTrip.tblbuild
  | tblrd => exact Laws.RoundTrip.tblrd
  | dec => exact Laws.RoundTrip.dec
  | proj => exact Laws.RoundTrip.proj
  | projp => exact Laws.RoundTrip.projp
  | hclr => exact Laws.RoundTrip.hclr
  | hacc => exact Laws.RoundTrip.hacc
  | hwr => exact Laws.RoundTrip.hwr
  | hrd => exact Laws.RoundTrip.hrd
  | samp => exact Laws.RoundTrip.samp
  | fwht => exact Laws.RoundTrip.fwht

/-! ### The STATUS word -/

/-- One bit of a word, from the one-bit field of its number (R10). -/
theorem getLsbD_eq_of_field {w : Word} {lo : Nat} {b : Bool} (h : field w.toNat lo 1 = b.toNat) : w.getLsbD lo = b := by
  rw [← BitVec.testBit_toNat, Nat.testBit_eq_decide_div_mod_eq, show w.toNat / 2 ^ lo % 2 = b.toNat from h]
  cases b <;> rfl

theorem ecode_of_none {s : State} (h : s.err = none) : s.ecode = 0 := by
  simp only [State.ecode, h]

theorem ecode_of_some {s : State} {e : ErrCode} (h : s.err = some e) : s.ecode = e.code := by
  simp only [State.ecode, h]

theorem ecode_le (s : State) : s.ecode ≤ 4 := by
  cases h : s.err with
  | none => rw [ecode_of_none h]; exact Nat.zero_le 4
  | some e => rw [ecode_of_some h]; cases e <;> decide

/-- The flags and codes in STATUS, each in its own field, with the reserved bits 0 (R22). -/
theorem statusWord_fields (s : State) :
    field (statusWord s).toNat 0 1 = s.busy.toNat ∧ field (statusWord s).toNat 1 1 = s.hasErr.toNat ∧
    field (statusWord s).toNat 2 1 = s.ovf.toNat ∧ field (statusWord s).toNat 3 1 = s.rej.toNat ∧
    field (statusWord s).toNat 4 1 = s.tblv.toNat ∧ field (statusWord s).toNat 5 3 = 0 % 2 ^ 3 ∧
    field (statusWord s).toNat 8 4 = s.ecode % 2 ^ 4 ∧ field (statusWord s).toNat 12 52 = 0 % 2 ^ 52 := by
  have hbusy := s.busy.toNat_le
  have herr := s.hasErr.toNat_le
  have hovf := s.ovf.toNat_le
  have hrej := s.rej.toNat_le
  have htblv := s.tblv.toNat_le
  have hecode := ecode_le s
  simp only [statusWord, BitVec.toNat_ofNat, field]
  refine ⟨?_, ?_, ?_, ?_, ?_, ?_, ?_, ?_⟩ <;> omega

/-! ### Blocks of a word -/

/-- The population count of a word is the sum of the counts of its blocks (R11, R67). -/
theorem popcount_mul (n k v : Nat) : popcount (n * k) v = ∑ b ∈ Finset.range n, popcount k (field v (b * k) k) := by
  induction n with
  | zero => rw [Nat.zero_mul, popcount, Finset.range_zero, Finset.sum_empty]
  | succ n ih =>
    have htop : popcount k (v / 2 ^ (n * k)) = popcount k (field v (n * k) k) :=
      popcount_congr _ _ _ fun j hj => by simp [testBit_field, hj, Nat.testBit_div_two_pow, Nat.add_comm]
    rw [Nat.succ_mul, popcount_add, ih, Finset.sum_range_succ, htop]

/-- A field of a conjunction is the conjunction of the fields (R10). -/
theorem field_and (v w lo len : Nat) : field (v &&& w) lo len = field v lo len &&& field w lo len := by
  simp only [field, Nat.and_div_two_pow, Nat.and_mod_two_pow]

/-- A block that is all ones or all 0 keeps the whole block of the other word, or nothing of it. -/
theorem popcount_clean_block {k u : Nat} (hu : u < 2 ^ k) (bit : Bool) :
    popcount k ((if bit then 2 ^ k - 1 else 0) &&& u) = if bit then popcount k u else 0 := by
  cases bit with
  | false => rw [if_neg Bool.false_ne_true, if_neg Bool.false_ne_true, Nat.zero_and, popcount_zero]
  | true => rw [if_pos rfl, if_pos rfl, Nat.and_comm, Nat.and_two_pow_sub_one_eq_mod, Nat.mod_eq_of_lt hu]

/-- What is left of block b of x when only the blocks that L marks are kept (R78). -/
def markedCount (c : Config) (L x b : Nat) : Nat := if L.testBit b then blockCount c x b else 0

/-- One bit of a label's conjunction with PROJP's label: the parity of the block where the label holds a 1 (R78). -/
theorem testBit_and_parityLabel (c : Config) (L x : Nat) {b : Nat} (hb : b < c.is) :
    ((L &&& parityLabel c x).testBit b).toNat = markedCount c L x b % 2 := by
  rw [Nat.testBit_and, parityLabel, testBit_labelBits, parity, ← blockCount, markedCount]
  cases L.testBit b with
  | false => simp
  | true => rcases Nat.mod_two_eq_zero_or_one (blockCount c x b) with h | h <;> simp [hb, h]

/-! ### Passes within the bound -/

/-- Within the bound no pass wraps: the flag of the whole loop collects that of its first k passes, whatever k (R81, R95). -/
theorem runPasses_range_within_bound {c : Config} {m : Memory} (hw : m.wf c) (ha : AllWritten c m)
    (hb : absSum c m ≤ 2 ^ (c.cw - 1) - 1) {k : Nat} (hk : k ≤ c.is) :
    ∃ r, runPasses c (List.range k) ⟨m, false⟩ = .ok r ∧ r.pend = false ∧
      ∀ x, x < c.hsize → |counter r.mem x| ≤ absSum c m := by
  obtain ⟨whole, hwhole, hclear⟩ := fwhtLoop_within_bound hw ha hb
  obtain ⟨last, hlast, -, hlastPend⟩ := runPasses_prefix hw ha c.is (Nat.le_refl _)
  obtain rfl : whole = last := Except.ok.inj (hwhole.symm.trans ((fwhtLoop_eq_runPasses c _).trans hlast))
  obtain ⟨r, hr, hloop, hpend⟩ := runPasses_prefix hw ha k hk
  have hrclear : r.pend = false := by
    by_contra hset
    obtain ⟨i, r₀, x, hi, hwraps⟩ := hpend.mp (Bool.eq_true_of_not_eq_false hset)
    exact Bool.false_ne_true (hclear.symm.trans (hlastPend.mpr ⟨i, r₀, x, hi.trans_le hk, hwraps⟩))
  refine ⟨r, hr, hrclear, fun x hx => ?_⟩
  rw [hloop.exact hrclear x hx]
  exact abs_partialSum_le _ hk hx

end Sys2Proof.Machine
end

section
/-! The claims about the encoding, the registers, clean codewords, HIST as a memory, and the bound on one transform (R15, R22, R26, R32, R38,
R42, R51, R58 to R60, R78, R95, R103, R118, R119). -/

namespace Sys2Proof.Machine

open Sys2Proof

/-- Settles O9: the round trip of each command, and a word is made up by its two fields, which decoding fixes. -/
theorem decodeAndEncodeAgree : Obligations.DecodeAndEncodeAgree := by
  refine ⟨fun i => ?_, fun w i => eq_encode_of_decode, fun i => ?_⟩
  · obtain ⟨hwf, hdecode, -, -⟩ := roundTrip_statement i
    exact ⟨hwf, hdecode, decodeTableWord_encode i⟩
  · obtain ⟨-, -, hrsv, hop⟩ := roundTrip_statement i
    exact ⟨decodeOp_eq_some.mpr rfl, hop, hrsv⟩

/-- Settles O11: the legal words are command words, and of the illegal ones one has an OP outside the table and one a reserved bit. -/
theorem sampleWordsDecode : Obligations.SampleWordsDecode :=
  ⟨decode_encode .nop, decode_encode .par, decode_encode .tblrd, decode_encode .projp, decode_encode .samp, decode_encode .fwht,
    rfl, rfl⟩

/-- Settles O13: each flag is a one-bit field of STATUS's number, and ECODE's field holds the code of the latched error. -/
theorem statusWordLayout : Obligations.StatusWordLayout := by
  intro s
  obtain ⟨hbusy, herr, hovf, hrej, htblv, hlow, hecode, hhigh⟩ := statusWord_fields s
  have hcode (e : ErrCode) (he : s.err = some e) : (statusWord s).extractLsb' 8 4 = BitVec.ofNat 4 e.code := by
    rw [extractLsb'_eq_ofNat hecode, ecode_of_some he]
  exact ⟨getLsbD_eq_of_field hbusy, getLsbD_eq_of_field herr, getLsbD_eq_of_field hovf, getLsbD_eq_of_field hrej,
    getLsbD_eq_of_field htblv, extractLsb'_eq_ofNat hlow, extractLsb'_eq_ofNat hhigh,
    fun he => by rw [extractLsb'_eq_ofNat hecode, ecode_of_none he]; rfl, hcode .illegalCmd, hcode .busy, hcode .noTable,
    hcode .badIndex⟩

/-- Settles O12: the eight rows of the register map, and a read that only answers. -/
theorem registerReads : Obligations.RegisterReads :=
  fun _ => ⟨⟨rfl, rfl, rfl, rfl, rfl, rfl, rfl, rfl⟩, fun _ => rfl, fun r => by cases r <;> rfl⟩

/-- Settles O1: the fields of the reset state, with HIST unwritten. -/
theorem resetStateHoldsTheSpecsValues : Obligations.ResetStateHoldsTheSpecsValues :=
  ⟨rfl, fun c => ⟨State.resetOf_cfg c, State.resetOf_thresh c, rfl, State.resetOf_err c, State.resetOf_ovf c, State.resetOf_rej c,
    State.resetOf_tblv c, State.resetOf_a c, State.resetOf_b c, State.resetOf_res c, State.resetOf_discard c,
    State.resetOf_flight c, Memory.read_unwritten⟩⟩

/-- Settles O43: block by block, m keeps the blocks of x that L marks, and the parity of their sum is the parity of their parities. -/
theorem cleanCodewordParity : Obligations.CleanCodewordParity := by
  intro c L m x hclean
  have hword : popcount c.ql (m &&& x) = ∑ b ∈ Finset.range c.is, markedCount c L x b := by
    rw [← c.is_mul_rf, popcount_mul]
    refine Finset.sum_congr rfl fun b hb => ?_
    rw [field_and, show field m (b * c.rf) c.rf = _ from hclean b (Finset.mem_range.mp hb)]
    exact popcount_clean_block (field_lt _ _ _) _
  have hlabel : popcount c.is (L &&& parityLabel c x) = ∑ b ∈ Finset.range c.is, markedCount c L x b % 2 := by
    rw [popcount_eq_sum]
    exact Finset.sum_congr rfl fun b hb => testBit_and_parityLabel c L x (Finset.mem_range.mp hb)
  rw [parity, parity, hword, hlabel, Finset.sum_nat_mod]

/-- Settles O45: the laws of one write, and the canonical form fixes the data by the counters' values. -/
theorem histReadsWhatWasWritten : Obligations.HistReadsWhatWasWritten := fun _ _ hw =>
  ⟨fun _ v hi hmin hmax => ⟨Memory.wf_write hw hi hmin hmax, Memory.read_write_same hw v,
    fun _ hj hne => Memory.read_write_other hw v hi hj hne⟩, fun _ hw' => Memory.ext_of_reads hw hw'⟩

/-- Settles O56: a completed FWHT is its first IS passes, which are all. -/
theorem oneTransformWithinTheBoundNeverWraps : Obligations.OneTransformWithinTheBoundNeverWraps := by
  intro s t hw ha hb h
  obtain ⟨_, r, _, hloop, rfl⟩ := execFwht_next h
  obtain ⟨r', hr', hclear, hbound⟩ := runPasses_range_within_bound hw ha hb (Nat.le_refl s.cfg.is)
  obtain rfl : r' = r := Except.ok.inj (hr'.symm.trans ((fwhtLoop_eq_runPasses _ _).symm.trans hloop))
  exact ⟨by rw [hclear, Bool.or_false], hbound, fun k hk => runPasses_range_within_bound hw ha hb hk⟩

end Sys2Proof.Machine
end
